-- ==== Sys2Proof/Word.lean ====
section
/-! DEFINITION. The two plain value types of the spec: the 32-bit word of every register and of both
algorithms, and the byte (00_scope.md R6, R9). All values are unsigned. -/

namespace Sys2Proof

/-- A register value or an algorithm word: 32 bits, unsigned (R9). -/
abbrev Word := BitVec 32

/-- A byte: 8 bits, unsigned (R9). -/
abbrev Byte := BitVec 8

end Sys2Proof
end

