-- ==== Sys2Proof/Syntax.lean ====
section
/-! DEFINITION. The engine's commands: one constructor per row of spec/opcode_table.json (30_encoding.md R91).
A command has no operand fields (R90): its operands are fixed registers and buffers (R92). -/

namespace Sys2Proof

/-- The ten commands of R91. -/
inductive Instr where
  /-- CHACHA_QR, R119. -/
  | chachaQr
  /-- CHACHA_INIT, R120. -/
  | chachaInit
  /-- CHACHA_BLOCK, R121. -/
  | chachaBlock
  /-- CHACHA_XOR, R122. -/
  | chachaXor
  /-- MAGMA_T, R154. -/
  | magmaT
  /-- MAGMA_G, R155. -/
  | magmaG
  /-- MAGMA_ENC_BLOCK, R156. -/
  | magmaEncBlock
  /-- MAGMA_DEC_BLOCK, R157. -/
  | magmaDecBlock
  /-- MAGMA_ENC, R158. -/
  | magmaEnc
  /-- MAGMA_DEC, R159. -/
  | magmaDec
deriving DecidableEq, Repr

end Sys2Proof
end

