-- ==== Sys2Proof/Decode.lean ====
section
/-! DEFINITION. Decoding of command words (30_encoding.md R90 to R96), total over all 2^32 words and over any
bytes, rejecting by name; and, after it, the encoder. -/

namespace Sys2Proof

/-- Why a command word, or a byte sequence, is no command. The engine reports both word reasons as
IllegalCommand (R93, R94); `truncated` is for byte sequences shorter than one word. -/
inductive Illegal where
  /-- RSV, bits [31:8], is not zero (R93). -/
  | reservedBits
  /-- RSV is zero and OP is 0x00 or one of 0x0B to 0xFF (R94). -/
  | unknownOpcode
  /-- Fewer than the four bytes of one command word (R96: every command has length one word). -/
  | truncated
deriving DecidableEq, Repr

/-- The OP field, bits [7:0] (R90). -/
def opField (w : Word) : BitVec 8 := w.extractLsb' 0 8

/-- The RSV field, bits [31:8] (R90). -/
def rsvField (w : Word) : BitVec 24 := w.extractLsb' 8 24

/-- The opcode map of R91. -/
def decodeOp (op : BitVec 8) : Option Instr :=
  match op.toNat with
  | 0x01 => some .chachaQr
  | 0x02 => some .chachaInit
  | 0x03 => some .chachaBlock
  | 0x04 => some .chachaXor
  | 0x05 => some .magmaT
  | 0x06 => some .magmaG
  | 0x07 => some .magmaEncBlock
  | 0x08 => some .magmaDecBlock
  | 0x09 => some .magmaEnc
  | 0x0A => some .magmaDec
  | _ => none

/-- `decode` of R96: RSV is judged first, then OP. -/
def decode (w : Word) : Except Illegal Instr :=
  if rsvField w ≠ 0 then .error .reservedBits
  else
    match decodeOp (opField w) with
    | some i => .ok i
    | none => .error .unknownOpcode

/-- A word from its four bytes, the first the least significant (20_memory.md R64). -/
def wordOfBytes (b0 b1 b2 b3 : Byte) : Word := b3 ++ b2 ++ b1 ++ b0

/-- Decode the first command of a byte sequence, in the byte order of the CMD register (R64), and give the
rest of the sequence. -/
def decodeBytes : List Byte → Except Illegal (Instr × List Byte)
  | b0 :: b1 :: b2 :: b3 :: rest =>
    match decode (wordOfBytes b0 b1 b2 b3) with
    | .ok i => .ok (i, rest)
    | .error e => .error e
  | _ => .error .truncated

/-- The opcode number of a command (R91). -/
def Instr.opcode : Instr → BitVec 8
  | .chachaQr => 0x01
  | .chachaInit => 0x02
  | .chachaBlock => 0x03
  | .chachaXor => 0x04
  | .magmaT => 0x05
  | .magmaG => 0x06
  | .magmaEncBlock => 0x07
  | .magmaDecBlock => 0x08
  | .magmaEnc => 0x09
  | .magmaDec => 0x0A

/-- The command word: RSV = 0 above OP (R90, R93). -/
def encode (i : Instr) : Word := (0 : BitVec 24) ++ i.opcode

/-- The command word's four bytes, the least significant first (R64). -/
def encodeBytes (i : Instr) : List Byte := [i.opcode, 0, 0, 0]

/-- The mnemonic of R91. -/
def Instr.mnemonic : Instr → String
  | .chachaQr => "CHACHA_QR"
  | .chachaInit => "CHACHA_INIT"
  | .chachaBlock => "CHACHA_BLOCK"
  | .chachaXor => "CHACHA_XOR"
  | .magmaT => "MAGMA_T"
  | .magmaG => "MAGMA_G"
  | .magmaEncBlock => "MAGMA_ENC_BLOCK"
  | .magmaDecBlock => "MAGMA_DEC_BLOCK"
  | .magmaEnc => "MAGMA_ENC"
  | .magmaDec => "MAGMA_DEC"

/-- The ten commands in the order of R91. -/
def Instr.all : List Instr :=
  [.chachaQr, .chachaInit, .chachaBlock, .chachaXor, .magmaT, .magmaG, .magmaEncBlock, .magmaDecBlock,
    .magmaEnc, .magmaDec]

/-- The command a mnemonic names, if R91 lists it (R98). -/
def instrOfMnemonic (m : String) : Option Instr := Instr.all.find? (fun i => i.mnemonic == m)

/-- What the decoder reads from a table word: `nbits` low bits of `w`, every higher bit of the command word 0.
A number that needs more than the 32 bits of a command word is none. -/
def decodeTableWord (nbits w : Nat) : Option Instr :=
  if w % 2 ^ nbits < 2 ^ 32 then
    match decode (BitVec.ofNat 32 (w % 2 ^ nbits)) with
    | .ok i => some i
    | .error _ => none
  else none

end Sys2Proof
end

