-- ==== Sys2Proof/Config.lean ====
section
/-! DEFINITION. What an implementation fixes (00_scope.md R6) and the free values of the model. None of the
constants below has a body: nothing in Lean can evaluate one, so a claim holds whatever it is. -/

namespace Sys2Proof.Config

/-- The IN buffer's size in units of 64 bytes, less one: any of the 1023 sizes that R6 allows.
Log 1 (DESIGN CHOICE of the form; the parameter is the spec's). -/
opaque bufUnits : Fin 1023

/-- `BUF_BYTES` (R6): a multiple of 64 with 64 ≤ BUF_BYTES ≤ 65472. -/
def bufBytes : Nat := 64 * (bufUnits.val + 1)

/-- The window's place on the bus in units of 0x40000 bytes. Log 2. -/
opaque engineBaseUnits : Nat

/-- `ENGINE_BASE` (R6): the bus address of window offset 0, aligned to 0x40000. -/
def engineBase : Nat := 0x40000 * engineBaseUnits

/-- The n-th free byte: what the n-th read of an unset buffer byte answers (20_memory.md R66).
FREE VALUE, log 4. -/
opaque freeByte : Nat → Byte

end Sys2Proof.Config
end

