-- ==== Sys2Proof/Machine/Memory.lean ====
section
/-! DEFINITION. Sorted lists of (number, value) pairs, and the buffers' bytes held in one (20_memory.md R61 to
R66). The number of a cell is a window offset. -/

namespace Sys2Proof.Machine

/-- The value listed at a number, if any. -/
def cellGet {α : Type} : List (Nat × α) → Nat → Option α
  | [], _ => none
  | (k, v) :: m, a => if k = a then some v else cellGet m a

/-- List a value at a number, replacing what was listed there and keeping the numbers rising. -/
def cellPut {α : Type} : List (Nat × α) → Nat → α → List (Nat × α)
  | [], a, b => [(a, b)]
  | (k, v) :: m, a, b =>
    if a < k then (a, b) :: (k, v) :: m
    else if k = a then (a, b) :: m
    else (k, v) :: cellPut m a b

/-- Take a number out of the list. -/
def cellDrop {α : Type} (m : List (Nat × α)) (a : Nat) : List (Nat × α) := m.filter (fun c => c.1 != a)

/-- Every number of the list is above `lo`, and they rise strictly. -/
def risingAbove {α : Type} : Option Nat → List (Nat × α) → Bool
  | _, [] => true
  | none, (k, _) :: m => risingAbove (some k) m
  | some lo, (k, _) :: m => decide (lo < k) && risingAbove (some k) m

/-- The buffers' bytes. -/
abbrev Memory := List Host.Cell

/-- What an unlisted buffer byte holds: no fixed value (R66). Every read of one is a fresh draw (log 4). -/
def Memory.unlisted : Option Byte := none

/-- The byte set at a window offset since reset; `Memory.unlisted` where none was. -/
def peek (m : Memory) (a : Nat) : Option Byte :=
  match cellGet m a with
  | some b => some b
  | none => Memory.unlisted

/-- Set the byte at a window offset. -/
def poke (m : Memory) (a : Nat) (b : Byte) : Memory := cellPut m a b

/-- Set consecutive bytes from a window offset up. -/
def pokes : Memory → Nat → List Byte → Memory
  | m, _, [] => m
  | m, a, b :: bs => pokes (poke m a b) (a + 1) bs

/-- One byte read: the byte set there, or the draw with the given number (R66). -/
def readByte (m : Memory) (draw a : Nat) : Byte :=
  match peek m a with
  | some b => b
  | none => Config.freeByte draw

/-- `n` bytes read from offset `a` up; the k-th uses draw number `draw + k` if it is unset. -/
def readBytes (m : Memory) (draw a n : Nat) : List Byte :=
  (List.range n).map (fun k => readByte m (draw + k) (a + k))

/-- Offset of IN[0] (R61). -/
def inBase : Nat := 0x10000

/-- Offset of OUT[0] (R61). -/
def outBase : Nat := 0x20000

/-- The offset lies in the IN buffer (R61). -/
def inIn (a : Nat) : Bool := decide (inBase ≤ a) && decide (a < inBase + Config.bufBytes)

/-- The offset lies in the OUT buffer, which is 8 bytes larger (R61, R63). -/
def inOut (a : Nat) : Bool := decide (outBase ≤ a) && decide (a < outBase + Config.bufBytes + 8)

/-- The canonical form: offsets strictly rising. An unlisted byte has no fixed value, so no listed byte can
equal it. -/
def Memory.wf (m : Memory) : Bool := risingAbove none m

/-- Every listed byte is a byte of IN or OUT. -/
def Memory.inBuffers (m : Memory) : Bool := m.all (fun c => inIn c.1 || inOut c.1)

end Sys2Proof.Machine
end

