-- ==== Sys2Proof/Machine/Script.lean ====
section
/-! DEFINITION. The data types of the host's side: bus accesses (20_memory.md R71) and host-script statements
(30_encoding.md R97 to R99). Plain data; what they do stands in Bus.lean and HostScript.lean. -/

namespace Sys2Proof.Machine

/-- The three access widths (R67). -/
inductive Width where
  | w8
  | w16
  | w32
deriving DecidableEq, Repr

/-- What an access does: read, or write a value (R71). A write's value is truncated to the width (R97). -/
inductive AccessOp where
  | read
  | write (v : Word)
deriving DecidableEq, Repr

/-- One bus access: a bus address, a width and a direction (R71, R100). -/
structure Access where
  addr : Nat
  width : Width
  op : AccessOp
deriving DecidableEq, Repr

/-- The engine's answer to one access it decodes (R71). -/
inductive Reply where
  /-- The value read, zero-extended to 32 bits. -/
  | data (v : Word)
  /-- A write that took effect. -/
  | written
  /-- The error response (60_exceptions.md R210). -/
  | busError
deriving DecidableEq, Repr

/-- Who made an access. The engine cannot tell (20_memory.md R80); the record of accesses can. -/
inductive Master where
  | script
  | other
deriving DecidableEq, Repr

/-- One bus access and its answer. Those of the script are the script's encoding (R100). -/
structure BusRecord where
  master : Master
  access : Access
  reply : Reply
deriving DecidableEq, Repr

/-- A host variable `%r`, by number; `%s` of the pseudo-instruction `wait` is number 0 (log 6). -/
abbrev Var := Nat

/-- The variable `%s` (R99). -/
def varS : Var := 0

/-- A label: one the script's writer chose, or a fresh one made by expanding `wait` (R99). -/
inductive Label where
  | user (n : Nat)
  | fresh (n : Nat)
deriving DecidableEq, Repr

/-- VAL of R97: a 32-bit literal, or a variable's current value. -/
inductive Val where
  | lit (v : Word)
  | var (r : Var)
deriving DecidableEq, Repr

/-- OFF of R97: `LIT`, or `LIT+%r`, which means `LIT +32 %r` when the statement runs. -/
inductive Off where
  | lit (o : Word)
  | plus (o : Word) (r : Var)
deriving DecidableEq, Repr

/-- A host-script statement (R97). `failKey` is what a key load expands to when its key string does not
validate: the script stops with InvalidKeyFormat and makes no write (R99). -/
inductive Stmt where
  | wr (w : Width) (off : Off) (v : Val)
  | rd (w : Width) (off : Off) (r : Var)
  | set (r : Var) (v : Val)
  | add (r : Var) (v : Val)
  | bnz (r : Var) (mask : Val) (l : Label)
  | bz (r : Var) (mask : Val) (l : Label)
  | bne (r : Var) (v : Val) (l : Label)
  | label (l : Label)
  | halt
  | failKey
deriving DecidableEq, Repr

/-- A line of a script as its writer puts it: a statement, `cmd M` (R98) or a pseudo-instruction (R99). A key
string and a hex string are lists of characters. -/
inductive Line where
  | stmt (s : Stmt)
  | cmd (mnemonic : String)
  | chachaEnc
  | chachaDec
  | magmaEnc
  | magmaDec
  | wait
  | clrirq
  | wrbuf (off : Off) (hex : List Char)
  | rdbuf (off : Off) (n : Nat) (b : Var)
  | loadkeyChacha (s : List Char)
  | loadkeyMagma (s : List Char)
deriving DecidableEq, Repr

/-- How a script ended (R97, R99). -/
inductive HostStop where
  /-- `halt` (R97). -/
  | halted
  /-- The script made an access that got a BusError (R97). -/
  | busError
  /-- The host's KeyCodec rejected a key string (42_host_interface.md R187). -/
  | invalidKeyFormat
deriving DecidableEq, Repr

/-- The script host (R97): its script, the index of its next statement, its variables (only those that are not
0, numbers strictly rising), how it stopped, and the record of all bus accesses that the engine answered, newest
first (R100, 20_memory.md R75; log 11). -/
structure HostState where
  script : List Stmt
  pos : Nat
  vars : List (Nat × Word)
  stop : Option HostStop
  trace : List BusRecord
deriving DecidableEq, Repr

end Sys2Proof.Machine
end

