-- ==== Sys2Proof/Machine/State.lean ====
section
/-! DEFINITION. The machine's state as plain data: the engine's registers (10_state.md R24), its two buffers
(20_memory.md R63), and the model's own fields: the draw counter, the turns and the script host. ID and PARAM
are hard-wired (R25, R26) and stand in the register read of Registers.lean; `irq` is a function of the state
(R20(c)) and stands in Flags.lean. -/

namespace Sys2Proof.Machine

/-- The engine's error codes (60_exceptions.md R200). The reserved codes 5 to 15 are never produced and have
no constructor. -/
inductive ErrCode where
  /-- 0: no error. -/
  | none
  /-- 1: the host KeyCodec's, never the engine's. -/
  | invalidKeyFormat
  /-- 2: MAGMA_DEC with LEN not a multiple of 8. -/
  | invalidCiphertextLength
  /-- 3: LEN above BUF_BYTES. -/
  | lengthOutOfRange
  /-- 4: a command word that R93 does not allow. -/
  | illegalCommand
deriving DecidableEq, Repr

/-- The STATUS register's fields (10_state.md R28). Its reserved bits read 0 and are not stored (log 17). -/
structure Status where
  busy : Bool
  done : Bool
  err : Bool
  errcode : ErrCode
deriving DecidableEq, Repr

/-- Which agent moves, and what an agent outside the script does (20_memory.md R75, R80; 70_reset_and_hazards.md
R230). Log 3. -/
inductive Turn where
  /-- The engine: a completion if BUSY = 1, nothing if BUSY = 0 (R21). -/
  | engine
  /-- The script host: its next statement (30_encoding.md R97). -/
  | script
  /-- A bus access by any master (R80). -/
  | bus (a : Access)
  /-- The reset input (R230). -/
  | reset
deriving DecidableEq, Repr

/-- The whole state. -/
structure State where
  /-- CMD (R27): the last accepted word. -/
  cmd : Word
  /-- STATUS (R28). -/
  status : Status
  /-- IRQ_EN.DONE_IE (R29). -/
  doneIe : Bool
  /-- IRQ_STATUS.DONE_IP (R30). -/
  doneIp : Bool
  /-- LEN (R31). -/
  len : Word
  /-- OUT_LEN (R32). -/
  outLen : Word
  /-- CTR (R33). -/
  ctr : Word
  /-- KEY0 to KEY7 (R34). -/
  key : Vector Word 8
  /-- NONCE0 to NONCE2 (R35). -/
  nonce : Vector Word 3
  /-- W0 to W15 (R36). -/
  w : Vector Word 16
  /-- SCR0 to SCR3 (R37). -/
  scr : Vector Word 4
  /-- BLK0, BLK1 (R38). -/
  blk : Vector Word 2
  /-- The buffer bytes set since reset, by window offset, offsets strictly rising (20_memory.md R61, R63). -/
  mem : List Host.Cell
  /-- The model's own: the index of the next free byte (log 4). -/
  draws : Nat
  /-- The model's own: who moves next (log 3). -/
  turns : List Turn
  /-- The script host (30_encoding.md R97). -/
  host : HostState
deriving DecidableEq, Repr

/-- Why the machine stops with a fault. No command raises one. -/
inductive Fault where
  /-- A taken branch of the host's script names a label the script does not define (log 8). Raised by the
  script host's branches. Safe: R97 gives such a script no meaning. -/
  | undefinedLabel (l : Label)
deriving DecidableEq, Repr

/-- Why the machine refuses a step. -/
inductive Refusal where
  /-- A command whose arm of `exec` has no meaning yet. Raised by `exec` alone. Safe. -/
  | notModelled (mnemonic : String)
  /-- A bus access outside the window, which the engine does not decode and the platform decides
  (20_memory.md R60). Raised by bus turns and by the script's accesses. Safe (log 9). -/
  | outsideWindow (addr : Nat)
deriving DecidableEq, Repr

/-- STATUS after reset (70_reset_and_hazards.md R231): idle, no outcome reported. -/
def Status.reset : Status := ⟨false, false, false, .none⟩

/-- The script host before anything is loaded into it (log 6). -/
def HostState.empty : HostState := ⟨[], 0, [], none, []⟩

/-- The state right after reset (10_state.md R41, 70_reset_and_hazards.md R231): every register 0, no buffer
byte set; the model's own fields as logs 3, 4 and 6 say. -/
def State.reset : State where
  cmd := 0
  status := Status.reset
  doneIe := false
  doneIp := false
  len := 0
  outLen := 0
  ctr := 0
  key := Vector.replicate 8 0
  nonce := Vector.replicate 3 0
  w := Vector.replicate 16 0
  scr := Vector.replicate 4 0
  blk := Vector.replicate 2 0
  mem := []
  draws := 0
  turns := []
  host := HostState.empty

end Sys2Proof.Machine
end

