-- ==== Sys2Proof/Machine/Operands.lean ====
section
/-! DEFINITION. Operand assembly: the word operators of 00_scope.md R10, the byte packing of R11, the field
updates of the state, and the buffers as byte sequences (20_memory.md R63). -/

namespace Sys2Proof.Machine

/-- `rotl32` of R10. -/
def rotl32 (x : Word) (n : Nat) : Word := (x <<< n) ||| (x >>> (32 - n))

/-- `le32` of R11. -/
def le32 (b0 b1 b2 b3 : Byte) : Word :=
  b0.setWidth 32 ||| (b1.setWidth 32 <<< 8) ||| (b2.setWidth 32 <<< 16) ||| (b3.setWidth 32 <<< 24)

/-- `le32at` of R11. A place beyond the sequence would count as 0; no rule reads one. -/
def le32at (s : List Byte) (o : Nat) : Word :=
  le32 (s.getD o 0) (s.getD (o + 1) 0) (s.getD (o + 2) 0) (s.getD (o + 3) 0)

/-- `bytes_le` of R11. -/
def bytesLe (w : Word) : List Byte :=
  [w.extractLsb' 0 8, w.extractLsb' 8 8, w.extractLsb' 16 8, w.extractLsb' 24 8]

/-- The little-endian assembly of up to four bytes, zero-extended (R12 `MemRead`). -/
def assembleLe : List Byte → Word
  | [] => 0
  | b :: bs => b.setWidth 32 ||| (assembleLe bs <<< 8)

/-! Field updates. -/

def State.setCmd (s : State) (v : Word) : State := { s with cmd := v }
def State.setStatus (s : State) (v : Status) : State := { s with status := v }
def State.setDoneIe (s : State) (v : Bool) : State := { s with doneIe := v }
def State.setDoneIp (s : State) (v : Bool) : State := { s with doneIp := v }
def State.setLen (s : State) (v : Word) : State := { s with len := v }
def State.setOutLen (s : State) (v : Word) : State := { s with outLen := v }
def State.setCtr (s : State) (v : Word) : State := { s with ctr := v }
def State.setKey (s : State) (v : Vector Word 8) : State := { s with key := v }
def State.setNonce (s : State) (v : Vector Word 3) : State := { s with nonce := v }
def State.setW (s : State) (v : Vector Word 16) : State := { s with w := v }
def State.setScr (s : State) (v : Vector Word 4) : State := { s with scr := v }
def State.setBlk (s : State) (v : Vector Word 2) : State := { s with blk := v }
def State.setMem (s : State) (v : List Host.Cell) : State := { s with mem := v }
def State.setDraws (s : State) (v : Nat) : State := { s with draws := v }
def State.setTurns (s : State) (v : List Turn) : State := { s with turns := v }
def State.setHost (s : State) (v : HostState) : State := { s with host := v }

/-! The buffers. -/

/-- IN[0..n-1] as a buffer command reads it (R63, R72); an unset byte is a draw (R66). -/
def State.readIn (s : State) (n : Nat) : List Byte := readBytes s.mem s.draws inBase n

/-- The draws that reading `n` bytes uses up (log 4). -/
def State.skipDraws (s : State) (n : Nat) : State := s.setDraws (s.draws + n)

/-- OUT[0..] <- the bytes (R63, R72). -/
def State.writeOut (s : State) (bs : List Byte) : State := s.setMem (pokes s.mem outBase bs)

end Sys2Proof.Machine
end

