-- ==== Sys2Proof/Machine/Flags.lean ====
section
/-! DEFINITION. The status flags (10_state.md R23: there are no arithmetic flags): STATUS (R28), the error
codes (60_exceptions.md R200), the interrupt registers (R29, R30) and the interrupt output (R207). -/

namespace Sys2Proof.Machine

/-- The code of an error (R200). -/
def ErrCode.code : ErrCode → BitVec 4
  | .none => 0
  | .invalidKeyFormat => 1
  | .invalidCiphertextLength => 2
  | .lengthOutOfRange => 3
  | .illegalCommand => 4

/-- The error that a code names (R200); none for the reserved codes 5 to 15. -/
def ErrCode.ofCode (c : BitVec 4) : Option ErrCode :=
  [ErrCode.none, .invalidKeyFormat, .invalidCiphertextLength, .lengthOutOfRange, .illegalCommand].find?
    (fun e => e.code == c)

/-- A one-bit flag as a word with the flag in bit 0. -/
def flagWord (b : Bool) : Word := (BitVec.ofBool b).setWidth 32

/-- STATUS as the host reads it (R28): BUSY [0], DONE [1], ERR [2], ERRCODE [11:8], every other bit 0. -/
def Status.word (t : Status) : Word :=
  flagWord t.busy ||| (flagWord t.done <<< 1) ||| (flagWord t.err <<< 2) ||| (t.errcode.code.setWidth 32 <<< 8)

/-- STATUS after acceptance (R201). -/
def Status.accepted : Status := ⟨true, false, false, .none⟩

/-- STATUS after a successful completion (R206). -/
def Status.ok : Status := ⟨false, true, false, .none⟩

/-- STATUS after a completion with an error (R205). -/
def Status.failed (e : ErrCode) : Status := ⟨false, true, true, e⟩

/-- The interrupt output (R207): `IRQ_EN.DONE_IE & IRQ_STATUS.DONE_IP`. -/
def State.irq (s : State) : Bool := s.doneIe && s.doneIp

/-- The STATUS values R28 allows: BUSY and DONE never together, ERR only with DONE and a code, no code
without ERR; and never the host's code (R200). -/
def Status.legal (t : Status) : Bool :=
  !(t.busy && t.done) && (!t.err || (t.done && t.errcode != .none)) && (t.err || t.errcode == .none) &&
    t.errcode != .invalidKeyFormat

end Sys2Proof.Machine
end

