-- ==== Sys2Proof/Machine/Registers.lean ====
section
/-! DEFINITION. The register map (10_state.md R24): names, offsets, access rights, and the one operation that
reads a register and the one that a host write performs. -/

namespace Sys2Proof.Machine

/-- The registers of R24. -/
inductive Reg where
  | id
  | param
  | cmd
  | status
  | irqEn
  | irqStatus
  | len
  | outLen
  | ctr
  | key (i : Fin 8)
  | nonce (i : Fin 3)
  | w (i : Fin 16)
  | scr (i : Fin 4)
  | blk (i : Fin 2)
deriving DecidableEq, Repr

/-- The offset column of R24. -/
def Reg.offset : Reg → Nat
  | .id => 0x000
  | .param => 0x004
  | .cmd => 0x008
  | .status => 0x00C
  | .irqEn => 0x010
  | .irqStatus => 0x014
  | .len => 0x018
  | .outLen => 0x01C
  | .ctr => 0x020
  | .key i => 0x040 + 4 * i.val
  | .nonce i => 0x060 + 4 * i.val
  | .w i => 0x080 + 4 * i.val
  | .scr i => 0x0C0 + 4 * i.val
  | .blk i => 0x0D0 + 4 * i.val

/-- Every register of R24, in the order of the map. -/
def Reg.all : List Reg :=
  [.id, .param, .cmd, .status, .irqEn, .irqStatus, .len, .outLen, .ctr] ++
    (List.finRange 8).map .key ++ (List.finRange 3).map .nonce ++ (List.finRange 16).map .w ++
    (List.finRange 4).map .scr ++ (List.finRange 2).map .blk

/-- The register at an offset, if the map has one there; the other offsets are reserved (R40). -/
def regAt (off : Nat) : Option Reg := Reg.all.find? (fun r => r.offset == off)

/-- The access column of R24: true for RW, false for RO. -/
def Reg.writable : Reg → Bool
  | .id | .param | .status | .outLen | .w _ => false
  | .cmd | .irqEn | .irqStatus | .len | .ctr | .key _ | .nonce _ | .scr _ | .blk _ => true

/-- The registers a host may read while BUSY = 1 (60_exceptions.md R203). -/
def Reg.busyReadable : Reg → Bool
  | .id | .param | .cmd | .status | .irqEn | .irqStatus => true
  | .len | .outLen | .ctr | .key _ | .nonce _ | .w _ | .scr _ | .blk _ => false

/-- The registers a host may write while BUSY = 1 (R203). -/
def Reg.busyWritable : Reg → Bool
  | .irqEn | .irqStatus => true
  | .id | .param | .cmd | .status | .len | .outLen | .ctr | .key _ | .nonce _ | .w _ | .scr _ | .blk _ => false

/-- The value a read of a register returns (R25 to R38). ID and PARAM are hard-wired. -/
def readReg (r : Reg) (s : State) : Word :=
  match r with
  | .id => 0x31474D43
  | .param => BitVec.ofNat 32 Config.bufBytes
  | .cmd => s.cmd
  | .status => s.status.word
  | .irqEn => flagWord s.doneIe
  | .irqStatus => flagWord s.doneIp
  | .len => s.len
  | .outLen => s.outLen
  | .ctr => s.ctr
  | .key i => s.key[i]
  | .nonce i => s.nonce[i]
  | .w i => s.w[i]
  | .scr i => s.scr[i]
  | .blk i => s.blk[i]

/-- Acceptance (60_exceptions.md R201): CMD takes the whole word, BUSY is set, the last outcome is cleared, and
nothing else changes; DONE_IP stays. This is also what the engine has for a return from an error (R209). -/
def accept (v : Word) (s : State) : State := (s.setCmd v).setStatus Status.accepted

/-- What a host write that is permitted does to a register: the write semantics of R27, R29, R30 and a plain
store elsewhere. A read-only register is left alone; the bus never gets that far (R211). -/
def writeReg (r : Reg) (v : Word) (s : State) : State :=
  match r with
  | .cmd => accept v s
  | .irqEn => s.setDoneIe (v.getLsbD 0)
  | .irqStatus => s.setDoneIp (s.doneIp && !v.getLsbD 0)
  | .len => s.setLen v
  | .ctr => s.setCtr v
  | .key i => s.setKey (s.key.set i v)
  | .nonce i => s.setNonce (s.nonce.set i v)
  | .scr i => s.setScr (s.scr.set i v)
  | .blk i => s.setBlk (s.blk.set i v)
  | .id | .param | .status | .outLen | .w _ => s

end Sys2Proof.Machine
end

