-- ==== Sys2Proof/Machine/Ops.lean ====
section
/-! DEFINITION. The operations that every command shares: the error checks (60_exceptions.md R204), completion
with an error (R205), which is what this engine has in the place of taking an exception (R209), successful
completion (R206), the completion that joins them (R202), and reset (70_reset_and_hazards.md R231). The return
from an error is the next acceptance (R209, R201): `accept` in Registers.lean. -/

namespace Sys2Proof.Machine

/-- The buffer commands, which read IN and write OUT (00_scope.md R15). -/
def isBufferCommand : Instr → Bool
  | .chachaXor | .magmaEnc | .magmaDec => true
  | .chachaQr | .chachaInit | .chachaBlock | .magmaT | .magmaG | .magmaEncBlock | .magmaDecBlock => false

/-- `check` of R204 for a legal command word, in its priority order: the length against the buffer first,
then MAGMA_DEC's whole blocks. It reads LEN alone. -/
def check (i : Instr) (s : State) : ErrCode :=
  if isBufferCommand i && decide (Config.bufBytes < s.len.toNat) then .lengthOutOfRange
  else if i == .magmaDec && s.len.toNat % 8 != 0 then .invalidCiphertextLength
  else .none

/-- Completion with an error (R205). `buffer` says whether the command was a buffer command; an illegal word
is none. -/
def completeError (buffer : Bool) (e : ErrCode) (s : State) : State :=
  (((if buffer then s.setOutLen 0 else s).setStatus (Status.failed e)).setDoneIp true)

/-- Successful completion (R206), after the command's own writes. -/
def completeOk (s : State) : State := (s.setStatus Status.ok).setDoneIp true

/-- The completion of a legal command (R202): its checks, then an error or its own writes. -/
def complete (i : Instr) (perform : State → State) (s : State) : State :=
  match check i s with
  | .none => completeOk (perform s)
  | e => completeError (isBufferCommand i) e s

/-- The completion of a command word that R93 does not allow (R94, R204, R205). -/
def completeIllegal (s : State) : State := completeError false .illegalCommand s

/-- The command word the engine's next step completes (10_state.md R21). -/
def fetchWord (s : State) : Word := s.cmd

/-- The reset event (R230 to R232): every register at its reset value and every buffer byte unset, whatever
the engine was doing. The draw counter goes on, so that bytes drawn before and after a reset are different
draws (log 5); the turns and the host are outside the engine and stay (log 21). -/
def resetEngine (s : State) : State :=
  ((State.reset.setDraws s.draws).setTurns s.turns).setHost s.host

end Sys2Proof.Machine
end

