-- ==== Sys2Proof/Machine/ChaCha.lean ====
section
/-! DEFINITION. The ChaCha20 family (40_chacha20.md): the functions of its section 1 and the meanings of
CHACHA_QR, CHACHA_INIT, CHACHA_BLOCK and CHACHA_XOR. -/

namespace Sys2Proof.Machine

/-- State construction (R112), with the constant words of R111. -/
def chachaInit (k : Vector Word 8) (ctr : Word) (n : Vector Word 3) : Vector Word 16 :=
  #v[0x61707865, 0x3320646e, 0x79622d32, 0x6b206574,
    k[0], k[1], k[2], k[3], k[4], k[5], k[6], k[7],
    ctr, n[0], n[1], n[2]]

/-- Quarter round (R113): four lines, each reading what the one before it wrote. -/
def qr (a b c d : Word) : Word × Word × Word × Word :=
  let a := a + b; let d := d ^^^ a; let d := rotl32 d 16
  let c := c + d; let b := b ^^^ c; let b := rotl32 b 12
  let a := a + b; let d := d ^^^ a; let d := rotl32 d 8
  let c := c + d; let b := b ^^^ c; let b := rotl32 b 7
  (a, b, c, d)

/-- Four places of the sixteen-word working state. -/
abbrev Group := Fin 16 × Fin 16 × Fin 16 × Fin 16

/-- The column groups, in order (R114). -/
def columnGroups : List Group := [(0, 4, 8, 12), (1, 5, 9, 13), (2, 6, 10, 14), (3, 7, 11, 15)]

/-- The diagonal groups, in order (R114). -/
def diagonalGroups : List Group := [(0, 5, 10, 15), (1, 6, 11, 12), (2, 7, 8, 13), (3, 4, 9, 14)]

/-- Apply the quarter round to one group of the working state (R114). -/
def applyQr (x : Vector Word 16) (g : Group) : Vector Word 16 :=
  let (i, j, k, l) := g
  let (a, b, c, d) := qr x[i] x[j] x[k] x[l]
  (((x.set i a).set j b).set k c).set l d

/-- One iteration: the columns, then the diagonals (R115). -/
def chachaIteration (x : Vector Word 16) : Vector Word 16 :=
  diagonalGroups.foldl applyQr (columnGroups.foldl applyQr x)

/-- `n` iterations. -/
def chachaIterations : Nat → Vector Word 16 → Vector Word 16
  | 0, x => x
  | n + 1, x => chachaIterations n (chachaIteration x)

/-- Block transform (R115): 10 iterations, then the original state added word by word. -/
def chachaBlock (s : Vector Word 16) : Vector Word 16 := Vector.zipWith (· + ·) (chachaIterations 10 s) s

/-- Keystream byte `j` of a block's words (R116), for `j < 64`. -/
def ksByte (ks : Vector Word 16) (j : Nat) : Byte := ((ks.toList.getD (j / 4) 0) >>> (8 * (j % 4))).setWidth 8

/-- The 64 bytes of a keystream block (R116). -/
def ksBytes (ks : Vector Word 16) : List Byte := ks.toList.flatMap bytesLe

/-- The keystream of the first `blocks` blocks: block `i` uses counter word `i`, from 0 (R117). DESIGN CHOICE: from
block 2^32 on, word 12 is the block number mod 2^32; R123 says that the document does not say what happens there and
that the engine cannot reach it (log 26). -/
def keystream (k : Vector Word 8) (n : Vector Word 3) (blocks : Nat) : List Byte :=
  (List.range blocks).flatMap (fun i => ksBytes (chachaBlock (chachaInit k (BitVec.ofNat 32 i) n)))

/-- Stream transform (R117): each data byte with the keystream byte at its place, over `ceil(L/64)` blocks;
the keystream beyond the data is discarded. -/
def chachaXor (k : Vector Word 8) (n : Vector Word 3) (d : List Byte) : List Byte :=
  List.zipWith (· ^^^ ·) d (keystream k n ((d.length + 63) / 64))

/-- CHACHA_QR's writes (R119): all four words are read before any is written. -/
def performChachaQr (s : State) : State :=
  let q := qr s.scr[0] s.scr[1] s.scr[2] s.scr[3]
  s.setScr #v[q.1, q.2.1, q.2.2.1, q.2.2.2]

/-- CHACHA_INIT's writes (R120). -/
def performChachaInit (s : State) : State := s.setW (chachaInit s.key s.ctr s.nonce)

/-- CHACHA_BLOCK's writes (R121). CTR is not incremented (10_state.md R33). -/
def performChachaBlock (s : State) : State := s.setW (chachaBlock (chachaInit s.key s.ctr s.nonce))

/-- CHACHA_XOR's writes (R122), LEN being within the buffer. -/
def performChachaXor (s : State) : State :=
  let n := s.len.toNat
  let d := s.readIn n
  (((s.skipDraws n).writeOut (chachaXor s.key s.nonce d)).setOutLen s.len)

/-- CHACHA_QR (R119). -/
def execChachaQr (s : State) : Host.Outcome State Fault Refusal := .next (complete .chachaQr performChachaQr s)

/-- CHACHA_INIT (R120). -/
def execChachaInit (s : State) : Host.Outcome State Fault Refusal := .next (complete .chachaInit performChachaInit s)

/-- CHACHA_BLOCK (R121). -/
def execChachaBlock (s : State) : Host.Outcome State Fault Refusal :=
  .next (complete .chachaBlock performChachaBlock s)

/-- CHACHA_XOR (R122). -/
def execChachaXor (s : State) : Host.Outcome State Fault Refusal := .next (complete .chachaXor performChachaXor s)

end Sys2Proof.Machine
end

