-- ==== Sys2Proof/Machine/Magma.lean ====
section
/-! DEFINITION. The Magma family (41_magma.md): the functions of its section 1 and the meanings of MAGMA_T,
MAGMA_G, MAGMA_ENC_BLOCK, MAGMA_DEC_BLOCK, MAGMA_ENC and MAGMA_DEC. -/

namespace Sys2Proof.Machine

/-- The S-box (R141), row by row. The entries are RFC 8891's, which the spec supplies from general knowledge
(PRESUMED, log 15). -/
def sbox : Vector (Vector (BitVec 4) 16) 8 :=
  #v[#v[0xC, 0x4, 0x6, 0x2, 0xA, 0x5, 0xB, 0x9, 0xE, 0x8, 0xD, 0x7, 0x0, 0x3, 0xF, 0x1],
    #v[0x6, 0x8, 0x2, 0x3, 0x9, 0xA, 0x5, 0xC, 0x1, 0xE, 0x4, 0x7, 0xB, 0xD, 0x0, 0xF],
    #v[0xB, 0x3, 0x5, 0x8, 0x2, 0xF, 0xA, 0xD, 0xE, 0x1, 0x7, 0x4, 0xC, 0x9, 0x6, 0x0],
    #v[0xC, 0x8, 0x2, 0x1, 0xD, 0x4, 0xF, 0x6, 0x7, 0x0, 0xA, 0x5, 0x3, 0xE, 0x9, 0xB],
    #v[0x7, 0xF, 0x5, 0xA, 0x8, 0x1, 0x6, 0xD, 0x0, 0x9, 0x3, 0xE, 0xB, 0x4, 0x2, 0xC],
    #v[0x5, 0xD, 0xF, 0x6, 0x9, 0x2, 0xC, 0xA, 0xB, 0x7, 0x8, 0x1, 0x4, 0x3, 0xE, 0x0],
    #v[0x8, 0xE, 0x2, 0x5, 0x6, 0x9, 0x1, 0xC, 0xF, 0x4, 0xB, 0x0, 0xD, 0xA, 0x3, 0x7],
    #v[0x1, 0x7, 0xE, 0xD, 0x0, 0x5, 0x8, 0x3, 0x4, 0xF, 0xA, 0x6, 0x9, 0xC, 0xB, 0x2]]

/-- Nibble `i` of a word, the least significant first (R142). -/
def nibble (x : Word) (i : Fin 8) : BitVec 4 := x.extractLsb' (4 * i.val) 4

/-- `S[i][v]` (R141). -/
def substitute (i : Fin 8) (v : BitVec 4) : BitVec 4 := (sbox[i])[v.toFin]

/-- T-transform (R142): nibble `i` through row `i`, put back in its place. -/
def magmaT (x : Word) : Word :=
  (List.finRange 8).foldl (fun acc i => acc ||| ((substitute i (nibble x i)).setWidth 32 <<< (4 * i.val))) 0

/-- G-transform, the round function (R143). -/
def magmaG (h k : Word) : Word := rotl32 (magmaT (h + k)) 11

/-- The subkey indexes k0, k1, ..., k7 in order. -/
def subkeysUp : List (Fin 8) := List.finRange 8

/-- The subkey indexes k7, k6, ..., k0 in order. -/
def subkeysDown : List (Fin 8) := (List.finRange 8).reverse

/-- The encryption schedule (R146): k0 to k7 three times, then k7 to k0. -/
def encIdx : List (Fin 8) := subkeysUp ++ subkeysUp ++ subkeysUp ++ subkeysDown

/-- The decryption schedule (R147): k0 to k7, then k7 to k0 three times. -/
def decIdx : List (Fin 8) := subkeysUp ++ subkeysDown ++ subkeysDown ++ subkeysDown

/-- One Feistel round on (left, right) with subkey `k` (R145). -/
def feistelRound (p : Word × Word) (k : Word) : Word × Word := (p.2, p.1 ^^^ magmaG p.2 k)

/-- The rounds of a schedule, in order (R148). -/
def feistel (k : Vector Word 8) (idx : List (Fin 8)) (p : Word × Word) : Word × Word :=
  idx.foldl (fun q i => feistelRound q k[i]) p

/-- Block function (R148) on the 8 bytes of a block: right goes out before left. -/
def magmaBlock (k : Vector Word 8) (idx : List (Fin 8)) (b : List Byte) : List Byte :=
  let p := feistel k idx (le32at b 0, le32at b 4)
  bytesLe p.2 ++ bytesLe p.1

/-- Encryption of one 8-byte block (R148). -/
def magmaEncBlock (k : Vector Word 8) (b : List Byte) : List Byte := magmaBlock k encIdx b

/-- Decryption of one 8-byte block (R148). -/
def magmaDecBlock (k : Vector Word 8) (b : List Byte) : List Byte := magmaBlock k decIdx b

/-- Transform each 8-byte block of a buffer on its own (R149). A last piece of fewer than 8 bytes gives
nothing; the callers pass whole blocks. -/
def mapBlocks (f : List Byte → List Byte) : List Byte → List Byte
  | b0 :: b1 :: b2 :: b3 :: b4 :: b5 :: b6 :: b7 :: rest =>
    f [b0, b1, b2, b3, b4, b5, b6, b7] ++ mapBlocks f rest
  | _ => []

/-- The pad length for a buffer of length `n` (R150): always 1 to 8. -/
def padLength (n : Nat) : Nat := 8 - n % 8

/-- Padding before encryption (R150). -/
def pad (d : List Byte) : List Byte :=
  d ++ List.replicate (padLength d.length) (BitVec.ofNat 8 (padLength d.length))

/-- Padding removal after decryption (R151): only the final byte is looked at, and an empty buffer stays
empty. -/
def unpad (o : List Byte) : List Byte :=
  match o.getLast? with
  | none => o
  | some p =>
    if 1 ≤ p.toNat ∧ p.toNat ≤ 8 ∧ p.toNat ≤ o.length then o.take (o.length - p.toNat) else o

/-- Buffer encryption (R152). -/
def magmaEncrypt (k : Vector Word 8) (d : List Byte) : List Byte := mapBlocks (magmaEncBlock k) (pad d)

/-- The decrypted bytes of a buffer of whole blocks, before unpadding (R153). -/
def magmaDecryptBlocks (k : Vector Word 8) (c : List Byte) : List Byte := mapBlocks (magmaDecBlock k) c

/-- Buffer decryption (R153): none is the error InvalidCiphertextLength. -/
def magmaDecrypt (k : Vector Word 8) (c : List Byte) : Option (List Byte) :=
  if c.length % 8 ≠ 0 then none else some (unpad (magmaDecryptBlocks k c))

/-- The block commands' writes (R156, R157): the block's bytes are BLK0's then BLK1's, and the output's words
go back in the same order. -/
def performBlock (f : List Byte → List Byte) (s : State) : State :=
  let c := f (bytesLe s.blk[0] ++ bytesLe s.blk[1])
  s.setBlk #v[le32at c 0, le32at c 4]

/-- MAGMA_T's write (R154). -/
def performMagmaT (s : State) : State := s.setScr (s.scr.set 0 (magmaT s.scr[0]))

/-- MAGMA_G's write (R155). -/
def performMagmaG (s : State) : State := s.setScr (s.scr.set 0 (magmaG s.scr[0] s.scr[1]))

/-- MAGMA_ENC_BLOCK's writes (R156). -/
def performMagmaEncBlock (s : State) : State := performBlock (magmaEncBlock s.key) s

/-- MAGMA_DEC_BLOCK's writes (R157). -/
def performMagmaDecBlock (s : State) : State := performBlock (magmaDecBlock s.key) s

/-- MAGMA_ENC's writes (R158), LEN being within the buffer. -/
def performMagmaEnc (s : State) : State :=
  let n := s.len.toNat
  let c := magmaEncrypt s.key (s.readIn n)
  (((s.skipDraws n).writeOut c).setOutLen (BitVec.ofNat 32 c.length))

/-- MAGMA_DEC's writes (R159), LEN being within the buffer and a multiple of 8: all decrypted bytes go to OUT,
and OUT_LEN counts those that stay after unpadding. -/
def performMagmaDec (s : State) : State :=
  let n := s.len.toNat
  let o := magmaDecryptBlocks s.key (s.readIn n)
  (((s.skipDraws n).writeOut o).setOutLen (BitVec.ofNat 32 (unpad o).length))

/-- MAGMA_T (R154). -/
def execMagmaT (s : State) : Host.Outcome State Fault Refusal := .next (complete .magmaT performMagmaT s)

/-- MAGMA_G (R155). -/
def execMagmaG (s : State) : Host.Outcome State Fault Refusal := .next (complete .magmaG performMagmaG s)

/-- MAGMA_ENC_BLOCK (R156). -/
def execMagmaEncBlock (s : State) : Host.Outcome State Fault Refusal :=
  .next (complete .magmaEncBlock performMagmaEncBlock s)

/-- MAGMA_DEC_BLOCK (R157). -/
def execMagmaDecBlock (s : State) : Host.Outcome State Fault Refusal :=
  .next (complete .magmaDecBlock performMagmaDecBlock s)

/-- MAGMA_ENC (R158). -/
def execMagmaEnc (s : State) : Host.Outcome State Fault Refusal := .next (complete .magmaEnc performMagmaEnc s)

/-- MAGMA_DEC (R159). -/
def execMagmaDec (s : State) : Host.Outcome State Fault Refusal := .next (complete .magmaDec performMagmaDec s)

end Sys2Proof.Machine
end

