-- ==== Sys2Proof/Machine/Dispatch.lean ====
section
/-! DEFINITION. The meaning of each command (60_exceptions.md R202: the completion of the command in CMD). -/

namespace Sys2Proof.Machine

def exec (i : Instr) (s : State) : Host.Outcome State Fault Refusal :=
  match i with
  | .chachaQr => Sys2Proof.Machine.execChachaQr s
  | .chachaInit => Sys2Proof.Machine.execChachaInit s
  | .chachaBlock => Sys2Proof.Machine.execChachaBlock s
  | .chachaXor => Sys2Proof.Machine.execChachaXor s
  | .magmaT => Sys2Proof.Machine.execMagmaT s
  | .magmaG => Sys2Proof.Machine.execMagmaG s
  | .magmaEncBlock => Sys2Proof.Machine.execMagmaEncBlock s
  | .magmaDecBlock => Sys2Proof.Machine.execMagmaDecBlock s
  | .magmaEnc => Sys2Proof.Machine.execMagmaEnc s
  | .magmaDec => Sys2Proof.Machine.execMagmaDec s

end Sys2Proof.Machine
end

