-- ==== Sys2Proof/Machine/Bus.lean ====
section
/-! DEFINITION. The bus: the window's map (20_memory.md R60, R61), the checks of a host access (R67, R68, R71;
60_exceptions.md R203, R210, R211) and what an access that passes them does (R12, R64, R65, R70). -/

namespace Sys2Proof.Machine

/-- The regions of R61. The gaps in the register map (10_state.md R40) are judged by `regAt`. -/
inductive Region where
  | registers
  | inBuffer
  | outBuffer
  | reserved
deriving DecidableEq, Repr

/-- The region of a window offset (R61). -/
def regionOf (off : Nat) : Region :=
  if off < 0x100 then .registers
  else if inIn off then .inBuffer
  else if inOut off then .outBuffer
  else .reserved

/-- The bytes of an access (R64). -/
def Width.bytes : Width → Nat
  | .w8 => 1
  | .w16 => 2
  | .w32 => 4

/-- An access that busy protection forbids (R203): all but a few reads and two writes of registers. -/
def busyForbidden (off : Nat) (op : AccessOp) (s : State) : Bool :=
  s.status.busy &&
    !(match regAt off, op with
      | some r, .read => r.busyReadable
      | some r, .write _ => r.busyWritable
      | none, _ => false)

/-- A host may write at the offset (10_state.md R24, R61). -/
def writableAt (off : Nat) : Bool :=
  match regionOf off with
  | .registers => (regAt off).any Reg.writable
  | .inBuffer => true
  | .outBuffer | .reserved => false

/-- The access is a write. -/
def AccessOp.isWrite : AccessOp → Bool
  | .read => false
  | .write _ => true

/-- The checks of R71, each a cause of R211; which of them fails is not visible (R211). -/
def accessFails (off : Nat) (w : Width) (op : AccessOp) (s : State) : Bool :=
  busyForbidden off op s ||
  regionOf off == .reserved ||
  off % w.bytes != 0 ||
  (regionOf off == .registers && (w != .w32 || (regAt off).isNone)) ||
  (op.isWrite && !writableAt off)

/-- `MemRead` (R12): a register's value, or the buffer bytes little-endian. Reading bytes uses up as many
draws, whether or not a byte is unset (log 4). -/
def memRead (off : Nat) (w : Width) (s : State) : Word × State :=
  match regAt off with
  | some r => (readReg r s, s)
  | none => (assembleLe (readBytes s.mem s.draws off w.bytes), s.skipDraws w.bytes)

/-- `MemWrite` (R12) with the register's write semantics (R71): the low bytes of the value, little-endian. -/
def memWrite (off : Nat) (w : Width) (v : Word) (s : State) : State :=
  match regAt off with
  | some r => writeReg r v s
  | none => s.setMem (pokes s.mem off ((bytesLe v).take w.bytes))

/-- One host access at a window offset (R71). A BusError changes nothing (R210). -/
def engineAccess (off : Nat) (w : Width) (op : AccessOp) (s : State) : Reply × State :=
  if accessFails off w op s then (.busError, s)
  else
    match op with
    | .read => (.data (memRead off w s).1, (memRead off w s).2)
    | .write v => (.written, memWrite off w v s)

/-- The size of the window (R60). -/
def windowBytes : Nat := 0x30000

/-- The engine offset of a bus address in the window (R60); none outside it. -/
def windowOffset (a : Nat) : Option Nat :=
  if Config.engineBase ≤ a ∧ a < Config.engineBase + windowBytes then some (a - Config.engineBase) else none

/-- One bus access (R71): none where the engine does not decode the address. -/
def busAccess (a : Access) (s : State) : Option (Reply × State) :=
  (windowOffset a.addr).map (fun off => engineAccess off a.width a.op s)

/-- Put an answered access at the head of the record (30_encoding.md R100; log 11). -/
def recordAccess (m : Master) (a : Access) (r : Reply) (s : State) : State :=
  s.setHost { s.host with trace := ⟨m, a, r⟩ :: s.host.trace }

/-- A bus turn: one access by a master other than the script (R80). What the platform has at an address outside
the window is not the spec's (R60): refused (log 9). -/
def busTurn (a : Access) (s : State) : Host.Outcome State Fault Refusal :=
  match busAccess a s with
  | none => .refused (.outsideWindow a.addr)
  | some (r, t) => .next (recordAccess .other a r t)

/-- An entry of a script's encoding (R100): direction (true for a write), offset, bytes, and the value written
or read. DESIGN CHOICE: a read that got a BusError has no value, a write that got one has the value it carried (log
11). -/
def BusRecord.tuple (b : BusRecord) : Bool × Nat × Nat × Option Word :=
  (b.access.op.isWrite, b.access.addr - Config.engineBase, b.access.width.bytes,
    match b.access.op, b.reply with
    | .write v, _ => some v
    | .read, .data v => some v
    | .read, _ => none)

/-- A script's encoding so far (R100), oldest access first. -/
def scriptEncoding (s : State) : List (Bool × Nat × Nat × Option Word) :=
  ((s.host.trace.filter (fun b => b.master == .script)).map BusRecord.tuple).reverse

end Sys2Proof.Machine
end

