-- ==== Sys2Proof/Machine/KeyCodec.lean ====
section
/-! DEFINITION. The host's KeyCodec (42_host_interface.md R180 to R185). A string is a list of characters. -/

namespace Sys2Proof.Machine

/-- `hexval` (R181): none for a character that is no ASCII hex digit. -/
def hexVal (c : Char) : Option Nat :=
  let n := c.toNat
  if 48 ≤ n ∧ n ≤ 57 then some (n - 48)
  else if 97 ≤ n ∧ n ≤ 102 then some (n - 87)
  else if 65 ≤ n ∧ n ≤ 70 then some (n - 55)
  else none

/-- `validate(s, n)` (R180). -/
def validateKey (s : List Char) (n : Nat) : Bool := s.length == n && s.all (fun c => (hexVal c).isSome)

/-- `parse(s)` (R181): each pair of digits one byte, the first digit the high nibble (PRESUMED, log 16). It is
used on validated strings; a character that is no digit would count as 0. -/
def parseHex : List Char → List Byte
  | c :: d :: rest => BitVec.ofNat 8 (16 * (hexVal c).getD 0 + (hexVal d).getD 0) :: parseHex rest
  | _ => []

/-- The hex digits of a ChaCha20 key string (R182). -/
def chachaKeyDigits : Nat := 88

/-- The hex digits of a Magma key string (R184). -/
def magmaKeyDigits : Nat := 64

/-- The 32 key bytes of a ChaCha20 key string (R182). -/
def chachaKeyOf (s : List Char) : List Byte := (parseHex s).take 32

/-- The 12 nonce bytes of a ChaCha20 key string (R182). -/
def chachaNonceOf (s : List Char) : List Byte := ((parseHex s).drop 32).take 12

/-- The 32 key bytes of a Magma key string (R184). -/
def magmaKeyOf (s : List Char) : List Byte := parseHex s

/-- `n` 32-bit writes of the words of a byte sequence, from an offset up (R183, R185). -/
def wordWrites (base n : Nat) (bytes : List Byte) : List Stmt :=
  (List.range n).map (fun i => .wr .w32 (.lit (BitVec.ofNat 32 (base + 4 * i))) (.lit (le32at bytes (4 * i))))

/-- The expansion of `loadkey_chacha` (R183, 30_encoding.md R99): eleven writes, or a stop with
InvalidKeyFormat and no write (R187). -/
def loadkeyChacha (s : List Char) : List Stmt :=
  if validateKey s chachaKeyDigits then
    wordWrites 0x040 8 (chachaKeyOf s) ++ wordWrites 0x060 3 (chachaNonceOf s)
  else [.failKey]

/-- The expansion of `loadkey_magma` (R185, R99): eight writes, or a stop with InvalidKeyFormat (R187). -/
def loadkeyMagma (s : List Char) : List Stmt :=
  if validateKey s magmaKeyDigits then wordWrites 0x040 8 (magmaKeyOf s) else [.failKey]

end Sys2Proof.Machine
end

