-- ==== Sys2Proof/Machine/HostScript.lean ====
section
/-! DEFINITION. The script host: what a statement does (30_encoding.md R97), `cmd M` (R98), the
pseudo-instructions' expansions (R99), and the facade's byte operations as scripts (42_host_interface.md
R190). -/

namespace Sys2Proof.Machine

/-- A variable's value; every variable is 0 when a script starts (R97). -/
def getVar (h : HostState) (r : Var) : Word :=
  match cellGet h.vars r with
  | some v => v
  | none => 0

/-- Set a variable. A value of 0 is not listed. -/
def putVar (h : HostState) (r : Var) (v : Word) : HostState :=
  { h with vars := if v = 0 then cellDrop h.vars r else cellPut h.vars r v }

/-- The value of VAL (R97). -/
def evalVal (h : HostState) : Val → Word
  | .lit v => v
  | .var r => getVar h r

/-- The window offset of OFF (R97): `LIT +32 %r` at the moment the statement runs. -/
def evalOff (h : HostState) : Off → Word
  | .lit o => o
  | .plus o r => o + getVar h r

/-- Go on with the next statement. -/
def advance (h : HostState) : HostState := { h with pos := h.pos + 1 }

/-- Stop the script. -/
def stopWith (why : HostStop) (h : HostState) : HostState := { h with stop := some why }

/-- The index of the statement that defines a label. -/
def labelIndex (p : List Stmt) (l : Label) : Option Nat := p.findIdx? (fun t => t == .label l)

/-- A branch statement (R97). A taken branch to a label the script does not define has no meaning: a fault
(log 8). -/
def branch (taken : Bool) (l : Label) (s : State) : Host.Outcome State Fault Refusal :=
  if taken then
    match labelIndex s.host.script l with
    | some i => .next (s.setHost { s.host with pos := i })
    | none => .fault (.undefinedLabel l)
  else .next (s.setHost (advance s.host))

/-- The bus access of a script statement (R97): offset OFF is bus address `ENGINE_BASE + OFF`. -/
def scriptAccess (w : Width) (off : Word) (op : AccessOp) : Access :=
  ⟨Config.engineBase + off.toNat, w, op⟩

/-- What the host does with the answer to its access: a BusError stops the script (R97), a value goes to the
variable, and the script goes on. -/
def takeReply (dest : Option Var) (r : Reply) (h : HostState) : HostState :=
  match r, dest with
  | .busError, _ => stopWith .busError h
  | .data v, some x => advance (putVar h x v)
  | .data _, none => advance h
  | .written, _ => advance h

/-- A script statement that makes an access: one step of the host (20_memory.md R69). -/
def accessStmt (a : Access) (dest : Option Var) (s : State) : Host.Outcome State Fault Refusal :=
  match busAccess a s with
  | none => .refused (.outsideWindow a.addr)
  | some (r, t) =>
    let t := recordAccess .script a r t
    .next (t.setHost (takeReply dest r t.host))

/-- A written value truncated to the access's width (R97). -/
def truncateTo (w : Width) (v : Word) : Word :=
  match w with
  | .w8 => (v.setWidth 8).setWidth 32
  | .w16 => (v.setWidth 16).setWidth 32
  | .w32 => v

/-- One statement of the script (R97). -/
def runStmt (t : Stmt) (s : State) : Host.Outcome State Fault Refusal :=
  let h := s.host
  match t with
  | .wr w off v => accessStmt (scriptAccess w (evalOff h off) (.write (truncateTo w (evalVal h v)))) none s
  | .rd w off r => accessStmt (scriptAccess w (evalOff h off) .read) (some r) s
  | .set r v => .next (s.setHost (advance (putVar h r (evalVal h v))))
  | .add r v => .next (s.setHost (advance (putVar h r (getVar h r + evalVal h v))))
  | .bnz r m l => branch (getVar h r &&& evalVal h m != 0) l s
  | .bz r m l => branch (getVar h r &&& evalVal h m == 0) l s
  | .bne r v l => branch (getVar h r != evalVal h v) l s
  | .label _ => .next (s.setHost (advance h))
  | .halt => .next (s.setHost (stopWith .halted h))
  | .failKey => .next (s.setHost (stopWith .invalidKeyFormat h))

/-- The statement the script host runs next: none when it has stopped or its script has ended. -/
def nextStmt (h : HostState) : Option Stmt :=
  match h.stop with
  | some _ => none
  | none => h.script[h.pos]?

/-- The script host's turn. With no statement left it makes no further access (60_exceptions.md R218) and the
turn changes nothing (log 13). -/
def scriptTurn (s : State) : Host.Outcome State Fault Refusal :=
  match nextStmt s.host with
  | some t => runStmt t s
  | none => .next s

/-! Expansions (R98, R99). -/

/-- An offset `k` bytes further on. -/
def Off.shift (k : Nat) : Off → Off
  | .lit o => .lit (o + BitVec.ofNat 32 k)
  | .plus o r => .plus (o + BitVec.ofNat 32 k) r

/-- `cmd M` for a command: a write of its word to CMD (R98). -/
def cmdStmt (i : Instr) : Stmt := .wr .w32 (.lit 0x008) (.lit (encode i))

/-- The expansion of `wait` with a label of its own (R99). -/
def waitStmts (l : Label) : List Stmt := [.label l, .rd .w32 (.lit 0x00C) varS, .bnz varS (.lit 0x1) l]

/-- A hex string of `wrbuf` (R99): an even number of hex digits. -/
def hexStringOk (hex : List Char) : Bool := hex.length % 2 == 0 && hex.all (fun c => (hexVal c).isSome)

/-- The statements a script line stands for (R98, R99); none where the line is a syntax error. `fresh` numbers
the label that `wait` makes. -/
def expandLine (fresh : Nat) : Line → Option (List Stmt)
  | .stmt t => some [t]
  | .cmd m => (instrOfMnemonic m).map (fun i => [cmdStmt i])
  | .chachaEnc => some [cmdStmt .chachaXor]
  | .chachaDec => some [cmdStmt .chachaXor]
  | .magmaEnc => some [cmdStmt .magmaEnc]
  | .magmaDec => some [cmdStmt .magmaDec]
  | .wait => some (waitStmts (.fresh fresh))
  | .clrirq => some [.wr .w32 (.lit 0x014) (.lit 0x1)]
  | .wrbuf off hex =>
    if hexStringOk hex then
      some ((parseHex hex).mapIdx (fun k b => .wr .w8 (off.shift k) (.lit (b.setWidth 32))))
    else none
  | .rdbuf off n b => some ((List.range n).map (fun k => .rd .w8 (off.shift k) (b + k)))
  | .loadkeyChacha s => some (loadkeyChacha s)
  | .loadkeyMagma s => some (loadkeyMagma s)

/-- A script's statements; the line's number serves as its fresh label. -/
def expandFrom : Nat → List Line → Option (List Stmt)
  | _, [] => some []
  | n, l :: ls =>
    match expandLine n l, expandFrom (n + 1) ls with
    | some a, some b => some (a ++ b)
    | _, _ => none

/-- The statements of a script (R97 to R99); none where a line is a syntax error. -/
def expandScript (ls : List Line) : Option (List Stmt) := expandFrom 0 ls

/-- Give the host a script to run from its start, every variable 0 (R97). The record of accesses starts
anew. -/
def State.loadScript (s : State) (p : List Stmt) : State := s.setHost ⟨p, 0, [], none, []⟩

/-! The facade's byte operations (42_host_interface.md R190): the sequence the rule lists, with the write of
the data to IN, the check of DONE and ERR and the read-out of OUT as host statements (their form is log 27's). -/

/-- Write a byte sequence to IN. DESIGN CHOICE: R190 names no accesses for it; one 8-bit write per byte, from IN[0] up
(log 27). -/
def dataLines (d : List Byte) : List Line :=
  d.mapIdx (fun k b => .stmt (.wr .w8 (.lit (BitVec.ofNat 32 (inBase + k))) (.lit (b.setWidth 32))))

/-- Write LEN. -/
def lenLine (d : List Byte) : Line := .stmt (.wr .w32 (.lit 0x018) (.lit (BitVec.ofNat 32 d.length)))

/-- The variable that takes OUT_LEN in a read-out (log 27). -/
def varN : Var := 1

/-- The variable that counts the OUT bytes in a read-out; 0 when the script starts (R97). -/
def varI : Var := 2

/-- The variable that takes one OUT byte after another in a read-out (log 27). -/
def varB : Var := 3

/-- The label in front of a byte operation's first `halt`. -/
def labelEnd : Label := .user 0

/-- The label in front of the read of the next OUT byte. -/
def labelNext : Label := .user 1

/-- The end of a byte operation, after `wait` has left the final STATUS in `%s` (R190): with DONE clear or ERR set
no OUT byte is read; else OUT_LEN is read, and OUT byte by byte from 0 up to it. -/
def readOutStmts : List Stmt :=
  [.bz varS (.lit 0x2) labelEnd, .bnz varS (.lit 0x4) labelEnd,
    .rd .w32 (.lit 0x01C) varN, .bne varI (.var varN) labelNext,
    .label labelEnd, .halt,
    .label labelNext, .rd .w8 (.plus (BitVec.ofNat 32 outBase) varI) varB, .add varI (.lit 1),
    .bne varI (.var varN) labelNext, .halt]

/-- A byte operation after its key load (R190). -/
def byteOperation (command : String) (d : List Byte) : List Line :=
  dataLines d ++ [lenLine d, .cmd command, .wait] ++ readOutStmts.map .stmt

/-- ChaCha20 `encryptBytes` and `decryptBytes` (R190). -/
def chachaBytesScript (d : List Byte) (keyString : List Char) : List Line :=
  .loadkeyChacha keyString :: byteOperation "CHACHA_XOR" d

/-- Magma `encryptBytes` (R190). -/
def magmaEncryptScript (d : List Byte) (keyString : List Char) : List Line :=
  .loadkeyMagma keyString :: byteOperation "MAGMA_ENC" d

/-- Magma `decryptBytes` (R190). -/
def magmaDecryptScript (c : List Byte) (keyString : List Char) : List Line :=
  .loadkeyMagma keyString :: byteOperation "MAGMA_DEC" c

/-- The byte that a script's 8-bit read got, if the record is one. -/
def BusRecord.scriptByte (b : BusRecord) : Option Byte :=
  match b.master, b.access.width, b.access.op, b.reply with
  | .script, .w8, .read, .data v => some (v.setWidth 8)
  | _, _, _, _ => none

/-- The bytes that a script's 8-bit reads got, oldest first. A byte operation makes such reads of OUT alone. -/
def bytesReadByScript (h : HostState) : List Byte := (h.trace.filterMap BusRecord.scriptByte).reverse

/-- The result of a byte operation, from what its script has read (R187, R190): the KeyCodec's error; else, from the
final STATUS in `%s` with DONE set, the error in ERRCODE if ERR is set and the OUT bytes read if not. None while
the script runs, where a BusError stopped it, and where the STATUS that ended `wait` has DONE clear (log 27). -/
def facadeResult (s : State) : Option (Except ErrCode (List Byte)) :=
  match s.host.stop with
  | some .invalidKeyFormat => some (.error .invalidKeyFormat)
  | some .halted =>
    let status := getVar s.host varS
    if status.getLsbD 1 then
      if status.getLsbD 2 then (ErrCode.ofCode (status.extractLsb' 8 4)).map .error
      else some (.ok (bytesReadByScript s.host))
    else none
  | some .busError => none
  | none => none

end Sys2Proof.Machine
end

