-- ==== Sys2Proof/Machine/Engine.lean ====
section
/-! DEFINITION. The agents' turns (00_scope.md R16, 20_memory.md R75): the engine's completion (60_exceptions.md
R202), a host's access or statement, and reset. -/

namespace Sys2Proof.Machine

/-- The completion of the command in CMD (R202): decode, then the command's own meaning, or the completion of
an illegal word. -/
def completion (s : State) : Host.Outcome State Fault Refusal :=
  match decode (fetchWord s) with
  | .ok i => exec i s
  | .error _ => .next (completeIllegal s)

/-- The engine's turn (10_state.md R21): a completion if BUSY = 1; with BUSY = 0 it has no step, and the turn
changes nothing (log 14). -/
def engineTurn (s : State) : Host.Outcome State Fault Refusal :=
  if s.status.busy then completion s else .next s

/-- One agent's turn. -/
def runTurn (t : Turn) (s : State) : Host.Outcome State Fault Refusal :=
  match t with
  | .engine => engineTurn s
  | .script => scriptTurn s
  | .bus a => busTurn a s
  | .reset => .next (resetEngine s)

/-- Who moves when no turn is listed: a busy engine (weak fairness, R202), else the script host (log 3). -/
def defaultTurn (s : State) : Turn := if s.status.busy then .engine else .script

/-- The next turn. -/
def nextTurn (s : State) : Turn :=
  match s.turns with
  | [] => defaultTurn s
  | t :: _ => t

/-- The state with the listed turn that is being taken, if any, taken off the list. -/
def popTurn (s : State) : State := s.setTurns s.turns.tail

end Sys2Proof.Machine
end

