-- ==== Sys2Proof/Machine/Step.lean ====
section
/-! DEFINITION. One step of the machine: one atomic step of one agent (20_memory.md R75). -/

namespace Sys2Proof.Machine

/-- The next agent's turn. -/
def step (s : State) : Host.Outcome State Fault Refusal := runTurn (nextTurn s) (popTurn s)

/-- The state in which the engine's next step completes the command word `w`, as if the host had just written
it to CMD (30_encoding.md R90, 60_exceptions.md R201), with the engine's turn next (log 12). -/
def State.withFetchWord (s : State) (nbits w : Nat) : State :=
  (accept (BitVec.ofNat 32 (w % 2 ^ nbits)) s).setTurns (.engine :: s.turns)

end Sys2Proof.Machine
end

