-- ==== Sys2Proof/Safety.lean ====
section
/-! DEFINITION. What claims speak of: the invariant of every state a run reaches, the end of a run
(60_exceptions.md R218), and the parts of a state a frame names. -/

namespace Sys2Proof.Machine

/-- The invariant: STATUS is one of the values 10_state.md R28 allows, OUT_LEN is at most BUF_BYTES + 8 (R32),
the buffers' bytes are in canonical form and inside IN or OUT (20_memory.md R61), and the host's variables are in
canonical form. -/
structure State.Inv (s : State) : Prop where
  statusLegal : s.status.legal = true
  outLenBound : s.outLen.toNat ≤ Config.bufBytes + 8
  memWf : Memory.wf s.mem = true
  memInBuffers : Memory.inBuffers s.mem = true
  varsWf : risingAbove none s.host.vars = true
  varsNonzero : s.host.vars.all (fun c => c.2 != 0) = true

/-- A run is finished (R218): the engine is idle, the script has no further access to make, and no other
turn is listed. -/
def State.finished (s : State) : Bool :=
  !s.status.busy && s.turns.isEmpty && (nextStmt s.host).isNone

/-- The state table of 70_reset_and_hazards.md R231, as the host reads the registers, with the interrupt low and
every buffer byte unset. -/
structure ResetTable (t : State) : Prop where
  id : readReg .id t = 0x31474D43
  paramLow : (readReg .param t).toNat % 2 ^ 16 = Config.bufBytes
  paramHigh : (readReg .param t).toNat / 2 ^ 16 = 0
  cmd : readReg .cmd t = 0
  status : readReg .status t = 0
  busy : t.status = ⟨false, false, false, .none⟩
  irqEn : readReg .irqEn t = 0
  irqStatus : readReg .irqStatus t = 0
  irq : t.irq = false
  len : readReg .len t = 0
  outLen : readReg .outLen t = 0
  ctr : readReg .ctr t = 0
  key : ∀ i, readReg (.key i) t = 0
  nonce : ∀ i, readReg (.nonce i) t = 0
  w : ∀ i, readReg (.w i) t = 0
  scr : ∀ i, readReg (.scr i) t = 0
  blk : ∀ i, readReg (.blk i) t = 0
  buffers : ∀ a, inIn a = true ∨ inOut a = true → peek t.mem a = none

/-- The engine's part of two states agrees: all but the turns and the host. -/
structure SameEngine (s t : State) : Prop where
  cmd : t.cmd = s.cmd
  status : t.status = s.status
  doneIe : t.doneIe = s.doneIe
  doneIp : t.doneIp = s.doneIp
  len : t.len = s.len
  outLen : t.outLen = s.outLen
  ctr : t.ctr = s.ctr
  key : t.key = s.key
  nonce : t.nonce = s.nonce
  w : t.w = s.w
  scr : t.scr = s.scr
  blk : t.blk = s.blk
  mem : t.mem = s.mem
  draws : t.draws = s.draws

/-- What a command reads and writes agrees: the engine's part less the interrupt registers, which alone a host
may write while BUSY = 1 (60_exceptions.md R203). -/
structure SameOperandsAndResults (s t : State) : Prop where
  cmd : t.cmd = s.cmd
  status : t.status = s.status
  len : t.len = s.len
  outLen : t.outLen = s.outLen
  ctr : t.ctr = s.ctr
  key : t.key = s.key
  nonce : t.nonce = s.nonce
  w : t.w = s.w
  scr : t.scr = s.scr
  blk : t.blk = s.blk
  mem : t.mem = s.mem
  draws : t.draws = s.draws

/-- Every buffer byte outside the `n` bytes from offset `a` is as before: the same set byte, or unset as
before. -/
def sameBytesOutside (a n : Nat) (s t : State) : Prop :=
  ∀ b, ¬ (a ≤ b ∧ b < a + n) → peek t.mem b = peek s.mem b

/-- IN byte `j` as a command started in `s` reads it (20_memory.md R63, R66). -/
def inByte (s : State) (j : Nat) : Byte := readByte s.mem (s.draws + j) (inBase + j)

/-- Byte `m` of the padded input of `n` bytes (41_magma.md R150). -/
def paddedByte (s : State) (n m : Nat) : Byte := if m < n then inByte s m else BitVec.ofNat 8 (8 - n % 8)

/-- A host access permitted while BUSY = 1 (60_exceptions.md R203), by offset: a read of ID, PARAM, CMD, STATUS,
IRQ_EN or IRQ_STATUS, or a write of IRQ_EN or IRQ_STATUS. -/
def permittedWhileBusy (off : Nat) : AccessOp → Prop
  | .read => off = 0x000 ∨ off = 0x004 ∨ off = 0x008 ∨ off = 0x00C ∨ off = 0x010 ∨ off = 0x014
  | .write _ => off = 0x010 ∨ off = 0x014

/-- The reserved offsets of the window (10_state.md R24, R40; 20_memory.md R61). -/
def reservedOffset (off : Nat) : Prop :=
  (0x024 ≤ off ∧ off ≤ 0x03F) ∨ (0x06C ≤ off ∧ off ≤ 0x07F) ∨ (0x0D8 ≤ off ∧ off ≤ 0x0FF) ∨
  (0x00100 ≤ off ∧ off ≤ 0x0FFFF) ∨ (0x10000 + Config.bufBytes ≤ off ∧ off ≤ 0x1FFFF) ∨
  (0x20000 + Config.bufBytes + 8 ≤ off ∧ off ≤ 0x2FFFF)

/-- The read-only locations (60_exceptions.md R211): ID, PARAM, STATUS, OUT_LEN, W0 to W15 and OUT. -/
def readOnlyOffset (off : Nat) : Prop :=
  (0x000 ≤ off ∧ off ≤ 0x007) ∨ (0x00C ≤ off ∧ off ≤ 0x00F) ∨ (0x01C ≤ off ∧ off ≤ 0x01F) ∨
  (0x080 ≤ off ∧ off ≤ 0x0BF) ∨ (0x20000 ≤ off ∧ off ≤ 0x20000 + Config.bufBytes + 7)

end Sys2Proof.Machine
end

