-- ==== Sys2Proof/WellFormed.lean ====
section
/-! DEFINITION. Well-formedness. A command of R91 has no operand field (30_encoding.md R90), so every term of
`Instr` is well formed; what can be ill formed is a command WORD (R93) and a host script (R97 to R99). -/

namespace Sys2Proof

/-- Every command is well formed: R90 gives it no field to get wrong. -/
def Instr.wf : Instr → Bool
  | .chachaQr | .chachaInit | .chachaBlock | .chachaXor | .magmaT | .magmaG | .magmaEncBlock
  | .magmaDecBlock | .magmaEnc | .magmaDec => true

/-- A legal command word (R93): RSV = 0 and OP one of the ten opcodes 0x01 to 0x0A of R91. -/
def wordLegal (w : Word) : Bool := w.toNat / 2 ^ 8 == 0 && (1 ≤ w.toNat % 2 ^ 8 && w.toNat % 2 ^ 8 ≤ 10)

namespace Machine

/-- The labels a script defines, in order (R97). -/
def definedLabels (p : List Stmt) : List Label :=
  p.filterMap fun
    | .label l => some l
    | _ => none

/-- The labels a script's branches name (R97). -/
def branchTargets (p : List Stmt) : List Label :=
  p.filterMap fun
    | .bnz _ _ l => some l
    | .bz _ _ l => some l
    | .bne _ _ l => some l
    | _ => none

/-- No label of the script is defined twice. -/
def labelsUnique (p : List Stmt) : Bool := decide (definedLabels p).Nodup

/-- Every branch names a label that the script defines. -/
def targetsDefined (p : List Stmt) : Bool := (branchTargets p).all (fun l => (definedLabels p).contains l)

/-- A well-formed host script: each branch has exactly one place to go to. -/
def scriptWf (p : List Stmt) : Bool := labelsUnique p && targetsDefined p

end Machine
end Sys2Proof
end

