-- ==== Sys2Proof/Certificates/Slice0/Obligations.lean ====
section
/-! DEFINITION. The statements for the provers. Each says what a numbered rule of spec/, or the rules its docstring
names, say of the machine. A statement that names an outcome by a record update of the state it starts in says
its frame as well: every field not updated is as it was. -/

open Sys2Proof Sys2Proof.Machine

/-! Reset and the invariant. -/

/-- R231, R232: the state after reset, and after a reset event in any state, whether the engine was busy or not,
is the table of R231: every register 0 but ID and PARAM, BUSY = DONE = ERR = 0, `irq` low, and every buffer byte
unset (a draw until written). -/
def Obligations.ResetGivesTheTabledState : Prop :=
  ResetTable State.reset ∧
    ∀ s : State, nextTurn s = .reset → ∃ t, step s = .next t ∧ ResetTable t

/-- The model's invariant holds right after reset. -/
def Obligations.ResetStateMeetsTheInvariant : Prop := State.reset.Inv

/-- Every step of every agent keeps the invariant: STATUS stays one of the values R28 allows, OUT_LEN stays at
most BUF_BYTES + 8 (R32), the buffer bytes stay in canonical form inside IN or OUT (R61, R63), and the host's
variables stay in canonical form. -/
def Obligations.StepKeepsTheInvariant : Prop :=
  ∀ s t : State, s.Inv → step s = .next t → t.Inv

/-! Encoding. -/

/-- R91, R96: the ten words of the opcode map, and no other, decode to their commands, and a command is one
word long, least significant byte first. -/
def Obligations.DecodingFollowsTheOpcodeMap : Prop :=
  (∀ (w : Word) (i : Instr), decode w = .ok i ↔
    (w, i) ∈ [((0x01 : Word), Instr.chachaQr), (0x02, .chachaInit), (0x03, .chachaBlock), (0x04, .chachaXor),
      (0x05, .magmaT), (0x06, .magmaG), (0x07, .magmaEncBlock), (0x08, .magmaDecBlock), (0x09, .magmaEnc),
      (0x0A, .magmaDec)]) ∧
  ∀ (b0 b1 b2 b3 : Byte) (rest : List Byte) (i : Instr),
    decodeBytes (b0 :: b1 :: b2 :: b3 :: rest) = .ok (i, rest) ↔ decode (le32 b0 b1 b2 b3) = .ok i

/-- Decoding and encoding agree for every command and over every byte sequence: a command's bytes decode to it
with whatever follows left over, and whatever decodes to a command begins with that command's bytes. -/
def Obligations.EncodeAndDecodeAgreeOverAllBytes : Prop :=
  (∀ (i : Instr) (rest : List Byte), decodeBytes (encodeBytes i ++ rest) = .ok (i, rest)) ∧
  (∀ (bs : List Byte) (i : Instr) (rest : List Byte),
    decodeBytes bs = .ok (i, rest) → bs = encodeBytes i ++ rest) ∧
  ∀ (w : Word) (i : Instr), decode w = .ok i ↔ w = encode i

/-- A few words written out from R90 and R91: RSV [31:8], then OP [7:0]. -/
def Obligations.SampleCommandWordsDecode : Prop :=
  decode 0b00000000000000000000000000000001#32 = .ok .chachaQr ∧
  decode 0b00000000000000000000000000000100#32 = .ok .chachaXor ∧
  decode 0b00000000000000000000000000001010#32 = .ok .magmaDec ∧
  decode 0b00000000000000000000000100000001#32 = .error .reservedBits ∧
  decode 0b00000000000000000000000000001011#32 = .error .unknownOpcode

/-- R93, R94: which words are illegal; that such a word is accepted like a legal one; and that its completion
writes nothing but STATUS (ERRCODE 4) and DONE_IP. -/
def Obligations.IllegalWordsAreAcceptedAndReportCode4 : Prop :=
  (∀ w : Word, (∃ i, decode w = .ok i) ↔
    w.toNat / 2 ^ 8 = 0 ∧ 0x01 ≤ w.toNat % 2 ^ 8 ∧ w.toNat % 2 ^ 8 ≤ 0x0A) ∧
  ((List.range 256).filter (fun op => decode (BitVec.ofNat 32 op) == .error .unknownOpcode)).length = 246 ∧
  (∀ (s : State) (w : Word) (e : Illegal), decode w = .error e → s.status.busy = false →
    engineAccess 0x008 .w32 (.write w) s =
      (.written, { s with cmd := w, status := ⟨true, false, false, .none⟩ })) ∧
  (∀ (s : State) (e : Illegal), decode s.cmd = .error e → s.status.busy = true → nextTurn s = .engine →
    step s = .next { popTurn s with status := ⟨false, true, true, .illegalCommand⟩, doneIp := true }) ∧
  (Status.word ⟨false, true, true, .illegalCommand⟩ = 0x00000406)

/-! The command lifecycle. -/

/-- R201: a CMD write while BUSY = 0 is accepted whatever the word, and changes CMD and STATUS alone; a CMD
write while BUSY = 1 gets a BusError and changes nothing. -/
def Obligations.AcceptanceTakesAnyWordWhenIdle : Prop :=
  ∀ (s : State) (w : Word),
    (s.status.busy = false → engineAccess 0x008 .w32 (.write w) s =
      (.written, { s with cmd := w, status := ⟨true, false, false, .none⟩ })) ∧
    (s.status.busy = true → engineAccess 0x008 .w32 (.write w) s = (.busError, s))

/-- A step runs the decoded command (R21, R202): when it is the engine's turn, BUSY = 1 and CMD decodes to a
command, the step is that command's meaning at the state with the turn taken off the list; and
`withFetchWord` places a word so that the next step runs it (the placing is the model's convention, log 12). -/
def Obligations.EngineTurnRunsTheDecodedCommand : Prop :=
  (∀ (s : State) (i : Instr), nextTurn s = .engine → s.status.busy = true → decode s.cmd = .ok i →
    step s = exec i (popTurn s)) ∧
  ∀ (s : State) (n w : Nat) (i : Instr), decode (BitVec.ofNat 32 (w % 2 ^ n)) = .ok i →
    step (s.withFetchWord n w) =
      exec i { s with cmd := BitVec.ofNat 32 (w % 2 ^ n), status := ⟨true, false, false, .none⟩ }

/-- R202, R205, R206: with BUSY = 1 the engine's turn always completes the command, legal or not: BUSY ends,
DONE and DONE_IP are set, and ERR says whether a code is reported. That a busy engine is next with no turn listed is
the model's choice (log 3). -/
def Obligations.BusyEngineTurnAlwaysCompletes : Prop :=
  (∀ s : State, s.turns = [] → s.status.busy = true → nextTurn s = .engine) ∧
  ∀ s : State, nextTurn s = .engine → s.status.busy = true →
    ∃ t, step s = .next t ∧ t.status.busy = false ∧ t.status.done = true ∧ t.doneIp = true ∧
      (t.status.err = true ↔ t.status.errcode ≠ .none) ∧ t.status.errcode ≠ .invalidKeyFormat ∧
      t.cmd = s.cmd ∧ t.len = s.len

/-- R21, R217 (the model's choice of a turn without effect, log 14): with BUSY = 0 the engine's turn changes
nothing but the list of turns. -/
def Obligations.IdleEngineTurnChangesNothing : Prop :=
  ∀ s : State, nextTurn s = .engine → s.status.busy = false → step s = .next (popTurn s)

/-- R218 (the model's choice of a step without effect, log 13): a finished run stays as it is. -/
def Obligations.FinishedRunStaysAsItIs : Prop :=
  ∀ s : State, s.finished = true → step s = .next s

/-- The machine stops only outside the spec (logs 8 and 9): a refused step is always a bus turn's access, or that of
the script's `wr` or `rd`, at an address outside the window (R60); a faulting step is always a taken branch of the
script to a label that the script does not define. In particular no command stops it. -/
def Obligations.OnlyAccessesOutsideTheSpecStopTheMachine : Prop :=
  (∀ (s : State) (r : Refusal), step s = .refused r → ∃ a, r = .outsideWindow a ∧
    ¬ (Config.engineBase ≤ a ∧ a < Config.engineBase + 0x30000) ∧
    ((∃ w op, nextTurn s = .bus ⟨a, w, op⟩) ∨
      (nextTurn s = .script ∧ ∃ w off, a = Config.engineBase + (evalOff s.host off).toNat ∧
        ((∃ val, nextStmt s.host = some (.wr w off val)) ∨ ∃ x, nextStmt s.host = some (.rd w off x))))) ∧
  (∀ (s : State) (f : Fault), step s = .fault f → nextTurn s = .script ∧
    ∃ l x val, f = .undefinedLabel l ∧ Stmt.label l ∉ s.host.script ∧
      ((nextStmt s.host = some (.bnz x val l) ∧ getVar s.host x &&& evalVal s.host val ≠ 0) ∨
        (nextStmt s.host = some (.bz x val l) ∧ getVar s.host x &&& evalVal s.host val = 0) ∨
        (nextStmt s.host = some (.bne x val l) ∧ getVar s.host x ≠ evalVal s.host val))) ∧
  ∀ (i : Instr) (s : State), ∃ t, exec i s = .next t

/-! The ChaCha20 commands. -/

/-- R119 with R113: CHACHA_QR's four lines on SCR0 to SCR3, and nothing else written but STATUS and DONE_IP; the
corner cases of R119. -/
def Obligations.ChachaQrRunsTheQuarterRoundOnScr : Prop :=
  encode .chachaQr = 0x00000001 ∧
  (∀ s : State,
    let a0 := s.scr[0]; let b0 := s.scr[1]; let c0 := s.scr[2]; let d0 := s.scr[3]
    let a1 := a0 + b0; let d1 := (d0 ^^^ a1).rotateLeft 16
    let c1 := c0 + d1; let b1 := (b0 ^^^ c1).rotateLeft 12
    let a2 := a1 + b1; let d2 := (d1 ^^^ a2).rotateLeft 8
    let c2 := c1 + d2; let b2 := (b1 ^^^ c2).rotateLeft 7
    exec .chachaQr s =
      .next { s with scr := #v[a2, b2, c2, d2], status := ⟨false, true, false, .none⟩, doneIp := true }) ∧
  qr 0 0 0 0 = (0, 0, 0, 0) ∧
  qr 0xFFFFFFFF 0xFFFFFFFF 0xFFFFFFFF 0xFFFFFFFF = (0xf0000ffd, 0x88790878, 0x0110fdef, 0x010ffdf0) ∧
  qr 0x11111111 0x01020304 0x9b8d6f43 0x01234567 = (0xea2a92f4, 0xcb1cf8ce, 0x4581472e, 0x5881c4bb)

/-- R120 with R111 and R112: CHACHA_INIT writes the constants, the key, CTR and the nonce to W0 to W15, and
nothing else but STATUS and DONE_IP. -/
def Obligations.ChachaInitBuildsTheStateInW : Prop :=
  encode .chachaInit = 0x00000002 ∧
  ∀ s : State, exec .chachaInit s =
    .next { s with
      w := #v[0x61707865, 0x3320646e, 0x79622d32, 0x6b206574, s.key[0], s.key[1], s.key[2], s.key[3], s.key[4],
        s.key[5], s.key[6], s.key[7], s.ctr, s.nonce[0], s.nonce[1], s.nonce[2]],
      status := ⟨false, true, false, .none⟩, doneIp := true }

/-- R121 with R113, R114 and R115: applying a quarter round to four different places of the working state runs
R113's four lines on them and leaves the other twelve; CHACHA_BLOCK runs 10 iterations of the four column and four
diagonal quarter rounds, in order, on the state of R112, adds that state word by word, and writes W0 to W15 and
nothing else but STATUS and DONE_IP. CTR stays (R33), so running it again gives the same W. -/
def Obligations.ChachaBlockWritesTheKeystreamBlock : Prop :=
  encode .chachaBlock = 0x00000003 ∧
  (∀ (x : Vector Word 16) (i j k l : Fin 16), [i, j, k, l].Nodup →
    let a1 := x[i] + x[j]; let d1 := (x[l] ^^^ a1).rotateLeft 16
    let c1 := x[k] + d1; let b1 := (x[j] ^^^ c1).rotateLeft 12
    let a2 := a1 + b1; let d2 := (d1 ^^^ a2).rotateLeft 8
    let c2 := c1 + d2; let b2 := (b1 ^^^ c2).rotateLeft 7
    let y := applyQr x (i, j, k, l)
    y[i] = a2 ∧ y[j] = b2 ∧ y[k] = c2 ∧ y[l] = d2 ∧ ∀ m : Fin 16, m ∉ [i, j, k, l] → y[m] = x[m]) ∧
  (∀ x : Vector Word 16, chachaIteration x =
    [((0, 4, 8, 12) : Group), (1, 5, 9, 13), (2, 6, 10, 14), (3, 7, 11, 15),
      (0, 5, 10, 15), (1, 6, 11, 12), (2, 7, 8, 13), (3, 4, 9, 14)].foldl applyQr x) ∧
  (∀ s : State,
    let x := chachaInit s.key s.ctr s.nonce
    exec .chachaBlock s =
      .next { s with
        w := Vector.ofFn (fun i => (chachaIteration^[10] x)[i] + x[i]),
        status := ⟨false, true, false, .none⟩, doneIp := true }) ∧
  ∀ s t u : State, exec .chachaBlock s = .next t → exec .chachaBlock t = .next u → u.w = t.w ∧ u.ctr = s.ctr

/-- R122 with R116 and R117: with LEN at most BUF_BYTES, CHACHA_XOR writes OUT[j] = IN[j] xor byte `j % 64` of
keystream block `j / 64`, whose counter is `j / 64` from 0, for every `j < LEN`; it sets OUT_LEN to LEN and
leaves every other byte and register. With LEN above BUF_BYTES it reports LengthOutOfRange, OUT_LEN <- 0, and
leaves OUT. -/
def Obligations.ChachaXorWritesInXorKeystream : Prop :=
  encode .chachaXor = 0x00000004 ∧
  (∀ s : State, s.len.toNat ≤ Config.bufBytes → ∃ t, exec .chachaXor s = .next t ∧
    t = { s with
      mem := t.mem, draws := t.draws, outLen := s.len, status := ⟨false, true, false, .none⟩, doneIp := true } ∧
    (∀ j < s.len.toNat, peek t.mem (0x20000 + j) =
      some (inByte s j ^^^
        ((chachaBlock (chachaInit s.key (BitVec.ofNat 32 (j / 64)) s.nonce)).toList.getD (j % 64 / 4) 0
          >>> (8 * (j % 4))).setWidth 8)) ∧
    sameBytesOutside 0x20000 s.len.toNat s t) ∧
  ∀ s : State, Config.bufBytes < s.len.toNat → exec .chachaXor s =
    .next { s with outLen := 0, status := ⟨false, true, true, .lengthOutOfRange⟩, doneIp := true }

/-- R118: the stream transform is its own inverse, on every key, nonce and data. For data past 2^32 blocks, of which the
document does not say (R123), the keystream is log 26's choice. -/
def Obligations.StreamTransformIsItsOwnInverse : Prop :=
  ∀ (k : Vector Word 8) (n : Vector Word 3) (d : List Byte),
    chachaXor k n (chachaXor k n d) = d ∧ (chachaXor k n d).length = d.length

/-- R118 on the machine (95_test_vectors.md W4, W6): run CHACHA_XOR, let IN[0..LEN-1] be what OUT[0..LEN-1] is
then, with KEY, NONCE and LEN as before, and run CHACHA_XOR again: OUT[0..LEN-1] is the first IN. -/
def Obligations.ChachaXorTwiceRestoresTheInput : Prop :=
  ∀ s t u : State, s.len.toNat ≤ Config.bufBytes → exec .chachaXor s = .next t →
    u.key = s.key → u.nonce = s.nonce → u.len = s.len →
    (∀ j < s.len.toNat, peek u.mem (0x10000 + j) = peek t.mem (0x20000 + j)) →
    ∃ v, exec .chachaXor u = .next v ∧ v.outLen = s.len ∧
      ∀ j < s.len.toNat, peek v.mem (0x20000 + j) = some (inByte s j)

/-- R33, R35: CHACHA_XOR does not read CTR, and the Magma commands read neither NONCE nor CTR: with another value
there they do the same. An unset IN byte counts as the same draw in both (log 4). -/
def Obligations.UnreadRegistersHaveNoEffect : Prop :=
  (∀ (s t : State) (c : Word), exec .chachaXor s = .next t →
    exec .chachaXor { s with ctr := c } = .next { t with ctr := c }) ∧
  ∀ (i : Instr) (s t : State) (c : Word) (n : Vector Word 3),
    i ∈ [Instr.magmaT, .magmaG, .magmaEncBlock, .magmaDecBlock, .magmaEnc, .magmaDec] →
    exec i s = .next t → exec i { s with ctr := c, nonce := n } = .next { t with ctr := c, nonce := n }

/-- R191: the keystream of a long message block by block: CHACHA_BLOCK with CTR = i gives in W the bytes that
the stream transform uses for block `i`. -/
def Obligations.ChachaBlocksSplitTheStream : Prop :=
  ∀ (s t : State) (i j : Nat) (d : List Byte), i < 2 ^ 32 → j < 64 → 64 * i + j < d.length →
    s.ctr = BitVec.ofNat 32 i → exec .chachaBlock s = .next t →
    (chachaXor s.key s.nonce d)[64 * i + j]? = d[64 * i + j]?.map (· ^^^ ksByte t.w j)

/-! The Magma commands. -/

/-- The S-box (R141): its rows as the spec gives them, each a permutation. The spec supplies the entries from
general knowledge; the model takes them (PRESUMED, log 15). -/
def Obligations.SboxRowsArePermutations : Prop :=
  sbox.toList.map (fun r => r.toList.map BitVec.toNat) =
    [[12, 4, 6, 2, 10, 5, 11, 9, 14, 8, 13, 7, 0, 3, 15, 1],
      [6, 8, 2, 3, 9, 10, 5, 12, 1, 14, 4, 7, 11, 13, 0, 15],
      [11, 3, 5, 8, 2, 15, 10, 13, 14, 1, 7, 4, 12, 9, 6, 0],
      [12, 8, 2, 1, 13, 4, 15, 6, 7, 0, 10, 5, 3, 14, 9, 11],
      [7, 15, 5, 10, 8, 1, 6, 13, 0, 9, 3, 14, 11, 4, 2, 12],
      [5, 13, 15, 6, 9, 2, 12, 10, 11, 7, 8, 1, 4, 3, 14, 0],
      [8, 14, 2, 5, 6, 9, 1, 12, 15, 4, 11, 0, 13, 10, 3, 7],
      [1, 7, 14, 13, 0, 5, 8, 3, 4, 15, 10, 6, 9, 12, 11, 2]] ∧
  ∀ i : Fin 8, ∀ v : BitVec 4, ∃ u, substitute i u = v

/-- R142 with R154: MAGMA_T puts nibble `i` of SCR0 through S-box row `i`, for every `i`, and writes nothing else
but STATUS and DONE_IP; SCR1 to SCR3 stay. -/
def Obligations.MagmaTSubstitutesEveryNibble : Prop :=
  encode .magmaT = 0x00000005 ∧
  ∀ s : State, ∃ y : Word,
    (∀ (i : Fin 8) (v : Fin 16), s.scr[0].toNat / 16 ^ i.val % 16 = v.val →
      y.toNat / 16 ^ i.val % 16 = (sbox[i])[v].toNat) ∧
    exec .magmaT s =
      .next { s with
        scr := #v[y, s.scr[1], s.scr[2], s.scr[3]], status := ⟨false, true, false, .none⟩, doneIp := true }

/-- R142: the T-transform is a bijection on words; it rests on the S-box rows (log 15). -/
def Obligations.TransformTIsABijection : Prop := Function.Bijective magmaT

/-- R143 with R155: MAGMA_G writes the T-transform of the wrapping sum of SCR0 and SCR1, rotated left by 11, to
SCR0, and nothing else but STATUS and DONE_IP. -/
def Obligations.MagmaGRotatesTheTransformedSum : Prop :=
  encode .magmaG = 0x00000006 ∧
  ∀ s : State, exec .magmaG s =
    .next { s with
      scr := #v[(magmaT (s.scr[0] + s.scr[1])).rotateLeft 11, s.scr[1], s.scr[2], s.scr[3]],
      status := ⟨false, true, false, .none⟩, doneIp := true }

/-- R156 with R144 to R146 and R148: MAGMA_ENC_BLOCK runs the 32 rounds of the encryption schedule on BLK0 (left)
and BLK1 (right) and writes the final right half to BLK0 and the final left half to BLK1. -/
def Obligations.MagmaEncBlockRunsTheEncryptionSchedule : Prop :=
  encode .magmaEncBlock = 0x00000007 ∧
  ∀ s : State,
    let out := ([0, 1, 2, 3, 4, 5, 6, 7, 0, 1, 2, 3, 4, 5, 6, 7, 0, 1, 2, 3, 4, 5, 6, 7,
        7, 6, 5, 4, 3, 2, 1, 0] : List (Fin 8)).foldl
      (fun (p : Word × Word) i => (p.2, p.1 ^^^ magmaG p.2 s.key[i])) (s.blk[0], s.blk[1])
    exec .magmaEncBlock s =
      .next { s with blk := #v[out.2, out.1], status := ⟨false, true, false, .none⟩, doneIp := true }

/-- R157 with R144, R145, R147 and R148: MAGMA_DEC_BLOCK runs the 32 rounds of the decryption schedule, which is
the encryption schedule reversed. -/
def Obligations.MagmaDecBlockRunsTheReversedSchedule : Prop :=
  encode .magmaDecBlock = 0x00000008 ∧
  decIdx = encIdx.reverse ∧
  ∀ s : State,
    let out := ([0, 1, 2, 3, 4, 5, 6, 7, 7, 6, 5, 4, 3, 2, 1, 0, 7, 6, 5, 4, 3, 2, 1, 0,
        7, 6, 5, 4, 3, 2, 1, 0] : List (Fin 8)).foldl
      (fun (p : Word × Word) i => (p.2, p.1 ^^^ magmaG p.2 s.key[i])) (s.blk[0], s.blk[1])
    exec .magmaDecBlock s =
      .next { s with blk := #v[out.2, out.1], status := ⟨false, true, false, .none⟩, doneIp := true }

/-- R148: decryption of a block undoes its encryption, for every key and every block; and on the machine, running
MAGMA_DEC_BLOCK after MAGMA_ENC_BLOCK restores BLK (R156). -/
def Obligations.BlockDecryptionUndoesEncryption : Prop :=
  (∀ (k : Vector Word 8) (b : List Byte), b.length = 8 → magmaDecBlock k (magmaEncBlock k b) = b) ∧
  ∀ s t : State, exec .magmaEncBlock s = .next t →
    ∃ u, exec .magmaDecBlock t = .next u ∧ u.blk = s.blk ∧ u.key = s.key

/-- R150: padding appends 1 to 8 bytes, each equal to their number, up to the next multiple of 8. -/
def Obligations.PaddingFillsTheLastBlock : Prop :=
  ∀ d : List Byte, ∃ p : Nat, 1 ≤ p ∧ p ≤ 8 ∧ p = 8 - d.length % 8 ∧
    pad d = d ++ List.replicate p (BitVec.ofNat 8 p) ∧ (pad d).length = 8 * (d.length / 8 + 1)

/-- R151: unpadding looks at the final byte alone; 1 to 8 takes that many bytes off if there are as many, any
other value takes none, and an empty buffer stays empty. -/
def Obligations.UnpaddingLooksAtTheLastByteOnly : Prop :=
  unpad [] = [] ∧
  ∀ (o : List Byte) (p : Byte),
    ((1 ≤ p.toNat ∧ p.toNat ≤ 8 ∧ p.toNat ≤ (o ++ [p]).length) →
      unpad (o ++ [p]) = o.take (o.length + 1 - p.toNat)) ∧
    ((p.toNat = 0 ∨ 8 < p.toNat ∨ (o ++ [p]).length < p.toNat) → unpad (o ++ [p]) = o ++ [p])

/-- R153 with R152: for every key and data, buffer decryption of a buffer's encryption is the data; a buffer that
is not a whole number of blocks is the error. -/
def Obligations.BufferDecryptionUndoesEncryption : Prop :=
  (∀ (k : Vector Word 8) (d : List Byte), magmaDecrypt k (magmaEncrypt k d) = some d) ∧
  ∀ (k : Vector Word 8) (c : List Byte), c.length % 8 ≠ 0 → magmaDecrypt k c = none

/-- R149 and R191: blocks are transformed each on its own, so a whole number of blocks in front can be split off:
encryption drops the piece's pad block, decryption strips only the last piece. -/
def Obligations.WholeBlocksSplitOff : Prop :=
  ∀ (k : Vector Word 8) (a b : List Byte), a.length % 8 = 0 →
    magmaEncrypt k (a ++ b) = (magmaEncrypt k a).take a.length ++ magmaEncrypt k b ∧
    magmaDecryptBlocks k (a ++ b) = magmaDecryptBlocks k a ++ magmaDecryptBlocks k b ∧
    (b ≠ [] → b.length % 8 = 0 →
      magmaDecrypt k (a ++ b) = (magmaDecrypt k b).map (magmaDecryptBlocks k a ++ ·))

/-- R158 with R149, R150 and R152: with LEN at most BUF_BYTES, MAGMA_ENC pads IN[0..LEN-1], encrypts each block
on its own into OUT, sets OUT_LEN to 8*(LEN/8 + 1), and leaves every other byte and register. With LEN above
BUF_BYTES it reports LengthOutOfRange, OUT_LEN <- 0, and leaves OUT. -/
def Obligations.MagmaEncWritesThePaddedCiphertext : Prop :=
  encode .magmaEnc = 0x00000009 ∧
  (∀ s : State, s.len.toNat ≤ Config.bufBytes → ∃ t, exec .magmaEnc s = .next t ∧
    t = { s with
      mem := t.mem, draws := t.draws, outLen := t.outLen, status := ⟨false, true, false, .none⟩, doneIp := true } ∧
    t.outLen.toNat = 8 * (s.len.toNat / 8 + 1) ∧
    (∀ i ≤ s.len.toNat / 8, (List.range 8).map (fun j => peek t.mem (0x20000 + 8 * i + j)) =
      (magmaEncBlock s.key ((List.range 8).map (fun j => paddedByte s s.len.toNat (8 * i + j)))).map some) ∧
    sameBytesOutside 0x20000 (8 * (s.len.toNat / 8 + 1)) s t) ∧
  ∀ s : State, Config.bufBytes < s.len.toNat → exec .magmaEnc s =
    .next { s with outLen := 0, status := ⟨false, true, true, .lengthOutOfRange⟩, doneIp := true }

/-- R159 with R151, R153 and R204: with LEN a multiple of 8 and at most BUF_BYTES, MAGMA_DEC decrypts each block
on its own into OUT[0..LEN-1], sets OUT_LEN to LEN less the stripped padding, which the last decrypted byte
alone decides, and leaves every other byte and register; LEN = 0 gives OUT_LEN = 0. The two length errors, the
range first, leave OUT and set OUT_LEN to 0. -/
def Obligations.MagmaDecWritesThePlaintextAndItsLength : Prop :=
  encode .magmaDec = 0x0000000A ∧
  (∀ s : State, s.len.toNat ≤ Config.bufBytes → s.len.toNat % 8 = 0 → ∃ t, exec .magmaDec s = .next t ∧
    t = { s with
      mem := t.mem, draws := t.draws, outLen := t.outLen, status := ⟨false, true, false, .none⟩, doneIp := true } ∧
    (∀ i < s.len.toNat / 8, (List.range 8).map (fun j => peek t.mem (0x20000 + 8 * i + j)) =
      (magmaDecBlock s.key ((List.range 8).map (fun j => inByte s (8 * i + j)))).map some) ∧
    sameBytesOutside 0x20000 s.len.toNat s t ∧
    (s.len.toNat = 0 → t.outLen = 0) ∧
    ∀ p : Byte, 0 < s.len.toNat → peek t.mem (0x20000 + s.len.toNat - 1) = some p →
      t.outLen.toNat = if 1 ≤ p.toNat ∧ p.toNat ≤ 8 then s.len.toNat - p.toNat else s.len.toNat) ∧
  (∀ s : State, Config.bufBytes < s.len.toNat → exec .magmaDec s =
    .next { s with outLen := 0, status := ⟨false, true, true, .lengthOutOfRange⟩, doneIp := true }) ∧
  ∀ s : State, s.len.toNat ≤ Config.bufBytes → s.len.toNat % 8 ≠ 0 → exec .magmaDec s =
    .next { s with outLen := 0, status := ⟨false, true, true, .invalidCiphertextLength⟩, doneIp := true }

/-- R153 on the machine (95_test_vectors.md W5): run MAGMA_ENC, let IN[0..OUT_LEN-1] be what OUT[0..OUT_LEN-1] is
then and LEN be OUT_LEN, with KEY as before, and run MAGMA_DEC: OUT_LEN is the first LEN and OUT[0..LEN-1] is the
first IN. LEN below BUF_BYTES is what it takes for that OUT_LEN, the next multiple of 8, to fit IN. -/
def Obligations.MagmaDecAfterMagmaEncRestoresTheInput : Prop :=
  ∀ s t u : State, s.len.toNat < Config.bufBytes → exec .magmaEnc s = .next t →
    u.key = s.key → u.len = t.outLen →
    (∀ j < t.outLen.toNat, peek u.mem (0x10000 + j) = peek t.mem (0x20000 + j)) →
    ∃ v, exec .magmaDec u = .next v ∧ v.outLen = s.len ∧
      ∀ j < s.len.toNat, peek v.mem (0x20000 + j) = some (inByte s j)

/-! What commands leave alone. -/

/-- R39: the write set of each command's completion. No command writes CMD, IRQ_EN, LEN, CTR, KEY, NONCE or IN;
each of the others is written only by the commands whose row names it, OUT only in the bytes its row names; a
command that ends in an error writes OUT_LEN <- 0 if it is a buffer command and else nothing of its own; an
illegal word's completion writes nothing. STATUS and DONE_IP are always written. -/
def Obligations.CommandsWriteOnlyTheirOwnRows : Prop :=
  (∀ (i : Instr) (s t : State), exec i s = .next t →
    t.cmd = s.cmd ∧ t.doneIe = s.doneIe ∧ t.len = s.len ∧ t.ctr = s.ctr ∧ t.key = s.key ∧ t.nonce = s.nonce ∧
    t.turns = s.turns ∧ t.host = s.host ∧
    (∀ a, ¬ (0x20000 ≤ a ∧ a < 0x20000 + Config.bufBytes + 8) → peek t.mem a = peek s.mem a) ∧
    (i ∈ [Instr.chachaXor, .magmaEnc] → sameBytesOutside 0x20000 t.outLen.toNat s t) ∧
    (i = .magmaDec → sameBytesOutside 0x20000 s.len.toNat s t) ∧
    (i ∉ [Instr.chachaInit, .chachaBlock] → t.w = s.w) ∧
    (i ∉ [Instr.chachaQr, .magmaT, .magmaG] → t.scr = s.scr) ∧
    (i ∈ [Instr.magmaT, .magmaG] → t.scr[1] = s.scr[1] ∧ t.scr[2] = s.scr[2] ∧ t.scr[3] = s.scr[3]) ∧
    (i ∉ [Instr.magmaEncBlock, .magmaDecBlock] → t.blk = s.blk) ∧
    (i ∉ [Instr.chachaXor, .magmaEnc, .magmaDec] → t.outLen = s.outLen ∧ t.mem = s.mem ∧ t.draws = s.draws) ∧
    (t.status.err = true → i ∈ [Instr.chachaXor, .magmaEnc, .magmaDec] ∧
      t = { s with outLen := 0, status := ⟨false, true, true, t.status.errcode⟩, doneIp := true }) ∧
    (t.status.err = false → t.status = ⟨false, true, false, .none⟩ ∧ t.doneIp = true)) ∧
  ∀ (s t : State) (e : Illegal), decode s.cmd = .error e → completion s = .next t →
    t = { s with status := ⟨false, true, true, .illegalCommand⟩, doneIp := true }

/-- R36, R63: of all agents' steps, W changes only at a reset or at the completion of CHACHA_INIT or
CHACHA_BLOCK, and an OUT byte only at a reset or at the completion of a buffer command; an IN byte never
changes at a completion. -/
def Obligations.ResultsChangeOnlyAtTheirCommands : Prop :=
  ∀ s t : State, step s = .next t →
    (t.w ≠ s.w → nextTurn s = .reset ∨
      (nextTurn s = .engine ∧ s.status.busy = true ∧ (s.cmd = 0x02 ∨ s.cmd = 0x03))) ∧
    (∀ a, 0x20000 ≤ a → peek t.mem a ≠ peek s.mem a → nextTurn s = .reset ∨
      (nextTurn s = .engine ∧ s.status.busy = true ∧ (s.cmd = 0x04 ∨ s.cmd = 0x09 ∨ s.cmd = 0x0A))) ∧
    (∀ a, a < 0x20000 → peek t.mem a ≠ peek s.mem a → nextTurn s ≠ .engine)

/-- R28: of all agents' steps, STATUS changes only at a reset, at a completion, or at an acceptance: a 32-bit write of
a word to CMD, by a bus turn or by the script, while idle, which sets BUSY alone and leaves that word in CMD. -/
def Obligations.StatusChangesOnlyByResetCompletionAcceptance : Prop :=
  ∀ s t : State, step s = .next t → t.status ≠ s.status →
    nextTurn s = .reset ∨ (nextTurn s = .engine ∧ s.status.busy = true ∧ t.status.busy = false) ∨
    (s.status.busy = false ∧ t.status = ⟨true, false, false, .none⟩ ∧ ∃ v, t.cmd = v ∧
      (nextTurn s = .bus ⟨Config.engineBase + 0x008, .w32, .write v⟩ ∨
        (nextTurn s = .script ∧ ∃ off val, nextStmt s.host = some (.wr .w32 off val) ∧
          evalOff s.host off = 0x008 ∧ evalVal s.host val = v)))

/-- R17, R203: while BUSY = 1, a step that is neither the completion nor a reset leaves everything a command reads
or writes as it was. -/
def Obligations.OperandsStayFixedWhileBusy : Prop :=
  ∀ s t : State, s.status.busy = true → step s = .next t → nextTurn s ≠ .engine → nextTurn s ≠ .reset →
    SameOperandsAndResults s t

/-- R17: a command's result is fixed at acceptance. Whatever accesses and statements fall between acceptance and
completion, the completion gives the registers and buffer bytes that an immediate completion gives. An unset IN
byte counts as the same draw in both (log 4). -/
def Obligations.ResultIsFixedAtAcceptance : Prop :=
  ∀ (s t u v : State) (between rest : List Turn), s.status.busy = true →
    s.turns = between ++ Turn.engine :: rest → (∀ x ∈ between, x ≠ Turn.engine ∧ x ≠ Turn.reset) →
    Host.Core.run Sys2Proof.core between.length s = .next t → step t = .next u → completion s = .next v →
    SameOperandsAndResults v u

/-! The bus. -/

/-- R210, R211, R203: which accesses get a BusError, by offset, width and direction; and that such an access
changes nothing. -/
def Obligations.BusErrorsAreExactlyTheListedCauses : Prop :=
  ∀ (off : Nat) (w : Width) (op : AccessOp) (s : State), off < 0x30000 →
    ((engineAccess off w op s).1 = .busError ↔
      reservedOffset off ∨ (off < 0x100 ∧ w ≠ .w32) ∨ off % w.bytes ≠ 0 ∨
      (op ≠ .read ∧ readOnlyOffset off) ∨ (s.status.busy = true ∧ ¬ permittedWhileBusy off op)) ∧
    ((engineAccess off w op s).1 = .busError → (engineAccess off w op s).2 = s)

/-- R60 (with log 9 for the outside): an access reaches the engine at `ENGINE_BASE + off` exactly for the window's
0x30000 offsets; a bus turn there takes the engine's answer and a bus turn elsewhere is refused by name. -/
def Obligations.WindowIsDecodedAtItsBase : Prop :=
  (∀ (off : Nat) (w : Width) (op : AccessOp) (s : State), off < 0x30000 →
    nextTurn s = .bus ⟨Config.engineBase + off, w, op⟩ →
    step s = .next (recordAccess .other ⟨Config.engineBase + off, w, op⟩ (engineAccess off w op (popTurn s)).1
      (engineAccess off w op (popTurn s)).2)) ∧
  ∀ (a : Access) (s : State), nextTurn s = .bus a →
    (a.addr < Config.engineBase ∨ Config.engineBase + 0x30000 ≤ a.addr) →
    step s = .refused (.outsideWindow a.addr)

/-- R24 with R25 to R38: a 32-bit read at each offset of the register map returns the register that stands there and
changes nothing: the six registers R203 lists whether busy or not, the others while idle. The reserved bits [31:1] of
IRQ_EN and IRQ_STATUS read 0 (R29, R30). The first clause says the same of the model's own table of the map. -/
def Obligations.RegisterReadsReturnTheRegister : Prop :=
  (∀ (r : Reg) (s : State), s.status.busy = false ∨ permittedWhileBusy r.offset .read →
    engineAccess r.offset .w32 .read s = (.data (readReg r s), s)) ∧
  (∀ s : State,
    engineAccess 0x000 .w32 .read s = (.data 0x31474D43, s) ∧
    engineAccess 0x004 .w32 .read s = (.data (BitVec.ofNat 32 Config.bufBytes), s) ∧
    engineAccess 0x008 .w32 .read s = (.data s.cmd, s) ∧
    engineAccess 0x00C .w32 .read s = (.data s.status.word, s) ∧
    engineAccess 0x010 .w32 .read s = (.data (if s.doneIe then 1 else 0), s) ∧
    engineAccess 0x014 .w32 .read s = (.data (if s.doneIp then 1 else 0), s)) ∧
  ∀ s : State, s.status.busy = false →
    engineAccess 0x018 .w32 .read s = (.data s.len, s) ∧
    engineAccess 0x01C .w32 .read s = (.data s.outLen, s) ∧
    engineAccess 0x020 .w32 .read s = (.data s.ctr, s) ∧
    (∀ i : Fin 8, engineAccess (0x040 + 4 * i.val) .w32 .read s = (.data s.key[i], s)) ∧
    (∀ i : Fin 3, engineAccess (0x060 + 4 * i.val) .w32 .read s = (.data s.nonce[i], s)) ∧
    (∀ i : Fin 16, engineAccess (0x080 + 4 * i.val) .w32 .read s = (.data s.w[i], s)) ∧
    (∀ i : Fin 4, engineAccess (0x0C0 + 4 * i.val) .w32 .read s = (.data s.scr[i], s)) ∧
    ∀ i : Fin 2, engineAccess (0x0D0 + 4 * i.val) .w32 .read s = (.data s.blk[i], s)

/-- R28: STATUS as a 32-bit read at 0x00C returns it, busy or not: BUSY [0], DONE [1], ERR [2], ERRCODE [11:8] with the
codes of R200, and every other bit 0. -/
def Obligations.StatusWordHasItsFields : Prop :=
  ∀ s : State, ∃ v : Word, engineAccess 0x00C .w32 .read s = (.data v, s) ∧ readReg .status s = v ∧
    v.toNat = s.status.busy.toNat + 2 * s.status.done.toNat + 4 * s.status.err.toNat +
      2 ^ 8 * (match s.status.errcode with
        | .none => 0
        | .invalidKeyFormat => 1
        | .invalidCiphertextLength => 2
        | .lengthOutOfRange => 3
        | .illegalCommand => 4)

/-- R25, R26: ID is the constant, which spells "CMG1", and PARAM is BUF_BYTES in [15:0] under zeros, whatever the
state; BUF_BYTES is a multiple of 64 in [64, 65472]. -/
def Obligations.IdAndParamAreHardwired : Prop :=
  ∀ s : State, readReg .id s = 0x31474D43 ∧
    bytesLe (readReg .id s) = ['C', 'M', 'G', '1'].map (fun c => BitVec.ofNat 8 c.toNat) ∧
    (readReg .param s).toNat = Config.bufBytes ∧
    Config.bufBytes % 64 = 0 ∧ 64 ≤ Config.bufBytes ∧ Config.bufBytes ≤ 65472 ∧
    (readReg .param s).toNat / 2 ^ 16 = 0

/-- R31, R33 to R35, R37, R38 with R24: while idle, a 32-bit write of any value at the offset of LEN, CTR, a KEY, NONCE,
SCR or BLK word sets that word and changes nothing else; so it is read back unchanged, and no other register and no
buffer byte changes. -/
def Obligations.PlainRegisterWritesReadBack : Prop :=
  (∀ (v : Word) (s : State), s.status.busy = false →
    engineAccess 0x018 .w32 (.write v) s = (.written, { s with len := v }) ∧
    engineAccess 0x020 .w32 (.write v) s = (.written, { s with ctr := v }) ∧
    (∀ i : Fin 8, engineAccess (0x040 + 4 * i.val) .w32 (.write v) s =
      (.written, { s with key := s.key.set i v })) ∧
    (∀ i : Fin 3, engineAccess (0x060 + 4 * i.val) .w32 (.write v) s =
      (.written, { s with nonce := s.nonce.set i v })) ∧
    (∀ i : Fin 4, engineAccess (0x0C0 + 4 * i.val) .w32 (.write v) s =
      (.written, { s with scr := s.scr.set i v })) ∧
    ∀ i : Fin 2, engineAccess (0x0D0 + 4 * i.val) .w32 (.write v) s =
      (.written, { s with blk := s.blk.set i v })) ∧
  ∀ (r : Reg) (v : Word) (s : State), s.status.busy = false →
    (r = .len ∨ r = .ctr ∨ (∃ i, r = .key i) ∨ (∃ i, r = .nonce i) ∨ (∃ i, r = .scr i) ∨ (∃ i, r = .blk i)) →
    ∃ t, engineAccess r.offset .w32 (.write v) s = (.written, t) ∧ readReg r t = v ∧
      (∀ r', r' ≠ r → readReg r' t = readReg r' s) ∧ t.mem = s.mem ∧ t.draws = s.draws ∧ t.turns = s.turns ∧
      t.host = s.host

/-- R29, R30: a write of IRQ_EN, busy or not, keeps bit 0 alone; a write of IRQ_STATUS clears DONE_IP if bit 0
is 1 and leaves it otherwise; nothing else changes. -/
def Obligations.InterruptRegisterWrites : Prop :=
  ∀ (v : Word) (s : State),
    engineAccess 0x010 .w32 (.write v) s = (.written, { s with doneIe := v.getLsbD 0 }) ∧
    engineAccess 0x014 .w32 (.write v) s =
      (.written, { s with doneIp := if v.getLsbD 0 then false else s.doneIp })

/-- R207, R208: `irq` is DONE_IE and DONE_IP; a completion makes it high exactly if DONE_IE is set, whatever
DONE_IP was; a written 1 to IRQ_STATUS makes it low; masking holds it low without clearing DONE_IP, and setting
DONE_IE then raises it at once if DONE_IP is set. -/
def Obligations.InterruptLevelFollowsEnableAndPending : Prop :=
  (∀ s : State, s.irq = (s.doneIe && s.doneIp)) ∧
  (∀ s t : State, nextTurn s = .engine → s.status.busy = true → step s = .next t →
    t.irq = s.doneIe ∧ t.doneIp = true) ∧
  (∀ s : State, (engineAccess 0x014 .w32 (.write 1) s).2.irq = false) ∧
  (∀ s : State, (engineAccess 0x010 .w32 (.write 0) s).2.irq = false ∧
    (engineAccess 0x010 .w32 (.write 0) s).2.doneIp = s.doneIp ∧
    (engineAccess 0x010 .w32 (.write 1) (engineAccess 0x010 .w32 (.write 0) s).2).2.irq = s.doneIp) ∧
  State.reset.irq = false

/-- R70: no read has a side effect: it changes nothing but the model's own draw counter; and where every byte it
reads is set, or it reads a register, the same read again returns the same answer. -/
def Obligations.ReadsHaveNoSideEffect : Prop :=
  ∀ (off : Nat) (w : Width) (s t : State) (r : Reply), engineAccess off w .read s = (r, t) →
    t = { s with draws := t.draws } ∧
    ((off < 0x100 ∨ ∀ j < w.bytes, ∃ b, peek s.mem (off + j) = some b) → (engineAccess off w .read t).1 = r)

/-- R65 with R64: the buffers are one byte array for every width. While idle, an aligned write at an IN offset sets
byte `j` of the access to bits [8j+7:8j] of the value and no other byte; an aligned read at an IN or OUT offset answers
a value whose bits [8j+7:8j] are byte `j` of the access wherever that byte is set, whether or not the others are, and
whose bits above the access are 0, and changes nothing but the model's draw counter. -/
def Obligations.BufferAccessesShareOneByteArray : Prop :=
  ∀ (a : Nat) (w : Width) (s : State), s.status.busy = false → a % w.bytes = 0 →
    (∀ v : Word, 0x10000 ≤ a → a < 0x10000 + Config.bufBytes →
      ∃ t, engineAccess a w (.write v) s = (.written, t) ∧
        (∀ j < w.bytes, peek t.mem (a + j) = some (v.extractLsb' (8 * j) 8)) ∧
        sameBytesOutside a w.bytes s t ∧ t = { s with mem := t.mem }) ∧
    ((0x10000 ≤ a ∧ a < 0x10000 + Config.bufBytes) ∨ (0x20000 ≤ a ∧ a < 0x20000 + Config.bufBytes + 8) →
      ∃ v t, engineAccess a w .read s = (.data v, t) ∧ t = { s with draws := t.draws } ∧ v.toNat < 256 ^ w.bytes ∧
        ∀ j < w.bytes, ∀ b, peek s.mem (a + j) = some b → v.extractLsb' (8 * j) 8 = b)

/-- R66 with R65 in the model's form (log 4): while idle, an aligned read of any width at an IN or OUT offset answers
the free byte of number `draws + j` in bits [8j+7:8j] wherever byte `j` of the access is unset, and moves the draw
counter on by the bytes of the access, so that the same read again is another draw; nothing else changes, so the byte
stays unset. The second clause is the 8-bit read written out. -/
def Obligations.UnsetBytesReadAsFreshDraws : Prop :=
  ∀ (a : Nat) (s : State), s.status.busy = false →
    (0x10000 ≤ a ∧ a < 0x10000 + Config.bufBytes) ∨ (0x20000 ≤ a ∧ a < 0x20000 + Config.bufBytes + 8) →
    (∀ w : Width, a % w.bytes = 0 →
      ∃ v, engineAccess a w .read s = (.data v, { s with draws := s.draws + w.bytes }) ∧ v.toNat < 256 ^ w.bytes ∧
        ∀ j < w.bytes, peek s.mem (a + j) = none → v.extractLsb' (8 * j) 8 = Config.freeByte (s.draws + j)) ∧
    (peek s.mem a = none → engineAccess a .w8 .read s =
      (.data ((Config.freeByte s.draws).setWidth 32), { s with draws := s.draws + 1 }))

/-! The host. -/

/-- R180: a key string is valid exactly if it has the length asked for and hex digits only, of either case; the
length is 88 for ChaCha20 and 64 for Magma. -/
def Obligations.KeyStringsValidate : Prop :=
  (∀ (s : List Char) (n : Nat), validateKey s n = true ↔ s.length = n ∧
    ∀ c ∈ s, ('0' ≤ c ∧ c ≤ '9') ∨ ('a' ≤ c ∧ c ≤ 'f') ∨ ('A' ≤ c ∧ c ≤ 'F')) ∧
  chachaKeyDigits = 88 ∧ magmaKeyDigits = 64

/-- R181, with the nibble order that the spec supplies from general knowledge (PRESUMED, log 16): parsing a valid
string of `2m` digits gives `m` bytes, byte `i` from digits `2i` and `2i + 1`, the first digit high. -/
def Obligations.KeyStringsParseInOrder : Prop :=
  (∀ (d : Fin 16), hexVal ("0123456789abcdef".toList.getD d.val 'x') = some d.val ∧
    hexVal ("0123456789ABCDEF".toList.getD d.val 'x') = some d.val) ∧
  ∀ (s : List Char) (m : Nat), validateKey s (2 * m) = true → (parseHex s).length = m ∧
    ∀ i < m, ∃ c d x y, s[2 * i]? = some c ∧ s[2 * i + 1]? = some d ∧ hexVal c = some x ∧ hexVal d = some y ∧
      (parseHex s)[i]? = some (BitVec.ofNat 8 (16 * x + y))

/-- R182 to R185, R187: a valid key string loads the little-endian words of its bytes in order, KEY0 to KEY7 and,
for ChaCha20, NONCE0 to NONCE2 after them, each by one 32-bit write; an invalid one makes no write and stops
the script. -/
def Obligations.KeyLoadingWritesTheKeyWords : Prop :=
  (∀ s : List Char, validateKey s 88 = true →
    loadkeyChacha s =
      (List.range 8).map (fun i => Stmt.wr .w32 (.lit (BitVec.ofNat 32 (0x040 + 4 * i)))
        (.lit (le32at ((parseHex s).take 32) (4 * i)))) ++
      (List.range 3).map (fun i => Stmt.wr .w32 (.lit (BitVec.ofNat 32 (0x060 + 4 * i)))
        (.lit (le32at ((parseHex s).drop 32) (4 * i))))) ∧
  (∀ s : List Char, validateKey s 64 = true →
    loadkeyMagma s = (List.range 8).map (fun i => Stmt.wr .w32 (.lit (BitVec.ofNat 32 (0x040 + 4 * i)))
      (.lit (le32at (parseHex s) (4 * i))))) ∧
  (∀ s : List Char, validateKey s 88 = false → loadkeyChacha s = [.failKey]) ∧
  (∀ s : List Char, validateKey s 64 = false → loadkeyMagma s = [.failKey]) ∧
  ∀ s : State, nextTurn s = .script → nextStmt s.host = some .failKey →
    step s = .next { popTurn s with host := { s.host with stop := some .invalidKeyFormat } }

/-- R97: what OFF and VAL are, and what a script's accesses do, for every form of them. An access inside the window
always answers a next state: the engine is as the access leaves it, the access and its answer are recorded, and its
tuple (R100: write or read, offset, width in bytes, value) goes to the end of the script's encoding, to which loading a
script gives no entry and another master's access adds none; the form of the record, and of the value in the tuple of
an access that got a BusError, are the model's choice (log 11). A write carries the value truncated to the width; a read puts the value in its variable and leaves the other variables;
then the script is at its next statement. An access that gets a BusError stops the script with the engine
unchanged. -/
def Obligations.ScriptAccessesFollowTheBus : Prop :=
  (∀ (h : HostState) (o v : Word) (x : Var), evalOff h (.lit o) = o ∧ evalOff h (.plus o x) = o + getVar h x ∧
    evalVal h (.lit v) = v ∧ evalVal h (.var x) = getVar h x) ∧
  (Width.w8.bytes = 1 ∧ Width.w16.bytes = 2 ∧ Width.w32.bytes = 4) ∧
  (∀ (s : State) (p : List Stmt), scriptEncoding (s.loadScript p) = []) ∧
  (∀ (s t : State) (a : Access), nextTurn s = .bus a → step s = .next t → scriptEncoding t = scriptEncoding s) ∧
  ∀ (s : State) (w : Width) (off : Off) (e : Word) (a : Reply) (u : State), nextTurn s = .script →
    evalOff s.host off = e → e.toNat < 0x30000 →
    (∀ (val : Val) (v : Word), nextStmt s.host = some (.wr w off val) →
      v = BitVec.ofNat 32 ((evalVal s.host val).toNat % 256 ^ w.bytes) →
      engineAccess e.toNat w (.write v) (popTurn s) = (a, u) →
      ∃ t, step s = .next t ∧ SameEngine u t ∧ t.turns = s.turns.tail ∧ t.host.script = s.host.script ∧
        t.host.trace = ⟨.script, ⟨Config.engineBase + e.toNat, w, .write v⟩, a⟩ :: s.host.trace ∧
        scriptEncoding t = scriptEncoding s ++ [(true, e.toNat, w.bytes, some v)] ∧
        t.host.vars = s.host.vars ∧
        (a = .written → t.host.pos = s.host.pos + 1 ∧ t.host.stop = none) ∧
        (a = .busError → SameEngine s t ∧ t.host.stop = some .busError)) ∧
    ∀ x : Var, nextStmt s.host = some (.rd w off x) → engineAccess e.toNat w .read (popTurn s) = (a, u) →
      ∃ t, step s = .next t ∧ SameEngine u t ∧ t.turns = s.turns.tail ∧ t.host.script = s.host.script ∧
        t.host.trace = ⟨.script, ⟨Config.engineBase + e.toNat, w, .read⟩, a⟩ :: s.host.trace ∧
        (∀ v, a = .data v → scriptEncoding t = scriptEncoding s ++ [(false, e.toNat, w.bytes, some v)]) ∧
        (a = .busError → scriptEncoding t = scriptEncoding s ++ [(false, e.toNat, w.bytes, none)]) ∧
        (∀ y, y ≠ x → getVar t.host y = getVar s.host y) ∧
        (∀ v, a = .data v → getVar t.host x = v ∧ t.host.pos = s.host.pos + 1 ∧ t.host.stop = none) ∧
        (a = .busError → SameEngine s t ∧ t.host.stop = some .busError ∧ t.host.vars = s.host.vars)

/-- R97: what a script's other statements do, for every VAL; none of them touches the engine. A script starts at its
first statement with every variable 0. A set and an add change one variable, a label does nothing, an untaken branch
goes on, a taken branch goes to its label (the first one, where the script defines it twice: the model's choice, log
8), and `halt` ends the script. That the mask of `bnz` and `bz` is a VAL is log 18's (DEDUCED). -/
def Obligations.ScriptControlStatements : Prop :=
  (∀ (s : State) (p : List Stmt), SameEngine s (s.loadScript p) ∧ (s.loadScript p).host.script = p ∧
    nextStmt (s.loadScript p).host = p[0]? ∧ ∀ x, getVar (s.loadScript p).host x = 0) ∧
  ∀ s : State, nextTurn s = .script →
    (∀ (x : Var) (val : Val), nextStmt s.host = some (.set x val) → ∃ t, step s = .next t ∧ SameEngine s t ∧
      getVar t.host x = evalVal s.host val ∧ (∀ y, y ≠ x → getVar t.host y = getVar s.host y) ∧
      t.turns = s.turns.tail ∧ t.host = { s.host with vars := t.host.vars, pos := s.host.pos + 1 }) ∧
    (∀ (x : Var) (val : Val), nextStmt s.host = some (.add x val) → ∃ t, step s = .next t ∧ SameEngine s t ∧
      getVar t.host x = getVar s.host x + evalVal s.host val ∧
      (∀ y, y ≠ x → getVar t.host y = getVar s.host y) ∧
      t.turns = s.turns.tail ∧ t.host = { s.host with vars := t.host.vars, pos := s.host.pos + 1 }) ∧
    (∀ l : Label, nextStmt s.host = some (.label l) →
      step s = .next { popTurn s with host := { s.host with pos := s.host.pos + 1 } }) ∧
    (∀ (c : Stmt) (x : Var) (val : Val) (l : Label) (taken : Prop), nextStmt s.host = some c →
      ((c = .bnz x val l ∧ (taken ↔ getVar s.host x &&& evalVal s.host val ≠ 0)) ∨
        (c = .bz x val l ∧ (taken ↔ getVar s.host x &&& evalVal s.host val = 0)) ∨
        (c = .bne x val l ∧ (taken ↔ getVar s.host x ≠ evalVal s.host val))) →
      (¬ taken → step s = .next { popTurn s with host := { s.host with pos := s.host.pos + 1 } }) ∧
      ∀ i : Nat, taken → s.host.script[i]? = some (.label l) →
        (∀ j < i, s.host.script[j]? ≠ some (.label l)) →
        step s = .next { popTurn s with host := { s.host with pos := i } }) ∧
    (nextStmt s.host = some .halt →
      step s = .next { popTurn s with host := { s.host with stop := some .halted } })

/-- R98, R99: the expansions of `cmd M` and of the pseudo-instructions, for every form of OFF, and the names R91 does
not list. That `%s` is variable 0 and that `rdbuf` fills the variables from `b` on is the model's choice (log 6); a hex
string of `wrbuf` is taken by `parseHex`, whose nibble order is log 16's (PRESUMED). -/
def Obligations.ScriptLinesExpandAsListed : Prop :=
  (∀ (n : Nat) (i : Instr), expandLine n (.cmd i.mnemonic) =
    some [.wr .w32 (.lit 0x008) (.lit (encode i))]) ∧
  (∀ (n : Nat) (m : String), (∀ i : Instr, i.mnemonic ≠ m) → expandLine n (.cmd m) = none) ∧
  (∀ n : Nat, expandLine n .chachaEnc = some [.wr .w32 (.lit 0x008) (.lit 0x00000004)] ∧
    expandLine n .chachaDec = some [.wr .w32 (.lit 0x008) (.lit 0x00000004)] ∧
    expandLine n .magmaEnc = some [.wr .w32 (.lit 0x008) (.lit 0x00000009)] ∧
    expandLine n .magmaDec = some [.wr .w32 (.lit 0x008) (.lit 0x0000000A)] ∧
    expandLine n .clrirq = some [.wr .w32 (.lit 0x014) (.lit 0x00000001)] ∧
    expandLine n .wait = some [.label (.fresh n), .rd .w32 (.lit 0x00C) varS, .bnz varS (.lit 0x1) (.fresh n)]) ∧
  (∀ (n k : Nat) (o : Word) (x b : Var),
    expandLine n (.rdbuf (.lit o) k b) =
      some ((List.range k).map (fun j => .rd .w8 (.lit (o + BitVec.ofNat 32 j)) (b + j))) ∧
    expandLine n (.rdbuf (.plus o x) k b) =
      some ((List.range k).map (fun j => .rd .w8 (.plus (o + BitVec.ofNat 32 j) x) (b + j)))) ∧
  (∀ (n : Nat) (k : List Char), expandLine n (.loadkeyChacha k) = some (loadkeyChacha k) ∧
    expandLine n (.loadkeyMagma k) = some (loadkeyMagma k)) ∧
  ∀ (n : Nat) (o : Word) (x : Var) (hex : List Char), validateKey hex (2 * (hex.length / 2)) = true →
    expandLine n (.wrbuf (.lit o) hex) = some ((List.range (hex.length / 2)).map (fun j =>
      .wr .w8 (.lit (o + BitVec.ofNat 32 j)) (.lit (((parseHex hex).getD j 0).setWidth 32)))) ∧
    expandLine n (.wrbuf (.plus o x) hex) = some ((List.range (hex.length / 2)).map (fun j =>
      .wr .w8 (.plus (o + BitVec.ofNat 32 j) x) (.lit (((parseHex hex).getD j 0).setWidth 32))))

/-- R190: the statements of the three byte operations, in order: the key load, the data to IN, LEN, the command, `wait`,
and the check of DONE and ERR with the read-out of OUT. That the data goes to IN by one 8-bit write per byte from IN[0]
up, and the form of the check and read-out, are the model's choice (log 27). -/
def Obligations.ByteOperationsAreTheListedSequences : Prop :=
  readOutStmts =
    [.bz varS (.lit 0x2) (.user 0), .bnz varS (.lit 0x4) (.user 0),
      .rd .w32 (.lit 0x01C) 1, .bne 2 (.var 1) (.user 1), .label (.user 0), .halt,
      .label (.user 1), .rd .w8 (.plus 0x20000 2) 3, .add 2 (.lit 1), .bne 2 (.var 1) (.user 1), .halt] ∧
  ∀ (d : List Byte) (keyString : List Char),
    let writes := (List.range d.length).map (fun k =>
      Stmt.wr .w8 (.lit (BitVec.ofNat 32 (0x10000 + k))) (.lit ((d.getD k 0).setWidth 32)))
    let rest (command : Word) := [Stmt.wr .w32 (.lit 0x018) (.lit (BitVec.ofNat 32 d.length)),
      .wr .w32 (.lit 0x008) (.lit command)] ++ waitStmts (.fresh (d.length + 3)) ++ readOutStmts
    expandScript (chachaBytesScript d keyString) = some (loadkeyChacha keyString ++ writes ++ rest 0x04) ∧
    expandScript (magmaEncryptScript d keyString) = some (loadkeyMagma keyString ++ writes ++ rest 0x09) ∧
    expandScript (magmaDecryptScript d keyString) = some (loadkeyMagma keyString ++ writes ++ rest 0x0A)

/-- R190 with R187, in the model's form of the read-out (log 27): once `wait` has left the final STATUS in `%s` and no
other agent moves, the rest of a byte operation ends, changing nothing in the engine but the draws, with the result
that STATUS names: the error in ERRCODE, else OUT[0..OUT_LEN-1]; with DONE clear it has none. A key string that does not
validate is the result InvalidKeyFormat; a script that runs yet, or that a BusError stopped, has no result. -/
def Obligations.ByteOperationResultFollowsTheFinalStatus : Prop :=
  (∀ s : State, s.host.stop = some .invalidKeyFormat → facadeResult s = some (.error .invalidKeyFormat)) ∧
  (∀ s : State, s.host.stop = none ∨ s.host.stop = some .busError → facadeResult s = none) ∧
  ∀ (s : State) (before : List Stmt), s.turns = [] → s.status.busy = false → s.host.stop = none →
    s.host.script = before ++ readOutStmts → s.host.pos = before.length →
    Stmt.label (.user 0) ∉ before → Stmt.label (.user 1) ∉ before →
    getVar s.host varS = s.status.word → getVar s.host 2 = 0 → bytesReadByScript s.host = [] →
    (s.status.done = false → ∃ (n : Nat) (t : State), Host.Core.run Sys2Proof.core n s = .next t ∧ SameEngine s t ∧
      t.host.stop = some .halted ∧ facadeResult t = none) ∧
    (s.status.done = true → s.status.err = true → ∃ (n : Nat) (t : State), Host.Core.run Sys2Proof.core n s = .next t ∧
      SameEngine s t ∧ t.host.stop = some .halted ∧ facadeResult t = some (.error s.status.errcode)) ∧
    ∀ d : List Byte, s.status.done = true → s.status.err = false → s.outLen.toNat ≤ Config.bufBytes + 8 →
      d.length = s.outLen.toNat → (∀ j < d.length, peek s.mem (0x20000 + j) = d[j]?) →
      ∃ (n : Nat) (t : State), Host.Core.run Sys2Proof.core n s = .next t ∧ t = { s with draws := t.draws, host := t.host } ∧
        t.host.stop = some .halted ∧ facadeResult t = some (.ok d)
end

