-- ==== Sys2Proof/Laws/Memory.lean ====
section
/-! SUPPORT. The laws of sorted cell lists and of the buffers' bytes: read after write, canonical form, and the
bounds of the buffer size. -/

namespace Sys2Proof.Machine

section Cells
variable {α : Type}

theorem cellGet_cellPut (m : List (Nat × α)) (a : Nat) (b : α) (c : Nat) :
    cellGet (cellPut m a b) c = if a = c then some b else cellGet m c := by
  induction m with
  | nil => simp [cellPut, cellGet]
  | cons kv m ih =>
    obtain ⟨k, v⟩ := kv
    simp only [cellPut]
    split
    · simp [cellGet]
    · split
      · next h => subst h; by_cases hc : k = c <;> simp [cellGet, hc]
      · next h =>
        by_cases hk : k = c
        · subst hk; simp [cellGet, Ne.symm h]
        · simp [cellGet, hk, ih]

theorem risingAbove_mono {lo lo' : Nat} (h : lo' ≤ lo) :
    ∀ {m : List (Nat × α)}, risingAbove (some lo) m = true → risingAbove (some lo') m = true
  | [], _ => rfl
  | (k, v) :: m, hm => by
    simp only [risingAbove, Bool.and_eq_true, decide_eq_true_eq] at hm ⊢
    exact ⟨lt_of_le_of_lt h hm.1, hm.2⟩

theorem risingAbove_none_of_some {lo : Nat} {m : List (Nat × α)} (h : risingAbove (some lo) m = true) :
    risingAbove none m = true := by
  cases m with
  | nil => rfl
  | cons kv m => simp [risingAbove] at h ⊢; exact h.2

/-- Putting above a bound keeps the list rising above it. -/
theorem risingAbove_cellPut {a : Nat} (b : α) {lo : Nat} {m : List (Nat × α)} (ha : lo < a)
    (hm : risingAbove (some lo) m = true) : risingAbove (some lo) (cellPut m a b) = true := by
  induction m generalizing lo with
  | nil => simpa [cellPut, risingAbove] using ha
  | cons kv m ih =>
    obtain ⟨k, v⟩ := kv
    simp only [risingAbove, Bool.and_eq_true, decide_eq_true_eq] at hm
    simp only [cellPut]
    split
    · next h => simp [risingAbove, ha, h, hm.2]
    · split
      · next h => subst h; simp [risingAbove, ha, hm.2]
      · next h1 h2 =>
        simp only [risingAbove, Bool.and_eq_true, decide_eq_true_eq]
        exact ⟨hm.1, ih (by omega) hm.2⟩

theorem rising_cellPut {m : List (Nat × α)} (a : Nat) (b : α) (hm : risingAbove none m = true) :
    risingAbove none (cellPut m a b) = true := by
  cases m with
  | nil => rfl
  | cons kv m =>
    obtain ⟨k, v⟩ := kv
    simp only [risingAbove] at hm
    simp only [cellPut]
    split
    · next h => simp [risingAbove, h, hm]
    · split
      · next h => subst h; simpa [risingAbove] using hm
      · next h1 h2 =>
        simp only [risingAbove]
        exact risingAbove_cellPut b (by omega) hm

/-- A list rising above a bound lists nothing at or below it. -/
theorem cellGet_of_risingAbove {lo : Nat} {m : List (Nat × α)} (h : risingAbove (some lo) m = true) {a : Nat}
    (ha : a ≤ lo) : cellGet m a = none := by
  induction m generalizing lo with
  | nil => rfl
  | cons kv m ih =>
    obtain ⟨k, v⟩ := kv
    simp only [risingAbove, Bool.and_eq_true, decide_eq_true_eq] at h
    have : k ≠ a := by omega
    simp [cellGet, this, ih h.2 (by omega)]

theorem risingAbove_filter (p : Nat × α → Bool) :
    ∀ {lo : Nat} {m : List (Nat × α)}, risingAbove (some lo) m = true →
      risingAbove (some lo) (m.filter p) = true := by
  intro lo m hm
  induction m generalizing lo with
  | nil => rfl
  | cons kv m ih =>
    obtain ⟨k, v⟩ := kv
    simp only [risingAbove, Bool.and_eq_true, decide_eq_true_eq] at hm
    by_cases hp : p (k, v)
    · simp [hp, risingAbove, hm.1, ih hm.2]
    · simp only [List.filter_cons, hp]
      exact risingAbove_mono (le_of_lt hm.1) (ih hm.2)

theorem rising_cellDrop {m : List (Nat × α)} (a : Nat) (hm : risingAbove none m = true) :
    risingAbove none (cellDrop m a) = true := by
  cases m with
  | nil => rfl
  | cons kv m =>
    obtain ⟨k, v⟩ := kv
    simp only [risingAbove] at hm
    have h := risingAbove_filter (fun c => c.1 != a) hm
    by_cases hk : k = a
    · simp only [cellDrop, List.filter_cons, hk, bne_self_eq_false, Bool.false_eq_true, if_false]
      rw [hk] at h; exact risingAbove_none_of_some h
    · simp [cellDrop, hk, risingAbove]; exact h

theorem all_cellPut {p : Nat × α → Bool} {m : List (Nat × α)} {a : Nat} {b : α} (hb : p (a, b) = true)
    (hm : m.all p = true) : (cellPut m a b).all p = true := by
  induction m with
  | nil => simpa [cellPut] using hb
  | cons kv m ih =>
    obtain ⟨k, v⟩ := kv
    simp only [List.all_cons, Bool.and_eq_true] at hm
    simp only [cellPut]
    split
    · simp [hb, hm.1, hm.2]
    · split
      · simp [hb, hm.2]
      · simp [hm.1, ih hm.2]

theorem cellGet_cellDrop (m : List (Nat × α)) (a c : Nat) :
    cellGet (cellDrop m a) c = if a = c then none else cellGet m c := by
  induction m with
  | nil => simp [cellDrop, cellGet]
  | cons kv m ih =>
    obtain ⟨k, v⟩ := kv
    by_cases hk : k = a
    · subst hk
      have : cellDrop ((k, v) :: m) k = cellDrop m k := by simp [cellDrop]
      rw [this, ih]
      by_cases hc : k = c <;> simp [cellGet, hc]
    · have : cellDrop ((k, v) :: m) a = (k, v) :: cellDrop m a := by simp [cellDrop, hk]
      rw [this]
      by_cases hc : k = c
      · subst hc; simp [cellGet, Ne.symm hk]
      · simp [cellGet, hc, ih]

end Cells

/-! The buffers' bytes. -/

@[simp] theorem peek_nil (a : Nat) : peek [] a = none := rfl

theorem peek_eq_cellGet (m : Memory) (a : Nat) : peek m a = cellGet m a := by
  unfold peek Memory.unlisted; split <;> simp_all

theorem peek_poke (m : Memory) (a : Nat) (b : Byte) (c : Nat) :
    peek (poke m a b) c = if a = c then some b else peek m c := by
  simp [peek_eq_cellGet, poke, cellGet_cellPut]

/-- Read after write: the bytes written, and every other byte as before. -/
theorem peek_pokes (bs : List Byte) (m : Memory) (a c : Nat) :
    peek (pokes m a bs) c = if a ≤ c ∧ c < a + bs.length then bs[c - a]? else peek m c := by
  induction bs generalizing m a with
  | nil => simp [pokes]
  | cons b bs ih =>
    simp only [pokes, ih, peek_poke, List.length_cons]
    by_cases h : a = c
    · subst h; simp
    · by_cases h2 : a + 1 ≤ c ∧ c < a + 1 + bs.length
      · have h3 : a ≤ c ∧ c < a + (bs.length + 1) := by omega
        have h4 : c - a = (c - (a + 1)) + 1 := by omega
        simp [h2, h3, h4]
      · have h3 : ¬ (a ≤ c ∧ c < a + (bs.length + 1)) := by omega
        rw [if_neg h2, if_neg h3, if_neg h]

theorem peek_pokes_inside {bs : List Byte} {m : Memory} {a j : Nat} (h : j < bs.length) :
    peek (pokes m a bs) (a + j) = bs[j]? := by
  have : a ≤ a + j ∧ a + j < a + bs.length := by omega
  simp [peek_pokes, this]

theorem peek_pokes_outside {bs : List Byte} {m : Memory} {a c : Nat} (h : ¬ (a ≤ c ∧ c < a + bs.length)) :
    peek (pokes m a bs) c = peek m c := by
  rw [peek_pokes, if_neg h]

theorem poke_wf {m : Memory} (a : Nat) (b : Byte) (h : Memory.wf m = true) : Memory.wf (poke m a b) = true :=
  rising_cellPut a b h

/-- Every write keeps the canonical form. -/
theorem pokes_wf (bs : List Byte) {m : Memory} (a : Nat) (h : Memory.wf m = true) :
    Memory.wf (pokes m a bs) = true := by
  induction bs generalizing m a with
  | nil => exact h
  | cons b bs ih => exact ih (a + 1) (poke_wf a b h)

theorem pokes_inBuffers (bs : List Byte) {m : Memory} (a : Nat) (h : Memory.inBuffers m = true)
    (hb : ∀ j < bs.length, inIn (a + j) = true ∨ inOut (a + j) = true) :
    Memory.inBuffers (pokes m a bs) = true := by
  induction bs generalizing m a with
  | nil => exact h
  | cons b bs ih =>
    refine ih (a + 1) (all_cellPut ?_ h) ?_
    · simpa using hb 0 (by simp)
    · intro j hj
      have := hb (j + 1) (by simpa using hj)
      rwa [show a + (j + 1) = a + 1 + j by omega] at this

@[simp] theorem readBytes_length (m : Memory) (d a n : Nat) : (readBytes m d a n).length = n := by
  simp [readBytes]

theorem readBytes_getElem? (m : Memory) (d a n : Nat) {j : Nat} (h : j < n) :
    (readBytes m d a n)[j]? = some (readByte m (d + j) (a + j)) := by
  simp [readBytes, h]

/-- Set bytes read as they were set, whatever the draws. -/
theorem readBytes_of_peek {m : Memory} {d a : Nat} {bs : List Byte}
    (h : ∀ j, j < bs.length → peek m (a + j) = bs[j]?) : readBytes m d a bs.length = bs := by
  apply List.ext_getElem?
  intro j
  by_cases hj : j < bs.length
  · rw [readBytes_getElem? _ _ _ _ hj]
    simp [readByte, h j hj, hj]
  · simp [hj]

/-! The buffer size (R6). -/

theorem bufBytes_mod : Config.bufBytes % 64 = 0 := by unfold Config.bufBytes; omega

theorem bufBytes_ge : 64 ≤ Config.bufBytes := by unfold Config.bufBytes; omega

theorem bufBytes_le : Config.bufBytes ≤ 65472 := by
  have := Config.bufUnits.isLt
  unfold Config.bufBytes; omega

theorem inIn_iff (a : Nat) : inIn a = true ↔ inBase ≤ a ∧ a < inBase + Config.bufBytes := by simp [inIn]

theorem inOut_iff (a : Nat) : inOut a = true ↔ outBase ≤ a ∧ a < outBase + Config.bufBytes + 8 := by simp [inOut]

end Sys2Proof.Machine
end

