-- ==== Sys2Proof/Laws/Algorithms.lean ====
section
/-! SUPPORT. The algorithms' small lemmas: lengths, places and block-by-block equations of the ChaCha20 and Magma
functions (40_chacha20.md, 41_magma.md), and the byte packing of 00_scope.md R11. -/

namespace Sys2Proof.Machine

/-! Byte packing. -/

@[simp] theorem bytesLe_length (w : Word) : (bytesLe w).length = 4 := rfl

/-- Bit `i` of a packed word is bit `i % 8` of byte `i / 8`. -/
theorem le32_getLsbD (b0 b1 b2 b3 : Byte) (i : Nat) :
    (le32 b0 b1 b2 b3).getLsbD i =
      if i < 8 then b0.getLsbD i
      else if i < 16 then b1.getLsbD (i - 8)
      else if i < 24 then b2.getLsbD (i - 16)
      else if i < 32 then b3.getLsbD (i - 24)
      else false := by
  simp only [le32, BitVec.getLsbD_or, BitVec.getLsbD_shiftLeft, BitVec.getLsbD_setWidth]
  by_cases h1 : i < 8
  · simp [h1, show i < 16 by omega, show i < 24 by omega, show i < 32 by omega]
  · by_cases h2 : i < 16
    · simp [h1, h2, show i < 24 by omega, show i < 32 by omega, show i - 8 < 32 by omega,
        BitVec.getLsbD_of_ge b0 i (by omega)]
    · by_cases h3 : i < 24
      · simp [h1, h2, h3, show i < 32 by omega, show i - 8 < 32 by omega, show i - 16 < 32 by omega,
          BitVec.getLsbD_of_ge b0 i (by omega), BitVec.getLsbD_of_ge b1 (i - 8) (by omega)]
      · by_cases h4 : i < 32
        · simp [h1, h2, h3, h4, show i - 8 < 32 by omega, show i - 16 < 32 by omega, show i - 24 < 32 by omega,
            BitVec.getLsbD_of_ge b0 i (by omega), BitVec.getLsbD_of_ge b1 (i - 8) (by omega),
            BitVec.getLsbD_of_ge b2 (i - 16) (by omega)]
        · simp [h1, h2, h3, h4]

/-- Unpacking a word and packing it again gives the word (R11). -/
theorem le32_bytesLe (w : Word) :
    le32 (w.extractLsb' 0 8) (w.extractLsb' 8 8) (w.extractLsb' 16 8) (w.extractLsb' 24 8) = w := by
  apply BitVec.eq_of_getLsbD_eq
  intro i hi
  rw [le32_getLsbD]
  simp only [BitVec.getLsbD_extractLsb']
  split
  · next h => simp [h]
  · split
    · next h1 h2 => simp [show i - 8 < 8 by omega, show 8 + (i - 8) = i by omega]
    · split
      · next h1 h2 h3 => simp [show i - 16 < 8 by omega, show 16 + (i - 16) = i by omega]
      · simp [hi, show i - 24 < 8 by omega, show 24 + (i - 24) = i by omega]

/-- Packing four bytes and unpacking them again gives the bytes (R11). -/
theorem bytesLe_le32 (b0 b1 b2 b3 : Byte) : bytesLe (le32 b0 b1 b2 b3) = [b0, b1, b2, b3] := by
  simp only [bytesLe, List.cons.injEq, and_true]
  refine ⟨?_, ?_, ?_, ?_⟩ <;> apply BitVec.eq_of_getLsbD_eq <;> intro i hi <;>
    simp only [BitVec.getLsbD_extractLsb', le32_getLsbD, hi, decide_true, Bool.true_and, Nat.zero_add]
  · simp
  · simp [show ¬ 8 + i < 8 by omega, show 8 + i < 16 by omega]
  · simp [show ¬ 16 + i < 8 by omega, show ¬ 16 + i < 16 by omega, show 16 + i < 24 by omega]
  · simp [show ¬ 24 + i < 8 by omega, show ¬ 24 + i < 16 by omega, show ¬ 24 + i < 24 by omega,
      show 24 + i < 32 by omega]

theorem le32at_words (a b : Word) :
    le32at (bytesLe a ++ bytesLe b) 0 = a ∧ le32at (bytesLe a ++ bytesLe b) 4 = b :=
  ⟨le32_bytesLe a, le32_bytesLe b⟩

theorem assembleLe_four (b0 b1 b2 b3 : Byte) : assembleLe [b0, b1, b2, b3] = le32 b0 b1 b2 b3 := by
  apply BitVec.eq_of_getLsbD_eq
  intro i hi
  simp only [assembleLe, le32, BitVec.getLsbD_or, BitVec.getLsbD_shiftLeft, BitVec.getLsbD_setWidth]
  by_cases h1 : i < 8
  · simp [h1, show i < 16 by omega, show i < 24 by omega]
  · by_cases h2 : i < 16
    · simp [h1, h2, show i < 24 by omega, show i - 8 < 8 by omega]
    · by_cases h3 : i < 24
      · simp [h1, h2, h3, hi, show ¬ i - 8 < 8 by omega, show i - 8 < 32 by omega, Bool.or_assoc,
          show i - 16 < 32 by omega, show i - 8 - 8 = i - 16 by omega, show i - 16 < 8 by omega]
      · simp [h1, h2, h3, hi, show ¬ i - 8 < 8 by omega, show i - 8 < 32 by omega, Bool.or_assoc,
          show i - 16 < 32 by omega, show i - 8 - 8 = i - 16 by omega, show i - 16 - 8 = i - 24 by omega,
          show i - 24 < 32 by omega, show ¬ i - 16 < 8 by omega]

/-! ChaCha20. -/

@[simp] theorem ksBytes_length (ks : Vector Word 16) : (ksBytes ks).length = 64 := by
  simp [ksBytes, List.length_flatMap]

@[simp] theorem keystream_length (k : Vector Word 8) (n : Vector Word 3) (b : Nat) :
    (keystream k n b).length = 64 * b := by
  simp [keystream, List.length_flatMap, Nat.mul_comm]

@[simp] theorem chachaXor_length (k : Vector Word 8) (n : Vector Word 3) (d : List Byte) :
    (chachaXor k n d).length = d.length := by
  simp [chachaXor]; omega

/-- Element `64 * i + j` of equal-size pieces laid end to end is element `j` of piece `i`. -/
theorem flatMap_range_getElem? {α : Type} (f : Nat → List α) (m : Nat) (hf : ∀ i, (f i).length = m) (n i j : Nat)
    (hi : i < n) (hj : j < m) : ((List.range n).flatMap f)[m * i + j]? = (f i)[j]? := by
  induction n with
  | zero => omega
  | succ n ih =>
    rw [List.range_succ, List.flatMap_append]
    have hl : ((List.range n).flatMap f).length = m * n := by simp [List.length_flatMap, hf, Nat.mul_comm]
    by_cases h : i < n
    · have : m * i + j < m * n := by
        have := Nat.mul_le_mul_left m (Nat.succ_le_of_lt h)
        rw [Nat.mul_succ] at this; omega
      rw [List.getElem?_append_left (by omega), ih h]
    · have : i = n := by omega
      subst this
      rw [List.getElem?_append_right (by omega), hl, Nat.add_sub_cancel_left]
      simp

theorem flatMap_four_getElem? (f : Word → List Byte) (hf : ∀ w, (f w).length = 4) (ws : List Word) (j : Nat) :
    (ws.flatMap f)[j]? = ws[j / 4]?.bind (fun w => (f w)[j % 4]?) := by
  induction ws generalizing j with
  | nil => simp
  | cons w ws ih =>
    rw [List.flatMap_cons]
    by_cases h : j < 4
    · rw [List.getElem?_append_left (by rw [hf]; exact h)]
      simp [Nat.div_eq_of_lt h, Nat.mod_eq_of_lt h]
    · rw [List.getElem?_append_right (by rw [hf]; omega), hf, ih]
      have h1 : j / 4 = (j - 4) / 4 + 1 := by omega
      have h2 : j % 4 = (j - 4) % 4 := by omega
      rw [h1, h2]; simp

theorem bytesLe_getElem? (w : Word) {r : Nat} (h : r < 4) : (bytesLe w)[r]? = some (w.extractLsb' (8 * r) 8) := by
  obtain rfl | rfl | rfl | rfl : r = 0 ∨ r = 1 ∨ r = 2 ∨ r = 3 := by omega
  all_goals rfl

/-- The keystream bytes in order are the bytes `ksByte` names (R116). -/
theorem ksBytes_getElem? (ks : Vector Word 16) {j : Nat} (h : j < 64) : (ksBytes ks)[j]? = some (ksByte ks j) := by
  have hj : j / 4 < ks.toList.length := by simp; omega
  rw [ksBytes, flatMap_four_getElem? _ (fun _ => rfl), List.getElem?_eq_getElem hj]
  simp only [Option.bind_some]
  rw [bytesLe_getElem? _ (Nat.mod_lt _ (by omega))]
  simp only [ksByte, List.getD_eq_getElem?_getD, List.getElem?_eq_getElem hj, Option.getD_some, Option.some.injEq]
  apply BitVec.eq_of_getLsbD_eq
  intro i hi
  simp [hi]

/-- Keystream byte `64 * i + j` is byte `j` of block `i`. -/
theorem keystream_getElem? (k : Vector Word 8) (n : Vector Word 3) {b i j : Nat} (hi : i < b) (hj : j < 64) :
    (keystream k n b)[64 * i + j]? = some (ksByte (chachaBlock (chachaInit k (BitVec.ofNat 32 i) n)) j) := by
  rw [keystream, flatMap_range_getElem? _ 64 (fun _ => by simp) b i j hi hj, ksBytes_getElem? _ hj]

/-! Magma. -/

@[simp] theorem magmaBlock_length (k : Vector Word 8) (idx : List (Fin 8)) (b : List Byte) :
    (magmaBlock k idx b).length = 8 := rfl

theorem mapBlocks_cons (f : List Byte → List Byte) (b0 b1 b2 b3 b4 b5 b6 b7 : Byte) (rest : List Byte) :
    mapBlocks f (b0 :: b1 :: b2 :: b3 :: b4 :: b5 :: b6 :: b7 :: rest) =
      f [b0, b1, b2, b3, b4, b5, b6, b7] ++ mapBlocks f rest := rfl

theorem mapBlocks_short (f : List Byte → List Byte) {b : List Byte} (h : b.length < 8) : mapBlocks f b = [] := by
  match b with
  | [] | [_] | [_, _] | [_, _, _] | [_, _, _, _] | [_, _, _, _, _] | [_, _, _, _, _, _] | [_, _, _, _, _, _, _] => rfl
  | _ :: _ :: _ :: _ :: _ :: _ :: _ :: _ :: _ => simp at h; omega

/-- A list of at least eight bytes is a block and a rest. -/
theorem exists_block {b : List Byte} (h : 8 ≤ b.length) : ∃ b0 b1 b2 b3 b4 b5 b6 b7 rest,
    b = b0 :: b1 :: b2 :: b3 :: b4 :: b5 :: b6 :: b7 :: rest := by
  match b with
  | [] | [_] | [_, _] | [_, _, _] | [_, _, _, _] | [_, _, _, _, _] | [_, _, _, _, _, _] | [_, _, _, _, _, _, _] =>
    simp at h
  | b0 :: b1 :: b2 :: b3 :: b4 :: b5 :: b6 :: b7 :: rest => exact ⟨b0, b1, b2, b3, b4, b5, b6, b7, rest, rfl⟩

/-- Induction over whole blocks. -/
theorem block_induction {P : List Byte → Prop} (short : ∀ b, b.length < 8 → P b)
    (step : ∀ b0 b1 b2 b3 b4 b5 b6 b7 rest, P rest → P (b0 :: b1 :: b2 :: b3 :: b4 :: b5 :: b6 :: b7 :: rest)) :
    ∀ b, P b := by
  intro b
  generalize hn : b.length = n
  induction n using Nat.strong_induction_on generalizing b with
  | _ n ih =>
    by_cases h : b.length < 8
    · exact short b h
    · obtain ⟨b0, b1, b2, b3, b4, b5, b6, b7, rest, rfl⟩ := exists_block (b := b) (by omega)
      exact step _ _ _ _ _ _ _ _ _ (ih rest.length (by simp at hn; omega) rest rfl)

theorem mapBlocks_length {f : List Byte → List Byte} (hf : ∀ b, (f b).length = 8) (b : List Byte) :
    (mapBlocks f b).length = 8 * (b.length / 8) := by
  induction b using block_induction with
  | short b h => simp [mapBlocks_short f h, Nat.div_eq_of_lt h]
  | step b0 b1 b2 b3 b4 b5 b6 b7 rest ih => simp [mapBlocks_cons, hf, ih]; omega

/-- Whole blocks in front are transformed on their own (R149). -/
theorem mapBlocks_append {f : List Byte → List Byte} (a b : List Byte) (h : a.length % 8 = 0) :
    mapBlocks f (a ++ b) = mapBlocks f a ++ mapBlocks f b := by
  induction a using block_induction with
  | short a ha =>
    obtain rfl : a = [] := List.length_eq_zero_iff.mp (by omega)
    simp [mapBlocks]
  | step b0 b1 b2 b3 b4 b5 b6 b7 rest ih =>
    simp only [List.length_cons] at h
    simp only [List.cons_append, mapBlocks_cons, List.append_assoc]
    rw [ih (by omega)]

theorem padLength_pos (n : Nat) : 1 ≤ padLength n ∧ padLength n ≤ 8 := by unfold padLength; omega

@[simp] theorem pad_length (d : List Byte) : (pad d).length = 8 * (d.length / 8 + 1) := by
  simp only [pad, padLength, List.length_append, List.length_replicate]; omega

@[simp] theorem magmaEncrypt_length (k : Vector Word 8) (d : List Byte) :
    (magmaEncrypt k d).length = 8 * (d.length / 8 + 1) := by
  rw [magmaEncrypt, mapBlocks_length (fun _ => rfl), pad_length]; omega

@[simp] theorem magmaDecryptBlocks_length (k : Vector Word 8) (c : List Byte) :
    (magmaDecryptBlocks k c).length = 8 * (c.length / 8) :=
  mapBlocks_length (fun _ => rfl) c

theorem unpad_length_le (o : List Byte) : (unpad o).length ≤ o.length := by
  unfold unpad; split
  · exact le_rfl
  · split <;> simp

/-- The block function is the schedule's rounds, with the halves swapped on the way out (R148). -/
theorem magmaBlock_words (k : Vector Word 8) (idx : List (Fin 8)) (l r : Word) :
    magmaBlock k idx (bytesLe l ++ bytesLe r) =
      bytesLe (feistel k idx (l, r)).2 ++ bytesLe (feistel k idx (l, r)).1 := by
  unfold magmaBlock; rw [(le32at_words l r).1, (le32at_words l r).2]

/-- A Feistel round undone: swap, the same round, swap (R145). -/
theorem feistelRound_swap (p : Word × Word) (k : Word) :
    feistelRound (feistelRound p k).swap k = p.swap := by
  obtain ⟨l, r⟩ := p
  simp [feistelRound]

/-! Little-endian assembly (R12). -/

/-- Assembly puts the first byte in the low bits and the rest above it. -/
theorem assembleLe_cons_extract (b : Byte) (l : List Byte) :
    (assembleLe (b :: l)).extractLsb' 0 8 = b := by
  apply BitVec.eq_of_getLsbD_eq
  intro i hi
  simp [assembleLe, hi]
  omega

theorem assembleLe_cons_extract_succ (b : Byte) (l : List Byte) {j : Nat} (hj : j < 3) :
    (assembleLe (b :: l)).extractLsb' (8 * (j + 1)) 8 = (assembleLe l).extractLsb' (8 * j) 8 := by
  apply BitVec.eq_of_getLsbD_eq
  intro i hi
  have h1 : ¬ 8 * (j + 1) + i < 8 := by omega
  have h2 : 8 * (j + 1) + i - 8 = 8 * j + i := by omega
  have h3 : 8 * (j + 1) + i < 32 := by omega
  have h4 : b.getLsbD (8 * (j + 1) + i) = false := BitVec.getLsbD_of_ge _ _ (by omega)
  simp [assembleLe, hi, h1, h2, h3, h4, BitVec.getLsbD_eq_getElem (show 8 * j + i < 32 by omega)]

theorem assembleLe_cons_toNat (b : Byte) (l : List Byte) (h : (assembleLe l).toNat < 2 ^ 24) :
    (assembleLe (b :: l)).toNat = b.toNat + 256 * (assembleLe l).toNat := by
  have hb := b.isLt
  rw [assembleLe, BitVec.toNat_or, BitVec.toNat_shiftLeft, BitVec.toNat_setWidth,
    Nat.mod_eq_of_lt (a := b.toNat) (by omega), Nat.shiftLeft_eq, Nat.mod_eq_of_lt (by omega), Nat.mul_comm,
    Nat.or_comm, ← Nat.two_pow_add_eq_or_of_lt (i := 8) hb (assembleLe l).toNat]
  omega

/-- Up to four bytes assembled: byte `j` is bits [8j+7:8j], and nothing stands above them. -/
theorem assembleLe_spec : ∀ l : List Byte, l.length ≤ 4 →
    (assembleLe l).toNat < 256 ^ l.length ∧
    ∀ j, j < l.length → l[j]? = some ((assembleLe l).extractLsb' (8 * j) 8)
  | [], _ => by simp [assembleLe]
  | b :: l, h => by
    have h : l.length ≤ 3 := by rw [List.length_cons] at h; omega
    obtain ⟨h1, h2⟩ := assembleLe_spec l (by omega)
    have hlt : (assembleLe l).toNat < 2 ^ 24 :=
      Nat.lt_of_lt_of_le h1 (by simpa using Nat.pow_le_pow_right (n := 256) (by decide) h)
    refine ⟨?_, fun j hj => ?_⟩
    · rw [assembleLe_cons_toNat b l hlt, List.length_cons, Nat.pow_succ]
      have := b.isLt
      omega
    · cases j with
      | zero => simp [assembleLe_cons_extract]
      | succ j =>
        rw [List.length_cons] at hj
        rw [assembleLe_cons_extract_succ b l (by omega), List.getElem?_cons_succ]
        exact h2 j (by omega)
end Sys2Proof.Machine
end

