-- ==== Sys2Proof/Laws/State.lean ====
section
/-! SUPPORT. One lemma per field per field update: an update writes its own field and leaves every other. -/

namespace Sys2Proof.Machine

variable (s : State)

section
variable (v : Word)
@[simp] theorem setCmd_cmd : (s.setCmd v).cmd = v := rfl
@[simp] theorem setCmd_status : (s.setCmd v).status = s.status := rfl
@[simp] theorem setCmd_doneIe : (s.setCmd v).doneIe = s.doneIe := rfl
@[simp] theorem setCmd_doneIp : (s.setCmd v).doneIp = s.doneIp := rfl
@[simp] theorem setCmd_len : (s.setCmd v).len = s.len := rfl
@[simp] theorem setCmd_outLen : (s.setCmd v).outLen = s.outLen := rfl
@[simp] theorem setCmd_ctr : (s.setCmd v).ctr = s.ctr := rfl
@[simp] theorem setCmd_key : (s.setCmd v).key = s.key := rfl
@[simp] theorem setCmd_nonce : (s.setCmd v).nonce = s.nonce := rfl
@[simp] theorem setCmd_w : (s.setCmd v).w = s.w := rfl
@[simp] theorem setCmd_scr : (s.setCmd v).scr = s.scr := rfl
@[simp] theorem setCmd_blk : (s.setCmd v).blk = s.blk := rfl
@[simp] theorem setCmd_mem : (s.setCmd v).mem = s.mem := rfl
@[simp] theorem setCmd_draws : (s.setCmd v).draws = s.draws := rfl
@[simp] theorem setCmd_turns : (s.setCmd v).turns = s.turns := rfl
@[simp] theorem setCmd_host : (s.setCmd v).host = s.host := rfl
end

section
variable (v : Status)
@[simp] theorem setStatus_cmd : (s.setStatus v).cmd = s.cmd := rfl
@[simp] theorem setStatus_status : (s.setStatus v).status = v := rfl
@[simp] theorem setStatus_doneIe : (s.setStatus v).doneIe = s.doneIe := rfl
@[simp] theorem setStatus_doneIp : (s.setStatus v).doneIp = s.doneIp := rfl
@[simp] theorem setStatus_len : (s.setStatus v).len = s.len := rfl
@[simp] theorem setStatus_outLen : (s.setStatus v).outLen = s.outLen := rfl
@[simp] theorem setStatus_ctr : (s.setStatus v).ctr = s.ctr := rfl
@[simp] theorem setStatus_key : (s.setStatus v).key = s.key := rfl
@[simp] theorem setStatus_nonce : (s.setStatus v).nonce = s.nonce := rfl
@[simp] theorem setStatus_w : (s.setStatus v).w = s.w := rfl
@[simp] theorem setStatus_scr : (s.setStatus v).scr = s.scr := rfl
@[simp] theorem setStatus_blk : (s.setStatus v).blk = s.blk := rfl
@[simp] theorem setStatus_mem : (s.setStatus v).mem = s.mem := rfl
@[simp] theorem setStatus_draws : (s.setStatus v).draws = s.draws := rfl
@[simp] theorem setStatus_turns : (s.setStatus v).turns = s.turns := rfl
@[simp] theorem setStatus_host : (s.setStatus v).host = s.host := rfl
end

section
variable (v : Bool)
@[simp] theorem setDoneIe_cmd : (s.setDoneIe v).cmd = s.cmd := rfl
@[simp] theorem setDoneIe_status : (s.setDoneIe v).status = s.status := rfl
@[simp] theorem setDoneIe_doneIe : (s.setDoneIe v).doneIe = v := rfl
@[simp] theorem setDoneIe_doneIp : (s.setDoneIe v).doneIp = s.doneIp := rfl
@[simp] theorem setDoneIe_len : (s.setDoneIe v).len = s.len := rfl
@[simp] theorem setDoneIe_outLen : (s.setDoneIe v).outLen = s.outLen := rfl
@[simp] theorem setDoneIe_ctr : (s.setDoneIe v).ctr = s.ctr := rfl
@[simp] theorem setDoneIe_key : (s.setDoneIe v).key = s.key := rfl
@[simp] theorem setDoneIe_nonce : (s.setDoneIe v).nonce = s.nonce := rfl
@[simp] theorem setDoneIe_w : (s.setDoneIe v).w = s.w := rfl
@[simp] theorem setDoneIe_scr : (s.setDoneIe v).scr = s.scr := rfl
@[simp] theorem setDoneIe_blk : (s.setDoneIe v).blk = s.blk := rfl
@[simp] theorem setDoneIe_mem : (s.setDoneIe v).mem = s.mem := rfl
@[simp] theorem setDoneIe_draws : (s.setDoneIe v).draws = s.draws := rfl
@[simp] theorem setDoneIe_turns : (s.setDoneIe v).turns = s.turns := rfl
@[simp] theorem setDoneIe_host : (s.setDoneIe v).host = s.host := rfl
end

section
variable (v : Bool)
@[simp] theorem setDoneIp_cmd : (s.setDoneIp v).cmd = s.cmd := rfl
@[simp] theorem setDoneIp_status : (s.setDoneIp v).status = s.status := rfl
@[simp] theorem setDoneIp_doneIe : (s.setDoneIp v).doneIe = s.doneIe := rfl
@[simp] theorem setDoneIp_doneIp : (s.setDoneIp v).doneIp = v := rfl
@[simp] theorem setDoneIp_len : (s.setDoneIp v).len = s.len := rfl
@[simp] theorem setDoneIp_outLen : (s.setDoneIp v).outLen = s.outLen := rfl
@[simp] theorem setDoneIp_ctr : (s.setDoneIp v).ctr = s.ctr := rfl
@[simp] theorem setDoneIp_key : (s.setDoneIp v).key = s.key := rfl
@[simp] theorem setDoneIp_nonce : (s.setDoneIp v).nonce = s.nonce := rfl
@[simp] theorem setDoneIp_w : (s.setDoneIp v).w = s.w := rfl
@[simp] theorem setDoneIp_scr : (s.setDoneIp v).scr = s.scr := rfl
@[simp] theorem setDoneIp_blk : (s.setDoneIp v).blk = s.blk := rfl
@[simp] theorem setDoneIp_mem : (s.setDoneIp v).mem = s.mem := rfl
@[simp] theorem setDoneIp_draws : (s.setDoneIp v).draws = s.draws := rfl
@[simp] theorem setDoneIp_turns : (s.setDoneIp v).turns = s.turns := rfl
@[simp] theorem setDoneIp_host : (s.setDoneIp v).host = s.host := rfl
end

section
variable (v : Word)
@[simp] theorem setLen_cmd : (s.setLen v).cmd = s.cmd := rfl
@[simp] theorem setLen_status : (s.setLen v).status = s.status := rfl
@[simp] theorem setLen_doneIe : (s.setLen v).doneIe = s.doneIe := rfl
@[simp] theorem setLen_doneIp : (s.setLen v).doneIp = s.doneIp := rfl
@[simp] theorem setLen_len : (s.setLen v).len = v := rfl
@[simp] theorem setLen_outLen : (s.setLen v).outLen = s.outLen := rfl
@[simp] theorem setLen_ctr : (s.setLen v).ctr = s.ctr := rfl
@[simp] theorem setLen_key : (s.setLen v).key = s.key := rfl
@[simp] theorem setLen_nonce : (s.setLen v).nonce = s.nonce := rfl
@[simp] theorem setLen_w : (s.setLen v).w = s.w := rfl
@[simp] theorem setLen_scr : (s.setLen v).scr = s.scr := rfl
@[simp] theorem setLen_blk : (s.setLen v).blk = s.blk := rfl
@[simp] theorem setLen_mem : (s.setLen v).mem = s.mem := rfl
@[simp] theorem setLen_draws : (s.setLen v).draws = s.draws := rfl
@[simp] theorem setLen_turns : (s.setLen v).turns = s.turns := rfl
@[simp] theorem setLen_host : (s.setLen v).host = s.host := rfl
end

section
variable (v : Word)
@[simp] theorem setOutLen_cmd : (s.setOutLen v).cmd = s.cmd := rfl
@[simp] theorem setOutLen_status : (s.setOutLen v).status = s.status := rfl
@[simp] theorem setOutLen_doneIe : (s.setOutLen v).doneIe = s.doneIe := rfl
@[simp] theorem setOutLen_doneIp : (s.setOutLen v).doneIp = s.doneIp := rfl
@[simp] theorem setOutLen_len : (s.setOutLen v).len = s.len := rfl
@[simp] theorem setOutLen_outLen : (s.setOutLen v).outLen = v := rfl
@[simp] theorem setOutLen_ctr : (s.setOutLen v).ctr = s.ctr := rfl
@[simp] theorem setOutLen_key : (s.setOutLen v).key = s.key := rfl
@[simp] theorem setOutLen_nonce : (s.setOutLen v).nonce = s.nonce := rfl
@[simp] theorem setOutLen_w : (s.setOutLen v).w = s.w := rfl
@[simp] theorem setOutLen_scr : (s.setOutLen v).scr = s.scr := rfl
@[simp] theorem setOutLen_blk : (s.setOutLen v).blk = s.blk := rfl
@[simp] theorem setOutLen_mem : (s.setOutLen v).mem = s.mem := rfl
@[simp] theorem setOutLen_draws : (s.setOutLen v).draws = s.draws := rfl
@[simp] theorem setOutLen_turns : (s.setOutLen v).turns = s.turns := rfl
@[simp] theorem setOutLen_host : (s.setOutLen v).host = s.host := rfl
end

section
variable (v : Word)
@[simp] theorem setCtr_cmd : (s.setCtr v).cmd = s.cmd := rfl
@[simp] theorem setCtr_status : (s.setCtr v).status = s.status := rfl
@[simp] theorem setCtr_doneIe : (s.setCtr v).doneIe = s.doneIe := rfl
@[simp] theorem setCtr_doneIp : (s.setCtr v).doneIp = s.doneIp := rfl
@[simp] theorem setCtr_len : (s.setCtr v).len = s.len := rfl
@[simp] theorem setCtr_outLen : (s.setCtr v).outLen = s.outLen := rfl
@[simp] theorem setCtr_ctr : (s.setCtr v).ctr = v := rfl
@[simp] theorem setCtr_key : (s.setCtr v).key = s.key := rfl
@[simp] theorem setCtr_nonce : (s.setCtr v).nonce = s.nonce := rfl
@[simp] theorem setCtr_w : (s.setCtr v).w = s.w := rfl
@[simp] theorem setCtr_scr : (s.setCtr v).scr = s.scr := rfl
@[simp] theorem setCtr_blk : (s.setCtr v).blk = s.blk := rfl
@[simp] theorem setCtr_mem : (s.setCtr v).mem = s.mem := rfl
@[simp] theorem setCtr_draws : (s.setCtr v).draws = s.draws := rfl
@[simp] theorem setCtr_turns : (s.setCtr v).turns = s.turns := rfl
@[simp] theorem setCtr_host : (s.setCtr v).host = s.host := rfl
end

section
variable (v : Vector Word 8)
@[simp] theorem setKey_cmd : (s.setKey v).cmd = s.cmd := rfl
@[simp] theorem setKey_status : (s.setKey v).status = s.status := rfl
@[simp] theorem setKey_doneIe : (s.setKey v).doneIe = s.doneIe := rfl
@[simp] theorem setKey_doneIp : (s.setKey v).doneIp = s.doneIp := rfl
@[simp] theorem setKey_len : (s.setKey v).len = s.len := rfl
@[simp] theorem setKey_outLen : (s.setKey v).outLen = s.outLen := rfl
@[simp] theorem setKey_ctr : (s.setKey v).ctr = s.ctr := rfl
@[simp] theorem setKey_key : (s.setKey v).key = v := rfl
@[simp] theorem setKey_nonce : (s.setKey v).nonce = s.nonce := rfl
@[simp] theorem setKey_w : (s.setKey v).w = s.w := rfl
@[simp] theorem setKey_scr : (s.setKey v).scr = s.scr := rfl
@[simp] theorem setKey_blk : (s.setKey v).blk = s.blk := rfl
@[simp] theorem setKey_mem : (s.setKey v).mem = s.mem := rfl
@[simp] theorem setKey_draws : (s.setKey v).draws = s.draws := rfl
@[simp] theorem setKey_turns : (s.setKey v).turns = s.turns := rfl
@[simp] theorem setKey_host : (s.setKey v).host = s.host := rfl
end

section
variable (v : Vector Word 3)
@[simp] theorem setNonce_cmd : (s.setNonce v).cmd = s.cmd := rfl
@[simp] theorem setNonce_status : (s.setNonce v).status = s.status := rfl
@[simp] theorem setNonce_doneIe : (s.setNonce v).doneIe = s.doneIe := rfl
@[simp] theorem setNonce_doneIp : (s.setNonce v).doneIp = s.doneIp := rfl
@[simp] theorem setNonce_len : (s.setNonce v).len = s.len := rfl
@[simp] theorem setNonce_outLen : (s.setNonce v).outLen = s.outLen := rfl
@[simp] theorem setNonce_ctr : (s.setNonce v).ctr = s.ctr := rfl
@[simp] theorem setNonce_key : (s.setNonce v).key = s.key := rfl
@[simp] theorem setNonce_nonce : (s.setNonce v).nonce = v := rfl
@[simp] theorem setNonce_w : (s.setNonce v).w = s.w := rfl
@[simp] theorem setNonce_scr : (s.setNonce v).scr = s.scr := rfl
@[simp] theorem setNonce_blk : (s.setNonce v).blk = s.blk := rfl
@[simp] theorem setNonce_mem : (s.setNonce v).mem = s.mem := rfl
@[simp] theorem setNonce_draws : (s.setNonce v).draws = s.draws := rfl
@[simp] theorem setNonce_turns : (s.setNonce v).turns = s.turns := rfl
@[simp] theorem setNonce_host : (s.setNonce v).host = s.host := rfl
end

section
variable (v : Vector Word 16)
@[simp] theorem setW_cmd : (s.setW v).cmd = s.cmd := rfl
@[simp] theorem setW_status : (s.setW v).status = s.status := rfl
@[simp] theorem setW_doneIe : (s.setW v).doneIe = s.doneIe := rfl
@[simp] theorem setW_doneIp : (s.setW v).doneIp = s.doneIp := rfl
@[simp] theorem setW_len : (s.setW v).len = s.len := rfl
@[simp] theorem setW_outLen : (s.setW v).outLen = s.outLen := rfl
@[simp] theorem setW_ctr : (s.setW v).ctr = s.ctr := rfl
@[simp] theorem setW_key : (s.setW v).key = s.key := rfl
@[simp] theorem setW_nonce : (s.setW v).nonce = s.nonce := rfl
@[simp] theorem setW_w : (s.setW v).w = v := rfl
@[simp] theorem setW_scr : (s.setW v).scr = s.scr := rfl
@[simp] theorem setW_blk : (s.setW v).blk = s.blk := rfl
@[simp] theorem setW_mem : (s.setW v).mem = s.mem := rfl
@[simp] theorem setW_draws : (s.setW v).draws = s.draws := rfl
@[simp] theorem setW_turns : (s.setW v).turns = s.turns := rfl
@[simp] theorem setW_host : (s.setW v).host = s.host := rfl
end

section
variable (v : Vector Word 4)
@[simp] theorem setScr_cmd : (s.setScr v).cmd = s.cmd := rfl
@[simp] theorem setScr_status : (s.setScr v).status = s.status := rfl
@[simp] theorem setScr_doneIe : (s.setScr v).doneIe = s.doneIe := rfl
@[simp] theorem setScr_doneIp : (s.setScr v).doneIp = s.doneIp := rfl
@[simp] theorem setScr_len : (s.setScr v).len = s.len := rfl
@[simp] theorem setScr_outLen : (s.setScr v).outLen = s.outLen := rfl
@[simp] theorem setScr_ctr : (s.setScr v).ctr = s.ctr := rfl
@[simp] theorem setScr_key : (s.setScr v).key = s.key := rfl
@[simp] theorem setScr_nonce : (s.setScr v).nonce = s.nonce := rfl
@[simp] theorem setScr_w : (s.setScr v).w = s.w := rfl
@[simp] theorem setScr_scr : (s.setScr v).scr = v := rfl
@[simp] theorem setScr_blk : (s.setScr v).blk = s.blk := rfl
@[simp] theorem setScr_mem : (s.setScr v).mem = s.mem := rfl
@[simp] theorem setScr_draws : (s.setScr v).draws = s.draws := rfl
@[simp] theorem setScr_turns : (s.setScr v).turns = s.turns := rfl
@[simp] theorem setScr_host : (s.setScr v).host = s.host := rfl
end

section
variable (v : Vector Word 2)
@[simp] theorem setBlk_cmd : (s.setBlk v).cmd = s.cmd := rfl
@[simp] theorem setBlk_status : (s.setBlk v).status = s.status := rfl
@[simp] theorem setBlk_doneIe : (s.setBlk v).doneIe = s.doneIe := rfl
@[simp] theorem setBlk_doneIp : (s.setBlk v).doneIp = s.doneIp := rfl
@[simp] theorem setBlk_len : (s.setBlk v).len = s.len := rfl
@[simp] theorem setBlk_outLen : (s.setBlk v).outLen = s.outLen := rfl
@[simp] theorem setBlk_ctr : (s.setBlk v).ctr = s.ctr := rfl
@[simp] theorem setBlk_key : (s.setBlk v).key = s.key := rfl
@[simp] theorem setBlk_nonce : (s.setBlk v).nonce = s.nonce := rfl
@[simp] theorem setBlk_w : (s.setBlk v).w = s.w := rfl
@[simp] theorem setBlk_scr : (s.setBlk v).scr = s.scr := rfl
@[simp] theorem setBlk_blk : (s.setBlk v).blk = v := rfl
@[simp] theorem setBlk_mem : (s.setBlk v).mem = s.mem := rfl
@[simp] theorem setBlk_draws : (s.setBlk v).draws = s.draws := rfl
@[simp] theorem setBlk_turns : (s.setBlk v).turns = s.turns := rfl
@[simp] theorem setBlk_host : (s.setBlk v).host = s.host := rfl
end

section
variable (v : List Host.Cell)
@[simp] theorem setMem_cmd : (s.setMem v).cmd = s.cmd := rfl
@[simp] theorem setMem_status : (s.setMem v).status = s.status := rfl
@[simp] theorem setMem_doneIe : (s.setMem v).doneIe = s.doneIe := rfl
@[simp] theorem setMem_doneIp : (s.setMem v).doneIp = s.doneIp := rfl
@[simp] theorem setMem_len : (s.setMem v).len = s.len := rfl
@[simp] theorem setMem_outLen : (s.setMem v).outLen = s.outLen := rfl
@[simp] theorem setMem_ctr : (s.setMem v).ctr = s.ctr := rfl
@[simp] theorem setMem_key : (s.setMem v).key = s.key := rfl
@[simp] theorem setMem_nonce : (s.setMem v).nonce = s.nonce := rfl
@[simp] theorem setMem_w : (s.setMem v).w = s.w := rfl
@[simp] theorem setMem_scr : (s.setMem v).scr = s.scr := rfl
@[simp] theorem setMem_blk : (s.setMem v).blk = s.blk := rfl
@[simp] theorem setMem_mem : (s.setMem v).mem = v := rfl
@[simp] theorem setMem_draws : (s.setMem v).draws = s.draws := rfl
@[simp] theorem setMem_turns : (s.setMem v).turns = s.turns := rfl
@[simp] theorem setMem_host : (s.setMem v).host = s.host := rfl
end

section
variable (v : Nat)
@[simp] theorem setDraws_cmd : (s.setDraws v).cmd = s.cmd := rfl
@[simp] theorem setDraws_status : (s.setDraws v).status = s.status := rfl
@[simp] theorem setDraws_doneIe : (s.setDraws v).doneIe = s.doneIe := rfl
@[simp] theorem setDraws_doneIp : (s.setDraws v).doneIp = s.doneIp := rfl
@[simp] theorem setDraws_len : (s.setDraws v).len = s.len := rfl
@[simp] theorem setDraws_outLen : (s.setDraws v).outLen = s.outLen := rfl
@[simp] theorem setDraws_ctr : (s.setDraws v).ctr = s.ctr := rfl
@[simp] theorem setDraws_key : (s.setDraws v).key = s.key := rfl
@[simp] theorem setDraws_nonce : (s.setDraws v).nonce = s.nonce := rfl
@[simp] theorem setDraws_w : (s.setDraws v).w = s.w := rfl
@[simp] theorem setDraws_scr : (s.setDraws v).scr = s.scr := rfl
@[simp] theorem setDraws_blk : (s.setDraws v).blk = s.blk := rfl
@[simp] theorem setDraws_mem : (s.setDraws v).mem = s.mem := rfl
@[simp] theorem setDraws_draws : (s.setDraws v).draws = v := rfl
@[simp] theorem setDraws_turns : (s.setDraws v).turns = s.turns := rfl
@[simp] theorem setDraws_host : (s.setDraws v).host = s.host := rfl
end

section
variable (v : List Turn)
@[simp] theorem setTurns_cmd : (s.setTurns v).cmd = s.cmd := rfl
@[simp] theorem setTurns_status : (s.setTurns v).status = s.status := rfl
@[simp] theorem setTurns_doneIe : (s.setTurns v).doneIe = s.doneIe := rfl
@[simp] theorem setTurns_doneIp : (s.setTurns v).doneIp = s.doneIp := rfl
@[simp] theorem setTurns_len : (s.setTurns v).len = s.len := rfl
@[simp] theorem setTurns_outLen : (s.setTurns v).outLen = s.outLen := rfl
@[simp] theorem setTurns_ctr : (s.setTurns v).ctr = s.ctr := rfl
@[simp] theorem setTurns_key : (s.setTurns v).key = s.key := rfl
@[simp] theorem setTurns_nonce : (s.setTurns v).nonce = s.nonce := rfl
@[simp] theorem setTurns_w : (s.setTurns v).w = s.w := rfl
@[simp] theorem setTurns_scr : (s.setTurns v).scr = s.scr := rfl
@[simp] theorem setTurns_blk : (s.setTurns v).blk = s.blk := rfl
@[simp] theorem setTurns_mem : (s.setTurns v).mem = s.mem := rfl
@[simp] theorem setTurns_draws : (s.setTurns v).draws = s.draws := rfl
@[simp] theorem setTurns_turns : (s.setTurns v).turns = v := rfl
@[simp] theorem setTurns_host : (s.setTurns v).host = s.host := rfl
end

section
variable (v : HostState)
@[simp] theorem setHost_cmd : (s.setHost v).cmd = s.cmd := rfl
@[simp] theorem setHost_status : (s.setHost v).status = s.status := rfl
@[simp] theorem setHost_doneIe : (s.setHost v).doneIe = s.doneIe := rfl
@[simp] theorem setHost_doneIp : (s.setHost v).doneIp = s.doneIp := rfl
@[simp] theorem setHost_len : (s.setHost v).len = s.len := rfl
@[simp] theorem setHost_outLen : (s.setHost v).outLen = s.outLen := rfl
@[simp] theorem setHost_ctr : (s.setHost v).ctr = s.ctr := rfl
@[simp] theorem setHost_key : (s.setHost v).key = s.key := rfl
@[simp] theorem setHost_nonce : (s.setHost v).nonce = s.nonce := rfl
@[simp] theorem setHost_w : (s.setHost v).w = s.w := rfl
@[simp] theorem setHost_scr : (s.setHost v).scr = s.scr := rfl
@[simp] theorem setHost_blk : (s.setHost v).blk = s.blk := rfl
@[simp] theorem setHost_mem : (s.setHost v).mem = s.mem := rfl
@[simp] theorem setHost_draws : (s.setHost v).draws = s.draws := rfl
@[simp] theorem setHost_turns : (s.setHost v).turns = s.turns := rfl
@[simp] theorem setHost_host : (s.setHost v).host = v := rfl
end

end Sys2Proof.Machine
end

