-- ==== Sys2Proof/Laws/Ops.lean ====
section
/-! SUPPORT. What the shared operations do: the checks, the two completions and the one that joins them,
acceptance and reset, one field at a time. -/

namespace Sys2Proof.Machine

variable (s : State)

/-! Successful completion. -/

@[simp] theorem completeOk_cmd : (completeOk s).cmd = s.cmd := rfl
@[simp] theorem completeOk_status : (completeOk s).status = Status.ok := rfl
@[simp] theorem completeOk_doneIe : (completeOk s).doneIe = s.doneIe := rfl
@[simp] theorem completeOk_doneIp : (completeOk s).doneIp = true := rfl
@[simp] theorem completeOk_len : (completeOk s).len = s.len := rfl
@[simp] theorem completeOk_outLen : (completeOk s).outLen = s.outLen := rfl
@[simp] theorem completeOk_ctr : (completeOk s).ctr = s.ctr := rfl
@[simp] theorem completeOk_key : (completeOk s).key = s.key := rfl
@[simp] theorem completeOk_nonce : (completeOk s).nonce = s.nonce := rfl
@[simp] theorem completeOk_w : (completeOk s).w = s.w := rfl
@[simp] theorem completeOk_scr : (completeOk s).scr = s.scr := rfl
@[simp] theorem completeOk_blk : (completeOk s).blk = s.blk := rfl
@[simp] theorem completeOk_mem : (completeOk s).mem = s.mem := rfl
@[simp] theorem completeOk_draws : (completeOk s).draws = s.draws := rfl
@[simp] theorem completeOk_turns : (completeOk s).turns = s.turns := rfl
@[simp] theorem completeOk_host : (completeOk s).host = s.host := rfl

/-! Completion with an error. -/

section
variable (b : Bool) (e : ErrCode)
@[simp] theorem completeError_cmd : (completeError b e s).cmd = s.cmd := by cases b <;> rfl
@[simp] theorem completeError_status : (completeError b e s).status = Status.failed e := rfl
@[simp] theorem completeError_doneIe : (completeError b e s).doneIe = s.doneIe := by cases b <;> rfl
@[simp] theorem completeError_doneIp : (completeError b e s).doneIp = true := rfl
@[simp] theorem completeError_len : (completeError b e s).len = s.len := by cases b <;> rfl
@[simp] theorem completeError_outLen : (completeError b e s).outLen = if b then 0 else s.outLen := by cases b <;> rfl
@[simp] theorem completeError_ctr : (completeError b e s).ctr = s.ctr := by cases b <;> rfl
@[simp] theorem completeError_key : (completeError b e s).key = s.key := by cases b <;> rfl
@[simp] theorem completeError_nonce : (completeError b e s).nonce = s.nonce := by cases b <;> rfl
@[simp] theorem completeError_w : (completeError b e s).w = s.w := by cases b <;> rfl
@[simp] theorem completeError_scr : (completeError b e s).scr = s.scr := by cases b <;> rfl
@[simp] theorem completeError_blk : (completeError b e s).blk = s.blk := by cases b <;> rfl
@[simp] theorem completeError_mem : (completeError b e s).mem = s.mem := by cases b <;> rfl
@[simp] theorem completeError_draws : (completeError b e s).draws = s.draws := by cases b <;> rfl
@[simp] theorem completeError_turns : (completeError b e s).turns = s.turns := by cases b <;> rfl
@[simp] theorem completeError_host : (completeError b e s).host = s.host := by cases b <;> rfl
end

/-! The checks (R204). -/

theorem check_primitive {i : Instr} (h : isBufferCommand i = false) : check i s = .none := by
  cases i <;> simp_all [check, isBufferCommand]

theorem check_long {i : Instr} (hi : isBufferCommand i = true) (h : Config.bufBytes < s.len.toNat) :
    check i s = .lengthOutOfRange := by
  simp [check, hi, h]

theorem check_buffer {i : Instr} (h : s.len.toNat ≤ Config.bufBytes) (hd : i = .magmaDec → s.len.toNat % 8 = 0) :
    check i s = .none := by
  cases i <;> simp_all [check, isBufferCommand]

theorem check_ragged (h : s.len.toNat ≤ Config.bufBytes) (hd : s.len.toNat % 8 ≠ 0) :
    check .magmaDec s = .invalidCiphertextLength := by
  simp [check, isBufferCommand, h, hd]

/-- What the checks passing says. -/
theorem check_none {i : Instr} (h : check i s = .none) :
    (isBufferCommand i = true → s.len.toNat ≤ Config.bufBytes) ∧ (i = .magmaDec → s.len.toNat % 8 = 0) := by
  unfold check at h
  split at h
  · simp at h
  · split at h
    · simp at h
    · next h1 h2 =>
      simp only [Bool.and_eq_true, decide_eq_true_eq, not_and, not_lt, beq_iff_eq, bne_iff_ne, ne_eq,
        not_not] at h1 h2
      exact ⟨h1, h2⟩

/-- The checks never answer the host's code. -/
theorem check_ne_host (i : Instr) : check i s ≠ .invalidKeyFormat := by
  unfold check; split <;> [simp; (split <;> simp)]

/-! The completion of a legal command (R202). -/

theorem complete_of_none {i : Instr} (p : State → State) (h : check i s = .none) :
    complete i p s = completeOk (p s) := by
  simp [complete, h]

theorem complete_of_error {i : Instr} (p : State → State) (h : check i s ≠ .none) :
    complete i p s = completeError (isBufferCommand i) (check i s) s := by
  unfold complete; split <;> simp_all

/-- Everything a completion can be: the checks pass and the command's writes are made, or they do not and only
the error is reported. -/
theorem complete_cases (i : Instr) (p : State → State) :
    (check i s = .none ∧ complete i p s = completeOk (p s)) ∨
    (check i s ≠ .none ∧ complete i p s = completeError (isBufferCommand i) (check i s) s) := by
  by_cases h : check i s = .none
  · exact .inl ⟨h, complete_of_none s p h⟩
  · exact .inr ⟨h, complete_of_error s p h⟩

theorem completeError_legal (b : Bool) {e : ErrCode} (h : e ≠ .none) (h' : e ≠ .invalidKeyFormat) :
    (completeError b e s).status.legal = true := by
  cases e <;> simp_all [Status.legal, Status.failed]

theorem completeOk_legal : (completeOk s).status.legal = true := rfl

/-! Acceptance (R201) writes CMD and STATUS and nothing else. -/

section
variable (v : Word)
@[simp] theorem accept_cmd : (accept v s).cmd = v := rfl
@[simp] theorem accept_status : (accept v s).status = Status.accepted := rfl
@[simp] theorem accept_doneIe : (accept v s).doneIe = s.doneIe := rfl
@[simp] theorem accept_doneIp : (accept v s).doneIp = s.doneIp := rfl
@[simp] theorem accept_len : (accept v s).len = s.len := rfl
@[simp] theorem accept_outLen : (accept v s).outLen = s.outLen := rfl
@[simp] theorem accept_ctr : (accept v s).ctr = s.ctr := rfl
@[simp] theorem accept_key : (accept v s).key = s.key := rfl
@[simp] theorem accept_nonce : (accept v s).nonce = s.nonce := rfl
@[simp] theorem accept_w : (accept v s).w = s.w := rfl
@[simp] theorem accept_scr : (accept v s).scr = s.scr := rfl
@[simp] theorem accept_blk : (accept v s).blk = s.blk := rfl
@[simp] theorem accept_mem : (accept v s).mem = s.mem := rfl
@[simp] theorem accept_draws : (accept v s).draws = s.draws := rfl
@[simp] theorem accept_turns : (accept v s).turns = s.turns := rfl
@[simp] theorem accept_host : (accept v s).host = s.host := rfl
end

/-! Buffers. -/

@[simp] theorem readIn_length (n : Nat) : (s.readIn n).length = n := by simp [State.readIn]

theorem readIn_getElem? {n j : Nat} (h : j < n) :
    (s.readIn n)[j]? = some (readByte s.mem (s.draws + j) (inBase + j)) :=
  readBytes_getElem? _ _ _ _ h

theorem writeOut_mem (bs : List Byte) : (s.writeOut bs).mem = pokes s.mem outBase bs := rfl

end Sys2Proof.Machine
end

