-- ==== Sys2Proof/Laws/Bus.lean ====
section
/-! SUPPORT. The register map and the bus: each register stands at its offset, what a host write can change, and
everything one access can do. -/

namespace Sys2Proof.Machine

/-! The register map (10_state.md R24). -/

/-- The map finds each register at its own offset. -/
theorem regAt_offset (r : Reg) : regAt r.offset = some r := by
  cases r
  case key i => revert i; decide
  case nonce i => revert i; decide
  case w i => revert i; decide
  case scr i => revert i; decide
  case blk i => revert i; decide
  all_goals decide

theorem offset_of_regAt {off : Nat} {r : Reg} (h : regAt off = some r) : r.offset = off := by
  have := List.find?_some h
  simpa using this

theorem offset_lt (r : Reg) : r.offset < 0x100 := by cases r <;> simp [Reg.offset] <;> omega

theorem offset_mod (r : Reg) : r.offset % 4 = 0 := by cases r <;> simp [Reg.offset]

theorem regAt_none {off : Nat} (h : 0x100 ≤ off) : regAt off = none := by
  cases hr : regAt off with
  | none => rfl
  | some r => have := offset_of_regAt hr; have := offset_lt r; omega

theorem regionOf_offset (r : Reg) : regionOf r.offset = .registers := by
  simp [regionOf, offset_lt r]

theorem regionOf_inIn {off : Nat} (h : inIn off = true) : regionOf off = .inBuffer := by
  rw [regionOf, if_neg (by rw [inIn_iff] at h; unfold inBase at h; omega), if_pos h]

theorem regionOf_inOut {off : Nat} (h : inOut off = true) : regionOf off = .outBuffer := by
  have := bufBytes_le
  rw [inOut_iff] at h
  unfold outBase at h
  rw [regionOf, if_neg (by omega), if_neg (by rw [inIn_iff]; unfold inBase; omega),
    if_pos (by rw [inOut_iff]; exact h)]

/-- The four regions by their bounds (R61). -/
theorem regionOf_cases (off : Nat) :
    (off < 0x100 ∧ regionOf off = .registers) ∨
    (inIn off = true ∧ regionOf off = .inBuffer) ∨
    (inOut off = true ∧ regionOf off = .outBuffer) ∨
    (0x100 ≤ off ∧ inIn off = false ∧ inOut off = false ∧ regionOf off = .reserved) := by
  by_cases h1 : off < 0x100
  · exact .inl ⟨h1, by simp [regionOf, h1]⟩
  · by_cases h2 : inIn off = true
    · exact .inr (.inl ⟨h2, regionOf_inIn h2⟩)
    · by_cases h3 : inOut off = true
      · exact .inr (.inr (.inl ⟨h3, regionOf_inOut h3⟩))
      · refine .inr (.inr (.inr ⟨by omega, by simpa using h2, by simpa using h3, ?_⟩))
        rw [regionOf, if_neg h1, if_neg h2, if_neg h3]

/-! A host write to a register leaves alone what no host can write (R24): OUT_LEN, W, the buffers and everything
outside the engine. -/

section
variable (r : Reg) (v : Word) (s : State)
@[simp] theorem writeReg_outLen : (writeReg r v s).outLen = s.outLen := by cases r <;> rfl
@[simp] theorem writeReg_w : (writeReg r v s).w = s.w := by cases r <;> rfl
@[simp] theorem writeReg_mem : (writeReg r v s).mem = s.mem := by cases r <;> rfl
@[simp] theorem writeReg_draws : (writeReg r v s).draws = s.draws := by cases r <;> rfl
@[simp] theorem writeReg_turns : (writeReg r v s).turns = s.turns := by cases r <;> rfl
@[simp] theorem writeReg_host : (writeReg r v s).host = s.host := by cases r <;> rfl
end

/-- Only a CMD write changes STATUS, and then to the accepted one (R201). -/
theorem writeReg_status (r : Reg) (v : Word) (s : State) :
    (writeReg r v s).status = if r = .cmd then Status.accepted else s.status := by
  cases r <;> rfl

/-! One access. -/

theorem windowOffset_base (off : Nat) :
    windowOffset (Config.engineBase + off) = if off < windowBytes then some off else none := by
  unfold windowOffset
  by_cases h : off < windowBytes
  · rw [if_pos ⟨by omega, by omega⟩, if_pos h, Nat.add_sub_cancel_left]
  · rw [if_neg (by omega), if_neg h]

/-- The bus access of a script statement reaches the window offset it names. -/
theorem busAccess_script (w : Width) (off : Word) (op : AccessOp) (s : State) :
    busAccess ⟨Config.engineBase + off.toNat, w, op⟩ s =
      if off.toNat < windowBytes then some (engineAccess off.toNat w op s) else none := by
  simp only [busAccess, windowOffset_base]; split <;> rfl

/-- What an access that passes the checks of R71 has passed. -/
theorem accessFails_false {off : Nat} {w : Width} {op : AccessOp} {s : State}
    (h : accessFails off w op s = false) :
    busyForbidden off op s = false ∧ regionOf off ≠ .reserved ∧ off % w.bytes = 0 ∧
    (regionOf off = .registers → w = .w32 ∧ (regAt off).isSome) ∧ (op.isWrite = true → writableAt off = true) := by
  simp only [accessFails, Bool.or_eq_false_iff, Bool.and_eq_false_iff, beq_eq_false_iff_ne, bne_eq_false_iff_eq] at h
  obtain ⟨⟨⟨⟨h1, h2⟩, h3⟩, h4⟩, h5⟩ := h
  refine ⟨h1, h2, h3, ?_, ?_⟩
  · intro hr
    rcases h4 with h4 | h4
    · exact absurd hr h4
    · refine ⟨h4.1, ?_⟩
      have := h4.2
      cases hx : regAt off <;> simp_all
  · intro hw
    rcases h5 with h5 | h5
    · simp_all
    · simpa using h5

/-- Everything one access can do (R71): an error and nothing, a register read, a buffer read that uses up draws
and nothing else, a register write, or a write of IN bytes. -/
theorem engineAccess_cases (off : Nat) (w : Width) (op : AccessOp) (s : State) :
    (accessFails off w op s = true ∧ engineAccess off w op s = (.busError, s)) ∨
    (accessFails off w op s = false ∧ ∃ r, regAt off = some r ∧ op = .read ∧
      engineAccess off w op s = (.data (readReg r s), s)) ∨
    (accessFails off w op s = false ∧ regAt off = none ∧ op = .read ∧
      engineAccess off w op s = (.data (assembleLe (readBytes s.mem s.draws off w.bytes)), s.skipDraws w.bytes)) ∨
    (accessFails off w op s = false ∧ ∃ r v, regAt off = some r ∧ r.writable = true ∧ op = .write v ∧
      engineAccess off w op s = (.written, writeReg r v s)) ∨
    (accessFails off w op s = false ∧ ∃ v, regAt off = none ∧ inIn off = true ∧ op = .write v ∧
      engineAccess off w op s = (.written, s.setMem (pokes s.mem off ((bytesLe v).take w.bytes)))) := by
  by_cases hf : accessFails off w op s = true
  · exact .inl ⟨hf, by simp [engineAccess, hf]⟩
  · have hf : accessFails off w op s = false := by simpa using hf
    cases op with
    | read =>
      cases hr : regAt off with
      | some r => exact .inr (.inl ⟨hf, r, rfl, rfl, by simp [engineAccess, hf, memRead, hr]⟩)
      | none => exact .inr (.inr (.inl ⟨hf, rfl, rfl, by simp [engineAccess, hf, memRead, hr]⟩))
    | write v =>
      have hw := (accessFails_false hf).2.2.2.2 rfl
      cases hr : regAt off with
      | some r =>
        refine .inr (.inr (.inr (.inl ⟨hf, r, v, rfl, ?_, rfl, by simp [engineAccess, hf, memWrite, hr]⟩)))
        have := offset_of_regAt hr
        subst this
        simpa [writableAt, regionOf_offset, hr] using hw
      | none =>
        refine .inr (.inr (.inr (.inr ⟨hf, v, rfl, ?_, rfl, by simp [engineAccess, hf, memWrite, hr]⟩)))
        rcases regionOf_cases off with ⟨_, h⟩ | ⟨h, _⟩ | ⟨_, h⟩ | ⟨_, _, _, h⟩
        · simp [writableAt, h, hr] at hw
        · exact h
        · simp [writableAt, h] at hw
        · simp [writableAt, h] at hw

/-- The bytes of an aligned access that starts in IN all lie in IN (R68): its bounds are multiples of 4. -/
theorem inIn_access {off j : Nat} {w : Width} (h : inIn off = true) (ha : off % w.bytes = 0) (hj : j < w.bytes) :
    inIn (off + j) = true := by
  have := bufBytes_mod
  rw [inIn_iff] at h ⊢
  unfold inBase at h ⊢
  cases w <;> simp only [Width.bytes] at ha hj <;> omega

theorem bytesLe_take_length (v : Word) (w : Width) : ((bytesLe v).take w.bytes).length = w.bytes := by
  cases w <;> rfl

/-! The accesses that pass the checks, one by one. -/

theorem busyForbidden_idle {s : State} (h : s.status.busy = false) (off : Nat) (op : AccessOp) :
    busyForbidden off op s = false := by
  simp [busyForbidden, h]

/-- A 32-bit read of a register, permitted by R203, returns it and changes nothing. -/
theorem engineAccess_readReg {r : Reg} {s : State} (h : s.status.busy = false ∨ r.busyReadable = true) :
    engineAccess r.offset .w32 .read s = (.data (readReg r s), s) := by
  have hb : busyForbidden r.offset .read s = false := by
    rcases h with h | h <;> simp [busyForbidden, regAt_offset, h]
  have hf : accessFails r.offset .w32 .read s = false := by
    simp [accessFails, hb, regionOf_offset, Width.bytes, offset_mod, regAt_offset, AccessOp.isWrite]
  simp [engineAccess, hf, memRead, regAt_offset]

/-- A 32-bit write of a writable register, permitted by R203, has the register's write semantics. -/
theorem engineAccess_writeReg {r : Reg} {s : State} (hw : r.writable = true) (v : Word)
    (h : s.status.busy = false ∨ r.busyWritable = true) :
    engineAccess r.offset .w32 (.write v) s = (.written, writeReg r v s) := by
  have hb : busyForbidden r.offset (.write v) s = false := by
    rcases h with h | h <;> simp [busyForbidden, regAt_offset, h]
  have hf : accessFails r.offset .w32 (.write v) s = false := by
    simp [accessFails, hb, regionOf_offset, Width.bytes, offset_mod, regAt_offset, writableAt, hw]
  simp [engineAccess, hf, memWrite, regAt_offset]

theorem inIn_ge {a : Nat} (h : inIn a = true) : 0x100 ≤ a := by
  rw [inIn_iff] at h; unfold inBase at h; omega

theorem inOut_ge {a : Nat} (h : inOut a = true) : 0x100 ≤ a := by
  rw [inOut_iff] at h; unfold outBase at h; omega

/-- An aligned read of buffer bytes while idle. -/
theorem engineAccess_readBuffer {s : State} {a : Nat} {w : Width} (hs : s.status.busy = false)
    (ha : inIn a = true ∨ inOut a = true) (hw : a % w.bytes = 0) :
    engineAccess a w .read s = (.data (assembleLe (readBytes s.mem s.draws a w.bytes)), s.skipDraws w.bytes) := by
  have hr : regAt a = none := regAt_none (by rcases ha with h | h; exacts [inIn_ge h, inOut_ge h])
  have hf : accessFails a w .read s = false := by
    rcases ha with h | h <;>
      simp [accessFails, busyForbidden_idle hs, regionOf_inIn, regionOf_inOut, h, hw, AccessOp.isWrite]
  simp [engineAccess, hf, memRead, hr]

/-- The answer of an aligned read of buffer bytes while idle, byte by byte, each byte set or drawn on its own (R65,
R66). -/
theorem readBuffer_bytes (s : State) (a : Nat) (w : Width) :
    (assembleLe (readBytes s.mem s.draws a w.bytes)).toNat < 256 ^ w.bytes ∧
    ∀ j < w.bytes, (assembleLe (readBytes s.mem s.draws a w.bytes)).extractLsb' (8 * j) 8 =
      readByte s.mem (s.draws + j) (a + j) := by
  have hp := assembleLe_spec (readBytes s.mem s.draws a w.bytes) (by rw [readBytes_length]; cases w <;> decide)
  rw [readBytes_length] at hp
  refine ⟨hp.1, fun j hj => ?_⟩
  have h := hp.2 j hj
  rw [readBytes_getElem? _ _ _ _ hj] at h
  exact (Option.some.inj h).symm

/-- An aligned write of IN bytes while idle. -/
theorem engineAccess_writeIn {s : State} {a : Nat} {w : Width} (v : Word) (hs : s.status.busy = false)
    (ha : inIn a = true) (hw : a % w.bytes = 0) :
    engineAccess a w (.write v) s = (.written, s.setMem (pokes s.mem a ((bytesLe v).take w.bytes))) := by
  have hr : regAt a = none := regAt_none (inIn_ge ha)
  have hf : accessFails a w (.write v) s = false := by
    simp [accessFails, busyForbidden_idle hs, regionOf_inIn ha, hw, writableAt]
  simp [engineAccess, hf, memWrite, hr]

/-- No access changes W, OUT_LEN or anything outside the engine. -/
theorem engineAccess_frame (off : Nat) (w : Width) (op : AccessOp) (s : State) :
    (engineAccess off w op s).2.turns = s.turns ∧ (engineAccess off w op s).2.host = s.host ∧
    (engineAccess off w op s).2.w = s.w ∧ (engineAccess off w op s).2.outLen = s.outLen := by
  rcases engineAccess_cases off w op s with
    ⟨_, e⟩ | ⟨_, r, _, _, e⟩ | ⟨_, _, _, e⟩ | ⟨_, r, v, _, _, _, e⟩ | ⟨_, v, _, _, _, e⟩ <;>
    rw [e] <;> simp [State.skipDraws]

end Sys2Proof.Machine
end

