-- ==== Sys2Proof/Laws/Commands.lean ====
section
/-! SUPPORT. What each command's meaning is, in the terms of the shared operations: its equation when its checks
pass, its fields, and the facts that hold of all ten. -/

namespace Sys2Proof.Machine

variable (s : State)

/-! The primitive commands have no error of their own (10_state.md R39). -/

theorem exec_chachaQr : exec .chachaQr s = .next (completeOk (performChachaQr s)) := rfl
theorem exec_chachaInit : exec .chachaInit s = .next (completeOk (performChachaInit s)) := rfl
theorem exec_chachaBlock : exec .chachaBlock s = .next (completeOk (performChachaBlock s)) := rfl
theorem exec_magmaT : exec .magmaT s = .next (completeOk (performMagmaT s)) := rfl
theorem exec_magmaG : exec .magmaG s = .next (completeOk (performMagmaG s)) := rfl
theorem exec_magmaEncBlock : exec .magmaEncBlock s = .next (completeOk (performMagmaEncBlock s)) := rfl
theorem exec_magmaDecBlock : exec .magmaDecBlock s = .next (completeOk (performMagmaDecBlock s)) := rfl

/-! The buffer commands, LEN being in range. -/

theorem exec_chachaXor (h : s.len.toNat ≤ Config.bufBytes) :
    exec .chachaXor s = .next (completeOk (performChachaXor s)) := by
  rw [exec, execChachaXor, complete_of_none _ _ (check_buffer s h (by simp))]

theorem exec_magmaEnc (h : s.len.toNat ≤ Config.bufBytes) :
    exec .magmaEnc s = .next (completeOk (performMagmaEnc s)) := by
  rw [exec, execMagmaEnc, complete_of_none _ _ (check_buffer s h (by simp))]

theorem exec_magmaDec (h : s.len.toNat ≤ Config.bufBytes) (h8 : s.len.toNat % 8 = 0) :
    exec .magmaDec s = .next (completeOk (performMagmaDec s)) := by
  rw [exec, execMagmaDec, complete_of_none _ _ (check_buffer s h (fun _ => h8))]

/-! Each command's own writes, field by field: what it writes, and that the rest stays. -/

section
@[simp] theorem performChachaQr_status : (performChachaQr s).status = s.status := rfl
@[simp] theorem performChachaQr_doneIp : (performChachaQr s).doneIp = s.doneIp := rfl
@[simp] theorem performChachaQr_w : (performChachaQr s).w = s.w := rfl
@[simp] theorem performChachaQr_scr : (performChachaQr s).scr =
    #v[(qr s.scr[0] s.scr[1] s.scr[2] s.scr[3]).1, (qr s.scr[0] s.scr[1] s.scr[2] s.scr[3]).2.1,
      (qr s.scr[0] s.scr[1] s.scr[2] s.scr[3]).2.2.1, (qr s.scr[0] s.scr[1] s.scr[2] s.scr[3]).2.2.2] := (rfl)
@[simp] theorem performChachaQr_blk : (performChachaQr s).blk = s.blk := rfl
@[simp] theorem performChachaQr_outLen : (performChachaQr s).outLen = s.outLen := rfl
@[simp] theorem performChachaQr_mem : (performChachaQr s).mem = s.mem := rfl
@[simp] theorem performChachaQr_draws : (performChachaQr s).draws = s.draws := rfl

@[simp] theorem performChachaInit_status : (performChachaInit s).status = s.status := rfl
@[simp] theorem performChachaInit_doneIp : (performChachaInit s).doneIp = s.doneIp := rfl
@[simp] theorem performChachaInit_w : (performChachaInit s).w = chachaInit s.key s.ctr s.nonce := (rfl)
@[simp] theorem performChachaInit_scr : (performChachaInit s).scr = s.scr := rfl
@[simp] theorem performChachaInit_blk : (performChachaInit s).blk = s.blk := rfl
@[simp] theorem performChachaInit_outLen : (performChachaInit s).outLen = s.outLen := rfl
@[simp] theorem performChachaInit_mem : (performChachaInit s).mem = s.mem := rfl
@[simp] theorem performChachaInit_draws : (performChachaInit s).draws = s.draws := rfl

@[simp] theorem performChachaBlock_status : (performChachaBlock s).status = s.status := rfl
@[simp] theorem performChachaBlock_doneIp : (performChachaBlock s).doneIp = s.doneIp := rfl
@[simp] theorem performChachaBlock_w : (performChachaBlock s).w = chachaBlock (chachaInit s.key s.ctr s.nonce) := (rfl)
@[simp] theorem performChachaBlock_scr : (performChachaBlock s).scr = s.scr := rfl
@[simp] theorem performChachaBlock_blk : (performChachaBlock s).blk = s.blk := rfl
@[simp] theorem performChachaBlock_outLen : (performChachaBlock s).outLen = s.outLen := rfl
@[simp] theorem performChachaBlock_mem : (performChachaBlock s).mem = s.mem := rfl
@[simp] theorem performChachaBlock_draws : (performChachaBlock s).draws = s.draws := rfl

@[simp] theorem performChachaXor_status : (performChachaXor s).status = s.status := rfl
@[simp] theorem performChachaXor_doneIp : (performChachaXor s).doneIp = s.doneIp := rfl
@[simp] theorem performChachaXor_w : (performChachaXor s).w = s.w := rfl
@[simp] theorem performChachaXor_scr : (performChachaXor s).scr = s.scr := rfl
@[simp] theorem performChachaXor_blk : (performChachaXor s).blk = s.blk := rfl
@[simp] theorem performChachaXor_outLen : (performChachaXor s).outLen = s.len := (rfl)
@[simp] theorem performChachaXor_mem : (performChachaXor s).mem =
    pokes s.mem outBase (chachaXor s.key s.nonce (s.readIn s.len.toNat)) := (rfl)
@[simp] theorem performChachaXor_draws : (performChachaXor s).draws = s.draws + s.len.toNat := (rfl)

@[simp] theorem performMagmaT_status : (performMagmaT s).status = s.status := rfl
@[simp] theorem performMagmaT_doneIp : (performMagmaT s).doneIp = s.doneIp := rfl
@[simp] theorem performMagmaT_w : (performMagmaT s).w = s.w := rfl
@[simp] theorem performMagmaT_scr : (performMagmaT s).scr = s.scr.set 0 (magmaT s.scr[0]) := (rfl)
@[simp] theorem performMagmaT_blk : (performMagmaT s).blk = s.blk := rfl
@[simp] theorem performMagmaT_outLen : (performMagmaT s).outLen = s.outLen := rfl
@[simp] theorem performMagmaT_mem : (performMagmaT s).mem = s.mem := rfl
@[simp] theorem performMagmaT_draws : (performMagmaT s).draws = s.draws := rfl

@[simp] theorem performMagmaG_status : (performMagmaG s).status = s.status := rfl
@[simp] theorem performMagmaG_doneIp : (performMagmaG s).doneIp = s.doneIp := rfl
@[simp] theorem performMagmaG_w : (performMagmaG s).w = s.w := rfl
@[simp] theorem performMagmaG_scr : (performMagmaG s).scr = s.scr.set 0 (magmaG s.scr[0] s.scr[1]) := (rfl)
@[simp] theorem performMagmaG_blk : (performMagmaG s).blk = s.blk := rfl
@[simp] theorem performMagmaG_outLen : (performMagmaG s).outLen = s.outLen := rfl
@[simp] theorem performMagmaG_mem : (performMagmaG s).mem = s.mem := rfl
@[simp] theorem performMagmaG_draws : (performMagmaG s).draws = s.draws := rfl

@[simp] theorem performMagmaEncBlock_status : (performMagmaEncBlock s).status = s.status := rfl
@[simp] theorem performMagmaEncBlock_doneIp : (performMagmaEncBlock s).doneIp = s.doneIp := rfl
@[simp] theorem performMagmaEncBlock_w : (performMagmaEncBlock s).w = s.w := rfl
@[simp] theorem performMagmaEncBlock_scr : (performMagmaEncBlock s).scr = s.scr := rfl
@[simp] theorem performMagmaEncBlock_blk : (performMagmaEncBlock s).blk =
    #v[le32at (magmaEncBlock s.key (bytesLe s.blk[0] ++ bytesLe s.blk[1])) 0,
      le32at (magmaEncBlock s.key (bytesLe s.blk[0] ++ bytesLe s.blk[1])) 4] := (rfl)
@[simp] theorem performMagmaEncBlock_outLen : (performMagmaEncBlock s).outLen = s.outLen := rfl
@[simp] theorem performMagmaEncBlock_mem : (performMagmaEncBlock s).mem = s.mem := rfl
@[simp] theorem performMagmaEncBlock_draws : (performMagmaEncBlock s).draws = s.draws := rfl

@[simp] theorem performMagmaDecBlock_status : (performMagmaDecBlock s).status = s.status := rfl
@[simp] theorem performMagmaDecBlock_doneIp : (performMagmaDecBlock s).doneIp = s.doneIp := rfl
@[simp] theorem performMagmaDecBlock_w : (performMagmaDecBlock s).w = s.w := rfl
@[simp] theorem performMagmaDecBlock_scr : (performMagmaDecBlock s).scr = s.scr := rfl
@[simp] theorem performMagmaDecBlock_blk : (performMagmaDecBlock s).blk =
    #v[le32at (magmaDecBlock s.key (bytesLe s.blk[0] ++ bytesLe s.blk[1])) 0,
      le32at (magmaDecBlock s.key (bytesLe s.blk[0] ++ bytesLe s.blk[1])) 4] := (rfl)
@[simp] theorem performMagmaDecBlock_outLen : (performMagmaDecBlock s).outLen = s.outLen := rfl
@[simp] theorem performMagmaDecBlock_mem : (performMagmaDecBlock s).mem = s.mem := rfl
@[simp] theorem performMagmaDecBlock_draws : (performMagmaDecBlock s).draws = s.draws := rfl

@[simp] theorem performMagmaEnc_status : (performMagmaEnc s).status = s.status := rfl
@[simp] theorem performMagmaEnc_doneIp : (performMagmaEnc s).doneIp = s.doneIp := rfl
@[simp] theorem performMagmaEnc_w : (performMagmaEnc s).w = s.w := rfl
@[simp] theorem performMagmaEnc_scr : (performMagmaEnc s).scr = s.scr := rfl
@[simp] theorem performMagmaEnc_blk : (performMagmaEnc s).blk = s.blk := rfl
@[simp] theorem performMagmaEnc_outLen : (performMagmaEnc s).outLen =
    BitVec.ofNat 32 (magmaEncrypt s.key (s.readIn s.len.toNat)).length := (rfl)
@[simp] theorem performMagmaEnc_mem : (performMagmaEnc s).mem =
    pokes s.mem outBase (magmaEncrypt s.key (s.readIn s.len.toNat)) := (rfl)
@[simp] theorem performMagmaEnc_draws : (performMagmaEnc s).draws = s.draws + s.len.toNat := (rfl)

@[simp] theorem performMagmaDec_status : (performMagmaDec s).status = s.status := rfl
@[simp] theorem performMagmaDec_doneIp : (performMagmaDec s).doneIp = s.doneIp := rfl
@[simp] theorem performMagmaDec_w : (performMagmaDec s).w = s.w := rfl
@[simp] theorem performMagmaDec_scr : (performMagmaDec s).scr = s.scr := rfl
@[simp] theorem performMagmaDec_blk : (performMagmaDec s).blk = s.blk := rfl
@[simp] theorem performMagmaDec_outLen : (performMagmaDec s).outLen =
    BitVec.ofNat 32 (unpad (magmaDecryptBlocks s.key (s.readIn s.len.toNat))).length := (rfl)
@[simp] theorem performMagmaDec_mem : (performMagmaDec s).mem =
    pokes s.mem outBase (magmaDecryptBlocks s.key (s.readIn s.len.toNat)) := (rfl)
@[simp] theorem performMagmaDec_draws : (performMagmaDec s).draws = s.draws + s.len.toNat := (rfl)
end

theorem performMagmaEnc_outLen_toNat (h : s.len.toNat ≤ Config.bufBytes) :
    (performMagmaEnc s).outLen.toNat = 8 * (s.len.toNat / 8 + 1) := by
  have := bufBytes_le
  show (BitVec.ofNat 32 _).toNat = _
  rw [magmaEncrypt_length, readIn_length, BitVec.toNat_ofNat, Nat.mod_eq_of_lt (by omega)]

theorem performMagmaDec_outLen_toNat (h : s.len.toNat ≤ Config.bufBytes) :
    (performMagmaDec s).outLen.toNat = (unpad (magmaDecryptBlocks s.key (s.readIn s.len.toNat))).length := by
  have := bufBytes_le
  have hl := unpad_length_le (magmaDecryptBlocks s.key (s.readIn s.len.toNat))
  rw [magmaDecryptBlocks_length, readIn_length] at hl
  show (BitVec.ofNat 32 _).toNat = _
  rw [BitVec.toNat_ofNat, Nat.mod_eq_of_lt (by omega)]

/-- What a command writes when its checks pass (the left column of 10_state.md R39). -/
def perform : Instr → State → State
  | .chachaQr => performChachaQr
  | .chachaInit => performChachaInit
  | .chachaBlock => performChachaBlock
  | .chachaXor => performChachaXor
  | .magmaT => performMagmaT
  | .magmaG => performMagmaG
  | .magmaEncBlock => performMagmaEncBlock
  | .magmaDecBlock => performMagmaDecBlock
  | .magmaEnc => performMagmaEnc
  | .magmaDec => performMagmaDec

/-- Every command's meaning is the completion with its own writes. -/
theorem exec_eq (i : Instr) : exec i s = .next (complete i (perform i) s) := by cases i <;> rfl

/-- Every command answers a next state, in every state. -/
theorem exec_next (i : Instr) : ∃ t, exec i s = .next t := ⟨_, exec_eq s i⟩

/-- Everything a command can answer: its writes and success, or an error and nothing else. -/
theorem exec_cases {i : Instr} {t : State} (h : exec i s = .next t) :
    (check i s = .none ∧ t = completeOk (perform i s)) ∨
    (check i s ≠ .none ∧ t = completeError (isBufferCommand i) (check i s) s) := by
  rw [exec_eq] at h
  injection h with h
  subst h
  exact complete_cases s i (perform i)

/-! No command's writes touch the registers a host writes (R39), nor anything outside the engine. -/

section
variable (i : Instr)
@[simp] theorem perform_cmd : (perform i s).cmd = s.cmd := by cases i <;> rfl
@[simp] theorem perform_doneIe : (perform i s).doneIe = s.doneIe := by cases i <;> rfl
@[simp] theorem perform_len : (perform i s).len = s.len := by cases i <;> rfl
@[simp] theorem perform_ctr : (perform i s).ctr = s.ctr := by cases i <;> rfl
@[simp] theorem perform_key : (perform i s).key = s.key := by cases i <;> rfl
@[simp] theorem perform_nonce : (perform i s).nonce = s.nonce := by cases i <;> rfl
@[simp] theorem perform_turns : (perform i s).turns = s.turns := by cases i <;> rfl
@[simp] theorem perform_host : (perform i s).host = s.host := by cases i <;> rfl
end

/-- The bytes a command's writes put in OUT from byte 0 up; none for a primitive command (20_memory.md R72). -/
def outputBytes : Instr → State → List Byte
  | .chachaXor, s => chachaXor s.key s.nonce (s.readIn s.len.toNat)
  | .magmaEnc, s => magmaEncrypt s.key (s.readIn s.len.toNat)
  | .magmaDec, s => magmaDecryptBlocks s.key (s.readIn s.len.toNat)
  | .chachaQr, _ | .chachaInit, _ | .chachaBlock, _ | .magmaT, _ | .magmaG, _ | .magmaEncBlock, _
  | .magmaDecBlock, _ => []

/-- The only memory a command writes is OUT. -/
theorem perform_mem (i : Instr) : (perform i s).mem = pokes s.mem outBase (outputBytes i s) := by
  cases i <;> rfl

theorem outputBytes_length_le (i : Instr) (h : isBufferCommand i = true → s.len.toNat ≤ Config.bufBytes) :
    (outputBytes i s).length ≤ Config.bufBytes + 8 := by
  cases i <;> simp [outputBytes, isBufferCommand] at h ⊢ <;> omega

/-- The bytes written lie in OUT. -/
theorem outputBytes_inOut {i : Instr} (h : isBufferCommand i = true → s.len.toNat ≤ Config.bufBytes) {j : Nat}
    (hj : j < (outputBytes i s).length) : inOut (outBase + j) = true := by
  have := outputBytes_length_le s i h
  rw [inOut_iff]; omega

end Sys2Proof.Machine
end

