-- ==== Sys2Proof/Laws/Step.lean ====
section
/-! SUPPORT. Everything one step can do: which agent moves, and what each agent's turn can answer. -/

namespace Sys2Proof.Machine

variable (s : State)

/-! Taking a turn off the list changes nothing else. -/

@[simp] theorem popTurn_cmd : (popTurn s).cmd = s.cmd := rfl
@[simp] theorem popTurn_status : (popTurn s).status = s.status := rfl
@[simp] theorem popTurn_doneIe : (popTurn s).doneIe = s.doneIe := rfl
@[simp] theorem popTurn_doneIp : (popTurn s).doneIp = s.doneIp := rfl
@[simp] theorem popTurn_len : (popTurn s).len = s.len := rfl
@[simp] theorem popTurn_outLen : (popTurn s).outLen = s.outLen := rfl
@[simp] theorem popTurn_ctr : (popTurn s).ctr = s.ctr := rfl
@[simp] theorem popTurn_key : (popTurn s).key = s.key := rfl
@[simp] theorem popTurn_nonce : (popTurn s).nonce = s.nonce := rfl
@[simp] theorem popTurn_w : (popTurn s).w = s.w := rfl
@[simp] theorem popTurn_scr : (popTurn s).scr = s.scr := rfl
@[simp] theorem popTurn_blk : (popTurn s).blk = s.blk := rfl
@[simp] theorem popTurn_mem : (popTurn s).mem = s.mem := rfl
@[simp] theorem popTurn_draws : (popTurn s).draws = s.draws := rfl
@[simp] theorem popTurn_turns : (popTurn s).turns = s.turns.tail := rfl
@[simp] theorem popTurn_host : (popTurn s).host = s.host := rfl

/-! The record of accesses stands outside the engine. -/

section
variable (m : Master) (a : Access) (r : Reply)
@[simp] theorem recordAccess_cmd : (recordAccess m a r s).cmd = s.cmd := rfl
@[simp] theorem recordAccess_status : (recordAccess m a r s).status = s.status := rfl
@[simp] theorem recordAccess_doneIe : (recordAccess m a r s).doneIe = s.doneIe := rfl
@[simp] theorem recordAccess_doneIp : (recordAccess m a r s).doneIp = s.doneIp := rfl
@[simp] theorem recordAccess_len : (recordAccess m a r s).len = s.len := rfl
@[simp] theorem recordAccess_outLen : (recordAccess m a r s).outLen = s.outLen := rfl
@[simp] theorem recordAccess_ctr : (recordAccess m a r s).ctr = s.ctr := rfl
@[simp] theorem recordAccess_key : (recordAccess m a r s).key = s.key := rfl
@[simp] theorem recordAccess_nonce : (recordAccess m a r s).nonce = s.nonce := rfl
@[simp] theorem recordAccess_w : (recordAccess m a r s).w = s.w := rfl
@[simp] theorem recordAccess_scr : (recordAccess m a r s).scr = s.scr := rfl
@[simp] theorem recordAccess_blk : (recordAccess m a r s).blk = s.blk := rfl
@[simp] theorem recordAccess_mem : (recordAccess m a r s).mem = s.mem := rfl
@[simp] theorem recordAccess_draws : (recordAccess m a r s).draws = s.draws := rfl
@[simp] theorem recordAccess_turns : (recordAccess m a r s).turns = s.turns := rfl
@[simp] theorem recordAccess_vars : (recordAccess m a r s).host.vars = s.host.vars := rfl
end

/-! A script's encoding (30_encoding.md R100) grows by the script's own accesses alone. -/

/-- An access of the script goes to the end of its encoding. -/
@[simp] theorem scriptEncoding_record_script (a : Access) (r : Reply) :
    scriptEncoding (recordAccess .script a r s) = scriptEncoding s ++ [BusRecord.tuple ⟨.script, a, r⟩] := by
  simp [scriptEncoding, recordAccess]

/-- An access of another master does not. -/
@[simp] theorem scriptEncoding_record_other (a : Access) (r : Reply) :
    scriptEncoding (recordAccess .other a r s) = scriptEncoding s := by
  simp [scriptEncoding, recordAccess]

/-- The encoding depends on the record alone. -/
theorem scriptEncoding_congr {s t : State} (h : t.host.trace = s.host.trace) :
    scriptEncoding t = scriptEncoding s := by
  simp only [scriptEncoding, h]

/-- Taking an answer leaves the record. -/
@[simp] theorem takeReply_trace (d : Option Var) (r : Reply) (h : HostState) : (takeReply d r h).trace = h.trace := by
  cases r <;> cases d <;> rfl

/-! The engine's turn. -/

theorem completion_legal {i : Instr} (h : decode s.cmd = .ok i) : completion s = exec i s := by
  simp [completion, fetchWord, h]

theorem completion_illegal {e : Illegal} (h : decode s.cmd = .error e) :
    completion s = .next (completeIllegal s) := by
  simp [completion, fetchWord, h]

/-- Everything a completion can answer: an illegal word's error, or the command's completion. -/
theorem completion_cases {t : State} (h : completion s = .next t) :
    ((∃ e, decode s.cmd = .error e) ∧ t = completeIllegal s) ∨
    (∃ i, decode s.cmd = .ok i ∧ exec i s = .next t) := by
  cases hd : decode s.cmd with
  | error e => rw [completion_illegal s hd] at h; injection h with h; exact .inl ⟨⟨e, rfl⟩, h.symm⟩
  | ok i => rw [completion_legal s hd] at h; exact .inr ⟨i, rfl, h⟩

/-- A completion always answers a next state (R202). -/
theorem completion_next : ∃ t, completion s = .next t := by
  cases hd : decode s.cmd with
  | error e => exact ⟨_, completion_illegal s hd⟩
  | ok i => rw [completion_legal s hd]; exact exec_next s i

/-! The host's variables. -/

/-- A variable set reads back, and every other one stays. -/
theorem getVar_putVar (h : HostState) (r : Var) (v : Word) (y : Var) :
    getVar (putVar h r v) y = if y = r then v else getVar h y := by
  by_cases hv : v = 0
  · have e : (putVar h r v).vars = cellDrop h.vars r := if_pos hv
    unfold getVar
    rw [e, cellGet_cellDrop]
    by_cases hy : y = r
    · simp [hy, hv]
    · simp [hy, Ne.symm hy]
  · have e : (putVar h r v).vars = cellPut h.vars r v := if_neg hv
    unfold getVar
    rw [e, cellGet_cellPut]
    by_cases hy : y = r
    · simp [hy]
    · simp [hy, Ne.symm hy]

/-! The host's turns: what they do to the engine is one access, or nothing. -/

/-- Everything an access statement of the script can answer. -/
theorem accessStmt_cases {a : Access} {d : Option Var} {t : State} (h : accessStmt a d s = .next t) :
    ∃ r u, busAccess a s = some (r, u) ∧
      t = (recordAccess .script a r u).setHost (takeReply d r (recordAccess .script a r u).host) := by
  unfold accessStmt at h
  split at h
  · cases h
  · next r u hb => injection h with h; exact ⟨r, u, hb, h.symm⟩

/-- Everything a bus turn can answer. -/
theorem busTurn_cases {a : Access} {t : State} (h : busTurn a s = .next t) :
    ∃ r u, busAccess a s = some (r, u) ∧ t = recordAccess .other a r u := by
  unfold busTurn at h
  split at h
  · cases h
  · next r u hb => injection h with h; exact ⟨r, u, hb, h.symm⟩

/-- A bus turn inside the window takes the engine's answer. -/
theorem busTurn_inside {off : Nat} (ho : off < windowBytes) (w : Width) (op : AccessOp) :
    busTurn ⟨Config.engineBase + off, w, op⟩ s =
      .next (recordAccess .other ⟨Config.engineBase + off, w, op⟩ (engineAccess off w op s).1
        (engineAccess off w op s).2) := by
  simp only [busTurn, busAccess, windowOffset_base, if_pos ho, Option.map_some]

/-- An access statement inside the window takes the engine's answer. -/
theorem accessStmt_inside {o : Word} (ho : o.toNat < windowBytes) (w : Width) (op : AccessOp) (d : Option Var) :
    accessStmt (scriptAccess w o op) d s =
      let a := engineAccess o.toNat w op s
      let t := recordAccess .script (scriptAccess w o op) a.1 a.2
      .next (t.setHost (takeReply d a.1 t.host)) := by
  unfold accessStmt scriptAccess
  rw [busAccess_script, if_pos ho]

theorem branch_cases {b : Bool} {l : Label} {t : State} (h : branch b l s = .next t) :
    ∃ p, t = s.setHost { s.host with pos := p } := by
  unfold branch at h
  split at h
  · split at h
    · injection h with h; exact ⟨_, h.symm⟩
    · cases h
  · injection h with h; exact ⟨_, h.symm⟩

/-- Everything a statement can answer: one access and its answer taken, or a change of the host alone. -/
theorem runStmt_cases {c : Stmt} {t : State} (h : runStmt c s = .next t) :
    (∃ a d, accessStmt a d s = .next t) ∨ (∃ h', t = s.setHost h') := by
  cases c <;> simp only [runStmt] at h
  case wr => exact .inl ⟨_, _, h⟩
  case rd => exact .inl ⟨_, _, h⟩
  case bnz => obtain ⟨p, hp⟩ := branch_cases s h; exact .inr ⟨_, hp⟩
  case bz => obtain ⟨p, hp⟩ := branch_cases s h; exact .inr ⟨_, hp⟩
  case bne => obtain ⟨p, hp⟩ := branch_cases s h; exact .inr ⟨_, hp⟩
  all_goals injection h with h; exact .inr ⟨_, h.symm⟩

theorem scriptTurn_cases {t : State} (h : scriptTurn s = .next t) :
    (∃ a d, accessStmt a d s = .next t) ∨ (∃ h', t = s.setHost h') := by
  unfold scriptTurn at h
  split at h
  · exact runStmt_cases s h
  · injection h with h; exact .inr ⟨s.host, by rw [← h]; rfl⟩

/-- Everything a step can answer, by the agent whose turn it is. -/
theorem step_cases {t : State} (h : step s = .next t) :
    (nextTurn s = .engine ∧ s.status.busy = true ∧ completion (popTurn s) = .next t) ∨
    (nextTurn s = .engine ∧ s.status.busy = false ∧ t = popTurn s) ∨
    (nextTurn s = .script ∧ scriptTurn (popTurn s) = .next t) ∨
    (∃ a, nextTurn s = .bus a ∧ busTurn a (popTurn s) = .next t) ∨
    (nextTurn s = .reset ∧ t = resetEngine (popTurn s)) := by
  unfold step at h
  cases hn : nextTurn s with
  | engine =>
    rw [hn] at h
    simp only [runTurn, engineTurn, popTurn_status] at h
    by_cases hb : s.status.busy = true
    · simp only [hb, if_true] at h; exact .inl ⟨rfl, hb, h⟩
    · simp only [hb] at h; injection h with h; exact .inr (.inl ⟨rfl, by simpa using hb, h.symm⟩)
  | script => rw [hn] at h; exact .inr (.inr (.inl ⟨rfl, h⟩))
  | bus a => rw [hn] at h; exact .inr (.inr (.inr (.inl ⟨a, rfl, h⟩)))
  | reset => rw [hn] at h; injection h with h; exact .inr (.inr (.inr (.inr ⟨rfl, h.symm⟩)))

/-! The word that `withFetchWord` places is the one the next step completes. -/

@[simp] theorem withFetchWord_cmd (n w : Nat) : (s.withFetchWord n w).cmd = BitVec.ofNat 32 (w % 2 ^ n) := rfl
@[simp] theorem withFetchWord_status (n w : Nat) : (s.withFetchWord n w).status = Status.accepted := rfl

theorem nextTurn_withFetchWord (n w : Nat) : nextTurn (s.withFetchWord n w) = .engine := rfl

theorem popTurn_withFetchWord (n w : Nat) :
    popTurn (s.withFetchWord n w) = accept (BitVec.ofNat 32 (w % 2 ^ n)) s := rfl

/-! What a command does depends on its operands alone: from two states that agree in all but the interrupt
registers, the turns and the host, a completion's results agree. -/

theorem SameOperandsAndResults.refl : SameOperandsAndResults s s :=
  ⟨rfl, rfl, rfl, rfl, rfl, rfl, rfl, rfl, rfl, rfl, rfl, rfl⟩

theorem SameOperandsAndResults.trans {s t u : State} (h : SameOperandsAndResults s t)
    (h' : SameOperandsAndResults t u) : SameOperandsAndResults s u :=
  ⟨h'.cmd.trans h.cmd, h'.status.trans h.status, h'.len.trans h.len, h'.outLen.trans h.outLen,
    h'.ctr.trans h.ctr, h'.key.trans h.key, h'.nonce.trans h.nonce, h'.w.trans h.w, h'.scr.trans h.scr,
    h'.blk.trans h.blk, h'.mem.trans h.mem, h'.draws.trans h.draws⟩

theorem completeOk_congr {s t : State} (h : SameOperandsAndResults s t) :
    SameOperandsAndResults (completeOk s) (completeOk t) :=
  ⟨h.cmd, rfl, h.len, h.outLen, h.ctr, h.key, h.nonce, h.w, h.scr, h.blk, h.mem, h.draws⟩

theorem completeError_congr {s t : State} (b : Bool) (e : ErrCode) (h : SameOperandsAndResults s t) :
    SameOperandsAndResults (completeError b e s) (completeError b e t) := by
  cases b
  · exact ⟨h.cmd, rfl, h.len, h.outLen, h.ctr, h.key, h.nonce, h.w, h.scr, h.blk, h.mem, h.draws⟩
  · exact ⟨h.cmd, rfl, h.len, rfl, h.ctr, h.key, h.nonce, h.w, h.scr, h.blk, h.mem, h.draws⟩

theorem readIn_congr {s t : State} (h : SameOperandsAndResults s t) :
    t.readIn t.len.toNat = s.readIn s.len.toNat := by
  simp only [State.readIn, h.mem, h.draws, h.len]

theorem performChachaQr_congr {s t : State} (h : SameOperandsAndResults s t) :
    SameOperandsAndResults (performChachaQr s) (performChachaQr t) := by
  refine ⟨h.cmd, ?_, h.len, ?_, h.ctr, h.key, h.nonce, ?_, ?_, ?_, ?_, ?_⟩
  · rw [performChachaQr_status, performChachaQr_status, h.status]
  · rw [performChachaQr_outLen, performChachaQr_outLen, h.outLen]
  · rw [performChachaQr_w, performChachaQr_w, h.w]
  · rw [performChachaQr_scr, performChachaQr_scr, h.scr]
  · rw [performChachaQr_blk, performChachaQr_blk, h.blk]
  · rw [performChachaQr_mem, performChachaQr_mem, h.mem]
  · rw [performChachaQr_draws, performChachaQr_draws, h.draws]

theorem performChachaInit_congr {s t : State} (h : SameOperandsAndResults s t) :
    SameOperandsAndResults (performChachaInit s) (performChachaInit t) := by
  refine ⟨h.cmd, ?_, h.len, ?_, h.ctr, h.key, h.nonce, ?_, ?_, ?_, ?_, ?_⟩
  · rw [performChachaInit_status, performChachaInit_status, h.status]
  · rw [performChachaInit_outLen, performChachaInit_outLen, h.outLen]
  · rw [performChachaInit_w, performChachaInit_w, h.key, h.ctr, h.nonce]
  · rw [performChachaInit_scr, performChachaInit_scr, h.scr]
  · rw [performChachaInit_blk, performChachaInit_blk, h.blk]
  · rw [performChachaInit_mem, performChachaInit_mem, h.mem]
  · rw [performChachaInit_draws, performChachaInit_draws, h.draws]

theorem performChachaBlock_congr {s t : State} (h : SameOperandsAndResults s t) :
    SameOperandsAndResults (performChachaBlock s) (performChachaBlock t) := by
  refine ⟨h.cmd, ?_, h.len, ?_, h.ctr, h.key, h.nonce, ?_, ?_, ?_, ?_, ?_⟩
  · rw [performChachaBlock_status, performChachaBlock_status, h.status]
  · rw [performChachaBlock_outLen, performChachaBlock_outLen, h.outLen]
  · rw [performChachaBlock_w, performChachaBlock_w, h.key, h.ctr, h.nonce]
  · rw [performChachaBlock_scr, performChachaBlock_scr, h.scr]
  · rw [performChachaBlock_blk, performChachaBlock_blk, h.blk]
  · rw [performChachaBlock_mem, performChachaBlock_mem, h.mem]
  · rw [performChachaBlock_draws, performChachaBlock_draws, h.draws]

theorem performChachaXor_congr {s t : State} (h : SameOperandsAndResults s t) :
    SameOperandsAndResults (performChachaXor s) (performChachaXor t) := by
  have hr := readIn_congr h
  refine ⟨h.cmd, ?_, h.len, ?_, h.ctr, h.key, h.nonce, ?_, ?_, ?_, ?_, ?_⟩
  · rw [performChachaXor_status, performChachaXor_status, h.status]
  · rw [performChachaXor_outLen, performChachaXor_outLen, h.len]
  · rw [performChachaXor_w, performChachaXor_w, h.w]
  · rw [performChachaXor_scr, performChachaXor_scr, h.scr]
  · rw [performChachaXor_blk, performChachaXor_blk, h.blk]
  · rw [performChachaXor_mem, performChachaXor_mem, hr, h.key, h.nonce, h.mem]
  · rw [performChachaXor_draws, performChachaXor_draws, h.draws, h.len]

theorem performMagmaT_congr {s t : State} (h : SameOperandsAndResults s t) :
    SameOperandsAndResults (performMagmaT s) (performMagmaT t) := by
  refine ⟨h.cmd, ?_, h.len, ?_, h.ctr, h.key, h.nonce, ?_, ?_, ?_, ?_, ?_⟩
  · rw [performMagmaT_status, performMagmaT_status, h.status]
  · rw [performMagmaT_outLen, performMagmaT_outLen, h.outLen]
  · rw [performMagmaT_w, performMagmaT_w, h.w]
  · rw [performMagmaT_scr, performMagmaT_scr, h.scr]
  · rw [performMagmaT_blk, performMagmaT_blk, h.blk]
  · rw [performMagmaT_mem, performMagmaT_mem, h.mem]
  · rw [performMagmaT_draws, performMagmaT_draws, h.draws]

theorem performMagmaG_congr {s t : State} (h : SameOperandsAndResults s t) :
    SameOperandsAndResults (performMagmaG s) (performMagmaG t) := by
  refine ⟨h.cmd, ?_, h.len, ?_, h.ctr, h.key, h.nonce, ?_, ?_, ?_, ?_, ?_⟩
  · rw [performMagmaG_status, performMagmaG_status, h.status]
  · rw [performMagmaG_outLen, performMagmaG_outLen, h.outLen]
  · rw [performMagmaG_w, performMagmaG_w, h.w]
  · rw [performMagmaG_scr, performMagmaG_scr, h.scr]
  · rw [performMagmaG_blk, performMagmaG_blk, h.blk]
  · rw [performMagmaG_mem, performMagmaG_mem, h.mem]
  · rw [performMagmaG_draws, performMagmaG_draws, h.draws]

theorem performMagmaEncBlock_congr {s t : State} (h : SameOperandsAndResults s t) :
    SameOperandsAndResults (performMagmaEncBlock s) (performMagmaEncBlock t) := by
  refine ⟨h.cmd, ?_, h.len, ?_, h.ctr, h.key, h.nonce, ?_, ?_, ?_, ?_, ?_⟩
  · rw [performMagmaEncBlock_status, performMagmaEncBlock_status, h.status]
  · rw [performMagmaEncBlock_outLen, performMagmaEncBlock_outLen, h.outLen]
  · rw [performMagmaEncBlock_w, performMagmaEncBlock_w, h.w]
  · rw [performMagmaEncBlock_scr, performMagmaEncBlock_scr, h.scr]
  · rw [performMagmaEncBlock_blk, performMagmaEncBlock_blk, h.key, h.blk]
  · rw [performMagmaEncBlock_mem, performMagmaEncBlock_mem, h.mem]
  · rw [performMagmaEncBlock_draws, performMagmaEncBlock_draws, h.draws]

theorem performMagmaDecBlock_congr {s t : State} (h : SameOperandsAndResults s t) :
    SameOperandsAndResults (performMagmaDecBlock s) (performMagmaDecBlock t) := by
  refine ⟨h.cmd, ?_, h.len, ?_, h.ctr, h.key, h.nonce, ?_, ?_, ?_, ?_, ?_⟩
  · rw [performMagmaDecBlock_status, performMagmaDecBlock_status, h.status]
  · rw [performMagmaDecBlock_outLen, performMagmaDecBlock_outLen, h.outLen]
  · rw [performMagmaDecBlock_w, performMagmaDecBlock_w, h.w]
  · rw [performMagmaDecBlock_scr, performMagmaDecBlock_scr, h.scr]
  · rw [performMagmaDecBlock_blk, performMagmaDecBlock_blk, h.key, h.blk]
  · rw [performMagmaDecBlock_mem, performMagmaDecBlock_mem, h.mem]
  · rw [performMagmaDecBlock_draws, performMagmaDecBlock_draws, h.draws]

theorem performMagmaEnc_congr {s t : State} (h : SameOperandsAndResults s t) :
    SameOperandsAndResults (performMagmaEnc s) (performMagmaEnc t) := by
  have hr := readIn_congr h
  refine ⟨h.cmd, ?_, h.len, ?_, h.ctr, h.key, h.nonce, ?_, ?_, ?_, ?_, ?_⟩
  · rw [performMagmaEnc_status, performMagmaEnc_status, h.status]
  · rw [performMagmaEnc_outLen, performMagmaEnc_outLen, hr, h.key]
  · rw [performMagmaEnc_w, performMagmaEnc_w, h.w]
  · rw [performMagmaEnc_scr, performMagmaEnc_scr, h.scr]
  · rw [performMagmaEnc_blk, performMagmaEnc_blk, h.blk]
  · rw [performMagmaEnc_mem, performMagmaEnc_mem, hr, h.key, h.mem]
  · rw [performMagmaEnc_draws, performMagmaEnc_draws, h.draws, h.len]

theorem performMagmaDec_congr {s t : State} (h : SameOperandsAndResults s t) :
    SameOperandsAndResults (performMagmaDec s) (performMagmaDec t) := by
  have hr := readIn_congr h
  refine ⟨h.cmd, ?_, h.len, ?_, h.ctr, h.key, h.nonce, ?_, ?_, ?_, ?_, ?_⟩
  · rw [performMagmaDec_status, performMagmaDec_status, h.status]
  · rw [performMagmaDec_outLen, performMagmaDec_outLen, hr, h.key]
  · rw [performMagmaDec_w, performMagmaDec_w, h.w]
  · rw [performMagmaDec_scr, performMagmaDec_scr, h.scr]
  · rw [performMagmaDec_blk, performMagmaDec_blk, h.blk]
  · rw [performMagmaDec_mem, performMagmaDec_mem, hr, h.key, h.mem]
  · rw [performMagmaDec_draws, performMagmaDec_draws, h.draws, h.len]

theorem perform_congr {s t : State} (h : SameOperandsAndResults s t) (i : Instr) :
    SameOperandsAndResults (perform i s) (perform i t) := by
  cases i
  · exact performChachaQr_congr h
  · exact performChachaInit_congr h
  · exact performChachaBlock_congr h
  · exact performChachaXor_congr h
  · exact performMagmaT_congr h
  · exact performMagmaG_congr h
  · exact performMagmaEncBlock_congr h
  · exact performMagmaDecBlock_congr h
  · exact performMagmaEnc_congr h
  · exact performMagmaDec_congr h

end Sys2Proof.Machine
end

