-- ==== Sys2Proof/Laws/HostScript.lean ====
section
/-! SUPPORT. The script host's whole scripts: what an idle engine's next step is, how a run of plain statements
expands, where a label stands, and what a byte operation's result is once its script has halted. -/

namespace Sys2Proof.Machine

/-! STATUS's bits as a script tests them (10_state.md R28). -/

@[simp] theorem word_getElem_done (t : Status) : t.word[1] = t.done := by
  obtain ⟨a, b, c, e⟩ := t; cases a <;> cases b <;> cases c <;> cases e <;> rfl

@[simp] theorem word_getElem_err (t : Status) : t.word[2] = t.err := by
  obtain ⟨a, b, c, e⟩ := t; cases a <;> cases b <;> cases c <;> cases e <;> rfl

@[simp] theorem ofCode_code (e : ErrCode) : ErrCode.ofCode e.code = some e := by cases e <;> rfl

@[simp] theorem word_code (t : Status) : t.word.extractLsb' 8 4 = t.errcode.code := by
  obtain ⟨a, b, c, e⟩ := t; cases a <;> cases b <;> cases c <;> cases e <;> rfl

/-! Expansion (R97 to R99). -/

/-- Plain statements in front of other lines expand to themselves and count as one line each. -/
theorem expandFrom_stmts (p : List Stmt) (rest : List Line) (n : Nat) :
    expandFrom n (p.map Line.stmt ++ rest) = (expandFrom (n + p.length) rest).map (p ++ ·) := by
  induction p generalizing n with
  | nil => simp
  | cons a p ih =>
    simp only [List.map_cons, List.cons_append, expandFrom, expandLine, ih]
    rw [show n + (a :: p).length = n + 1 + p.length by simp; omega]
    cases expandFrom (n + 1 + p.length) rest <;> simp

/-- A label stands where the script first defines it (log 8). -/
theorem labelIndex_of_first {p : List Stmt} {l : Label} {i : Nat} (h : p[i]? = some (.label l))
    (first : ∀ j < i, p[j]? ≠ some (.label l)) : labelIndex p l = some i := by
  obtain ⟨hi, he⟩ := List.getElem?_eq_some_iff.1 h
  rw [labelIndex, List.findIdx?_eq_some_iff_getElem]
  refine ⟨hi, by simp [he], fun j hj => ?_⟩
  have := first j hj
  rw [List.getElem?_eq_getElem (by omega)] at this
  simpa using this

/-! Runs. -/

/-- With no turn listed and the engine idle, a step is the script's next statement. -/
theorem step_idle_script {s : State} (ht : s.turns = []) (hb : s.status.busy = false) {c : Stmt}
    (hc : nextStmt s.host = some c) : step s = runStmt c s := by
  have hn : nextTurn s = .script := by simp [nextTurn, ht, defaultTurn, hb]
  have hp : popTurn s = s := by cases s; simp_all [popTurn, State.setTurns]
  simp only [step, hn, runTurn, hp, scriptTurn, hc]

/-- The result of a byte operation whose script has halted with a STATUS in `%s` (R190). -/
theorem facadeResult_halted {s : State} {t : Status} (h : s.host.stop = some .halted)
    (hs : getVar s.host varS = t.word) :
    facadeResult s = if t.done then
      (if t.err then some (.error t.errcode) else some (.ok (bytesReadByScript s.host))) else none := by
  simp [facadeResult, h, hs]

end Sys2Proof.Machine
end

