-- ==== Sys2Proof/Laws/PerInstr.lean ====
section
/-! SUPPORT. Statements about every command, one lemma per constructor. -/

/-- A command is well formed, its word is legal (30_encoding.md R93), and the decoder reads the command back from
its word and from its bytes with any bytes after them (R96). -/
def Sys2Proof.Laws.Encoding.Statement (i : Sys2Proof.Instr) : Prop :=
  i.wf = true ∧ Sys2Proof.wordLegal (Sys2Proof.encode i) = true ∧
    Sys2Proof.decode (Sys2Proof.encode i) = .ok i ∧
    ∀ rest, Sys2Proof.decodeBytes (Sys2Proof.encodeBytes i ++ rest) = .ok (i, rest)

namespace Sys2Proof.Laws.Encoding

theorem chachaQr : Statement .chachaQr := ⟨rfl, rfl, rfl, fun _ => rfl⟩
theorem chachaInit : Statement .chachaInit := ⟨rfl, rfl, rfl, fun _ => rfl⟩
theorem chachaBlock : Statement .chachaBlock := ⟨rfl, rfl, rfl, fun _ => rfl⟩
theorem chachaXor : Statement .chachaXor := ⟨rfl, rfl, rfl, fun _ => rfl⟩
theorem magmaT : Statement .magmaT := ⟨rfl, rfl, rfl, fun _ => rfl⟩
theorem magmaG : Statement .magmaG := ⟨rfl, rfl, rfl, fun _ => rfl⟩
theorem magmaEncBlock : Statement .magmaEncBlock := ⟨rfl, rfl, rfl, fun _ => rfl⟩
theorem magmaDecBlock : Statement .magmaDecBlock := ⟨rfl, rfl, rfl, fun _ => rfl⟩
theorem magmaEnc : Statement .magmaEnc := ⟨rfl, rfl, rfl, fun _ => rfl⟩
theorem magmaDec : Statement .magmaDec := ⟨rfl, rfl, rfl, fun _ => rfl⟩

end Sys2Proof.Laws.Encoding
end

