-- ==== Sys2Proof/Tests/Slice0.lean ====
section
/-! SUPPORT. The model's own tests: ill-formed terms that the checks refuse, command words written out from
30_encoding.md R90 and R91, one-step vectors of 95_test_vectors.md, and, for each statement of
Certificates/Slice0/Obligations.lean that has hypotheses, a witness that meets them. Expected values come from
the spec, never from the model. -/

namespace Sys2Proof.Tests

-- One theorem at a time: many kernel evaluations at once take too much memory.
set_option Elab.async false

open Sys2Proof.Machine

/-! Well-formedness: each check refuses an ill-formed term. -/

/-- RSV is not zero (R93). -/
theorem test_wordLegal_refuses_reserved_bits : wordLegal 0x00000101 = false := by decide
/-- OP 0x00 is no opcode (R94). -/
theorem test_wordLegal_refuses_opcode_zero : wordLegal 0x00000000 = false := by decide
/-- OP 0x0B is the first above the map (R94); 0x0A is the last of it (R91). -/
theorem test_wordLegal_refuses_opcode_eleven : wordLegal 0x0000000B = false ∧ wordLegal 0x0000000A = true := by
  decide
/-- A label defined twice. -/
theorem test_scriptWf_refuses_a_label_twice :
    labelsUnique [.label (.user 1), .halt, .label (.user 1)] = false ∧
      scriptWf [.label (.user 1), .halt, .label (.user 1)] = false := by decide
/-- A branch to a label that is nowhere defined. -/
theorem test_scriptWf_refuses_a_missing_label :
    targetsDefined [.bnz 1 (.lit 1) (.user 2), .label (.user 1)] = false ∧
      scriptWf [.bnz 1 (.lit 1) (.user 2), .label (.user 1)] = false := by decide
/-- The expansion of `wait` is well formed, and so is every command. -/
theorem test_wf_accepts : scriptWf (waitStmts (.fresh 0)) = true ∧ Instr.all.all Instr.wf = true := by decide

/-! Decoding: every constructor's word, bit by bit: RSV [31:8], OP [7:0] (R90, R91). -/

theorem test_decode_chachaQr : decode 0b00000000_00000000_00000000_00000001#32 = .ok .chachaQr := rfl
theorem test_decode_chachaInit : decode 0b00000000_00000000_00000000_00000010#32 = .ok .chachaInit := rfl
theorem test_decode_chachaBlock : decode 0b00000000_00000000_00000000_00000011#32 = .ok .chachaBlock := rfl
theorem test_decode_chachaXor : decode 0b00000000_00000000_00000000_00000100#32 = .ok .chachaXor := rfl
theorem test_decode_magmaT : decode 0b00000000_00000000_00000000_00000101#32 = .ok .magmaT := rfl
theorem test_decode_magmaG : decode 0b00000000_00000000_00000000_00000110#32 = .ok .magmaG := rfl
theorem test_decode_magmaEncBlock : decode 0b00000000_00000000_00000000_00000111#32 = .ok .magmaEncBlock := rfl
theorem test_decode_magmaDecBlock : decode 0b00000000_00000000_00000000_00001000#32 = .ok .magmaDecBlock := rfl
theorem test_decode_magmaEnc : decode 0b00000000_00000000_00000000_00001001#32 = .ok .magmaEnc := rfl
theorem test_decode_magmaDec : decode 0b00000000_00000000_00000000_00001010#32 = .ok .magmaDec := rfl
/-- V-ERR-1 to V-ERR-5: the words the spec lists as illegal. -/
theorem test_decode_rejects_by_name :
    decode 0x00000000 = .error .unknownOpcode ∧ decode 0x0000000B = .error .unknownOpcode ∧
    decode 0x000000FF = .error .unknownOpcode ∧ decode 0x00000101 = .error .reservedBits ∧
    decode 0xFFFFFFFF = .error .reservedBits := ⟨rfl, rfl, rfl, rfl, rfl⟩
/-- The least significant byte comes first (R64), and three bytes are no command. -/
theorem test_decodeBytes :
    decodeBytes [0x0A, 0, 0, 0, 0x77] = .ok (.magmaDec, [0x77]) ∧ decodeBytes [0x0A, 0, 0] = .error .truncated :=
  ⟨rfl, rfl⟩
theorem test_decodeTableWord :
    decodeTableWord 32 0x00000009 = some .magmaEnc ∧ decodeTableWord 32 0x00000109 = none := ⟨rfl, rfl⟩

/-! One step: the next step completes the placed word as the first command after reset. -/

theorem test_step_runs_the_placed_word (i : Instr) :
    step (State.reset.withFetchWord 32 (encode i).toNat) = exec i (accept (encode i) State.reset) := by
  cases i <;> rfl

/-- What a command leaves; the state itself where it answers no next state. -/
def after (i : Instr) (s : State) : State :=
  match exec i s with
  | .next t => t
  | .fault _ => s
  | .refused _ => s

/-- The bytes of a hex string. -/
def hex (s : String) : List Byte := parseHex s.toList

/-- The spec's `K_RFC`. -/
def keyRfc : Vector Word 8 :=
  #v[0xffeeddcc, 0xbbaa9988, 0x77665544, 0x33221100, 0xf0f1f2f3, 0xf4f5f6f7, 0xf8f9fafb, 0xfcfdfeff]

/-- The spec's `K_SEQ`. -/
def keySeq : Vector Word 8 :=
  #v[0x03020100, 0x07060504, 0x0b0a0908, 0x0f0e0d0c, 0x13121110, 0x17161514, 0x1b1a1918, 0x1f1e1d1c]

/-- A small state with a key, and IN and LEN set to a byte sequence. -/
def withInput (k : Vector Word 8) (d : List Byte) : State :=
  { State.reset with key := k, len := BitVec.ofNat 32 d.length, mem := pokes [] inBase d }

/-! ChaCha20 vectors (V-CC). -/

theorem test_chachaQr_rfc :
    (after .chachaQr { State.reset with scr := #v[0x11111111, 0x01020304, 0x9b8d6f43, 0x01234567] }).scr =
      #v[0xea2a92f4, 0xcb1cf8ce, 0x4581472e, 0x5881c4bb] := by decide +kernel
theorem test_chachaQr_wraps :
    (after .chachaQr { State.reset with scr := Vector.replicate 4 0xffffffff }).scr =
      #v[0xf0000ffd, 0x88790878, 0x0110fdef, 0x010ffdf0] := by decide +kernel
theorem test_chachaInit_rfc :
    (after .chachaInit { State.reset with key := keySeq, ctr := 1, nonce := #v[0x09000000, 0x4a000000, 0] }).w =
      #v[0x61707865, 0x3320646e, 0x79622d32, 0x6b206574, 0x03020100, 0x07060504, 0x0b0a0908, 0x0f0e0d0c,
        0x13121110, 0x17161514, 0x1b1a1918, 0x1f1e1d1c, 0x00000001, 0x09000000, 0x4a000000, 0x00000000] := by
  decide +kernel
theorem test_chachaBlock_rfc :
    (after .chachaBlock { State.reset with key := keySeq, ctr := 1, nonce := #v[0x09000000, 0x4a000000, 0] }).w =
      #v[0xe4e7f110, 0x15593bd1, 0x1fdd0f50, 0xc47120a3, 0xc7f4d1c7, 0x0368c033, 0x9aaa2204, 0x4e6cd4c3,
        0x466482d2, 0x09aa9f07, 0x05d7c214, 0xa2028bd9, 0xd19c12b5, 0xb94e16de, 0xe883d0cb, 0x4e3c50a2] := by
  decide +kernel
theorem test_chachaBlock_keeps_ctr :
    (after .chachaBlock { State.reset with ctr := 0xffffffff }).ctr = 0xffffffff ∧
      (after .chachaBlock { State.reset with ctr := 0xffffffff }).w[0] = 0x09cde4ac := by decide +kernel
/-- V-CC-XOR-2: the zero key's keystream. -/
theorem test_chachaXor_zero_key : ∃ t, exec .chachaXor (withInput (Vector.replicate 8 0) (List.replicate 64 0)) =
      .next t ∧ t.outLen = 64 ∧ (List.range 64).map (fun j => peek t.mem (0x20000 + j)) =
      (hex ("76b8e0ada0f13d90405d6ae55386bd28bdd219b8a08ded1aa836efcc8b770dc7" ++
        "da41597c5157488d7724e03fb8d84a376a43b8f41518a11cc387b669b2ee6586")).map some :=
  ⟨_, exec_chachaXor _ bufBytes_ge, rfl, by decide +kernel⟩
/-- V-CC-XOR-5. -/
theorem test_chachaXor_too_long :
    after .chachaXor { State.reset with len := 0xffffffff, outLen := 7 } =
      { State.reset with len := 0xffffffff, outLen := 0, status := ⟨false, true, true, .lengthOutOfRange⟩,
                         doneIp := true } := by
  have h := bufBytes_le
  rw [after, exec, execChachaXor, complete_of_error _ _ (by rw [check_long _ rfl (by simp; omega)]; simp),
    check_long _ rfl (by simp; omega)]
  rfl

/-! Magma vectors (V-MG). -/

theorem test_magmaT_rfc : (after .magmaT { State.reset with scr := #v[0xfdb97531, 1, 2, 3] }).scr =
    #v[0x2a196f34, 1, 2, 3] := by decide +kernel
theorem test_magmaT_columns : (after .magmaT { State.reset with scr := #v[0x01234567, 0, 0, 0] }).scr[0] =
    0x1efadf59 := by decide +kernel
theorem test_magmaG_rfc : (after .magmaG { State.reset with scr := #v[0xfedcba98, 0x87654321, 2, 3] }).scr =
    #v[0xfdcbc20c, 0x87654321, 2, 3] := by decide +kernel
theorem test_magmaG_wraps : (after .magmaG { State.reset with scr := #v[0xffffffff, 1, 0, 0] }).scr[0] =
    0xbe5b60c2 := by decide +kernel
theorem test_magmaEncBlock_rfc :
    (after .magmaEncBlock { State.reset with key := keyRfc, blk := #v[0xfedcba98, 0x76543210] }).blk =
      #v[0x4ee901e5, 0xc2d8ca3d] := by decide +kernel
theorem test_magmaDecBlock_rfc :
    (after .magmaDecBlock { State.reset with key := keyRfc, blk := #v[0x4ee901e5, 0xc2d8ca3d] }).blk =
      #v[0xfedcba98, 0x76543210] := by decide +kernel
/-- V-MG-ENC-1: an empty buffer gives one pad block. -/
theorem test_magmaEnc_empty : ∃ t, exec .magmaEnc (withInput keyRfc []) = .next t ∧ t.outLen = 8 ∧
    (List.range 8).map (fun j => peek t.mem (0x20000 + j)) = (hex "2bbb857f2dad28d1").map some :=
  ⟨_, exec_magmaEnc _ (Nat.zero_le _), by decide +kernel, by decide +kernel⟩
/-- V-MG-ENC-8: "abc". -/
theorem test_magmaEnc_abc : ∃ t, exec .magmaEnc (withInput keyRfc (hex "616263")) = .next t ∧ t.outLen = 8 ∧
    (List.range 8).map (fun j => peek t.mem (0x20000 + j)) = (hex "a40df43a4d669129").map some :=
  ⟨_, exec_magmaEnc _ (Nat.le_trans (by decide) bufBytes_ge), by decide +kernel, by decide +kernel⟩
/-- V-MG-DEC-7: the last byte 2 alone decides, all eight bytes are written. -/
theorem test_magmaDec_last_byte : ∃ t, exec .magmaDec (withInput keyRfc (hex "dfdb7f4f00dc10a7")) = .next t ∧
    t.outLen = 6 ∧ (List.range 8).map (fun j => peek t.mem (0x20000 + j)) = (hex "4141414141414102").map some :=
  ⟨_, exec_magmaDec _ (Nat.le_trans (by decide) bufBytes_ge) (by decide), by decide +kernel, by decide +kernel⟩
/-- V-MG-DEC-8: LEN = 5. -/
theorem test_magmaDec_ragged :
    after .magmaDec { State.reset with len := 5, outLen := 7 } =
      { State.reset with len := 5, outLen := 0, status := ⟨false, true, true, .invalidCiphertextLength⟩,
                         doneIp := true } := by
  have h := bufBytes_ge
  rw [after, exec, execMagmaDec, complete_of_error _ _ (by rw [check_ragged _ (by simp; omega) (by simp)]; simp),
    check_ragged _ (by simp; omega) (by simp)]
  rfl

/-! Bus vectors (V-BUS). -/

/-- V-BUS-3 to V-BUS-8: a write of ID and of W0, a read of a reserved offset, narrow and misaligned accesses, a
write of OUT. -/
theorem test_bus_errors :
    engineAccess 0x000 .w32 (.write 5) State.reset = (.busError, State.reset) ∧
    engineAccess 0x080 .w32 (.write 5) State.reset = (.busError, State.reset) ∧
    engineAccess 0x024 .w32 .read State.reset = (.busError, State.reset) ∧
    engineAccess 0x008 .w8 .read State.reset = (.busError, State.reset) ∧
    engineAccess 0x018 .w16 (.write 5) State.reset = (.busError, State.reset) := ⟨rfl, rfl, rfl, rfl, rfl⟩

theorem regionOf_above_in : regionOf (0x10000 + Config.bufBytes) = .reserved := by
  have := bufBytes_le
  rcases regionOf_cases (0x10000 + Config.bufBytes) with ⟨h, _⟩ | ⟨h, _⟩ | ⟨h, _⟩ | ⟨_, _, _, h⟩
  · omega
  · rw [inIn_iff] at h; unfold inBase at h; omega
  · rw [inOut_iff] at h; unfold outBase at h; omega
  · exact h

theorem regionOf_above_out : regionOf (0x20000 + Config.bufBytes + 8) = .reserved := by
  rcases regionOf_cases (0x20000 + Config.bufBytes + 8) with ⟨h, _⟩ | ⟨h, _⟩ | ⟨h, _⟩ | ⟨_, _, _, h⟩
  · omega
  · rw [inIn_iff] at h; unfold inBase at h; omega
  · rw [inOut_iff] at h; unfold outBase at h; omega
  · exact h

/-- V-BUS-7, V-BUS-9 to V-BUS-11: IN ends at its size, OUT 8 bytes above it, and its last bytes can be read. -/
theorem test_bus_buffer_ends :
    (engineAccess 0x10002 .w32 .read State.reset).1 = .busError ∧
    (engineAccess (0x10000 + Config.bufBytes) .w32 .read State.reset).1 = .busError ∧
    (engineAccess (0x20000 + Config.bufBytes + 8) .w32 .read State.reset).1 = .busError ∧
    (engineAccess (0x20000 + Config.bufBytes + 4) .w32 .read State.reset).1 ≠ .busError ∧
    (engineAccess (0x20000 + Config.bufBytes + 4) .w32 (.write 5) State.reset).1 = .busError := by
  have hm := bufBytes_mod
  have hi : inOut (0x20000 + Config.bufBytes + 4) = true := by rw [inOut_iff]; unfold outBase; omega
  refine ⟨?_, ?_, ?_, ?_, ?_⟩
  · simp [engineAccess, accessFails, Width.bytes]
  · simp [engineAccess, accessFails, regionOf_above_in]
  · simp [engineAccess, accessFails, regionOf_above_out]
  · rw [engineAccess_readBuffer rfl (.inr hi) (by simp only [Width.bytes]; omega)]; simp
  · simp [engineAccess, accessFails, regionOf_inOut hi, writableAt, AccessOp.isWrite]

/-- V-BUS-14 to V-BUS-17: the interrupt registers. -/
theorem test_bus_interrupt_registers :
    readReg .irqEn (engineAccess 0x010 .w32 (.write 0xffffffff) State.reset).2 = 1 ∧
    readReg .irqStatus (engineAccess 0x014 .w32 (.write 0xfffffffe) { State.reset with doneIp := true }).2 = 1 ∧
    readReg .irqStatus (engineAccess 0x014 .w32 (.write 1) { State.reset with doneIp := true }).2 = 0 :=
  ⟨rfl, rfl, rfl⟩

/-- V-BUS-18 to V-BUS-21: while busy STATUS can be read and the interrupt registers written, and no more. -/
theorem test_bus_while_busy :
    (engineAccess 0x00C .w32 .read { State.reset with status := Status.accepted }).1 = .data 1 ∧
    (engineAccess 0x008 .w32 (.write 1) { State.reset with status := Status.accepted }).1 = .busError ∧
    (engineAccess 0x018 .w32 .read { State.reset with status := Status.accepted }).1 = .busError ∧
    (engineAccess 0x10000 .w8 .read { State.reset with status := Status.accepted }).1 = .busError ∧
    (engineAccess 0x010 .w32 (.write 1) { State.reset with status := Status.accepted }).1 = .written :=
  ⟨rfl, rfl, rfl, rfl, rfl⟩

/-- R100's example: `cmd MAGMA_ENC` encodes as (W, 0x008, 4, 0x00000009). -/
theorem test_scriptEncoding_cmd :
    scriptEncoding (recordAccess .script (scriptAccess .w32 0x008 (.write (encode .magmaEnc))) .written State.reset) =
      [(true, 0x008, 4, some 0x00000009)] := by
  rw [scriptEncoding_record_script]
  simp [BusRecord.tuple, scriptAccess, AccessOp.isWrite, Width.bytes, encode, Instr.opcode]
  rfl

/-! Key strings (W7). -/

theorem test_validateKey :
    validateKey (List.replicate 88 '0') 88 = true ∧ validateKey (List.replicate 64 'F') 64 = true ∧
    validateKey (List.replicate 87 '0' ++ ['Z']) 88 = false ∧ validateKey (List.replicate 63 '0' ++ ['g']) 64 = false ∧
    validateKey [] 64 = false := by decide +kernel

/-! A byte operation's result (R190): ERRCODE 2 in the final STATUS, a BusError, and the reserved codes of R200. -/

theorem test_facadeResult :
    facadeResult { State.reset with host := ⟨[], 0, [(varS, 0x00000206)], some .halted, []⟩ } =
      some (.error .invalidCiphertextLength) ∧
    facadeResult { State.reset with host := ⟨[], 0, [(varS, 0x00000002)], some .busError, []⟩ } = none ∧
    ErrCode.ofCode 5 = none ∧ ErrCode.ofCode 15 = none := ⟨rfl, rfl, rfl, rfl⟩

/-! Witnesses: states and operands that meet the hypotheses of the statements, together. -/

/-- A busy engine with a command in CMD and a given list of turns. -/
def busyWith (i : Instr) (turns : List Turn) : State :=
  { State.reset with cmd := encode i, status := Status.accepted, turns := turns }

/-- A script host about to run one statement; label 1 stands behind it. -/
def hostWith (c : Stmt) : State :=
  { State.reset with host := ⟨[c, .label (.user 1)], 0, [], none, []⟩ }

/-- A script host about to run one statement, with 7 in its variable 2. -/
def hostWithVar (c : Stmt) : State :=
  { State.reset with host := ⟨[c], 0, [(2, 7)], none, []⟩ }

/-- A bus turn that writes a byte to IN[0]. -/
def writeIn0 : Turn := .bus ⟨Config.engineBase + 0x10000, .w8, .write 0x55⟩

/-- LEN at its largest, BUF_BYTES. -/
def fullLen : Word := BitVec.ofNat 32 Config.bufBytes

theorem fullLen_toNat : fullLen.toNat = Config.bufBytes := by
  have := bufBytes_le
  rw [fullLen, BitVec.toNat_ofNat, Nat.mod_eq_of_lt (by omega)]

/-- LEN one above its largest. -/
def overLen : Word := BitVec.ofNat 32 (Config.bufBytes + 1)

theorem overLen_toNat : overLen.toNat = Config.bufBytes + 1 := by
  have := bufBytes_le
  rw [overLen, BitVec.toNat_ofNat, Nat.mod_eq_of_lt (by omega)]

theorem reset_inv : State.reset.Inv := ⟨rfl, Nat.zero_le _, rfl, rfl, rfl, rfl⟩

theorem witness_ResetGivesTheTabledState :
    nextTurn { busyWith .chachaXor [.reset] with outLen := 7 } = .reset := rfl

theorem witness_StepKeepsTheInvariant : ∃ s t : State, s.Inv ∧ s.status.busy = true ∧ step s = .next t :=
  ⟨busyWith .chachaQr [], _, ⟨rfl, Nat.zero_le _, rfl, rfl, rfl, rfl⟩, rfl, rfl⟩

theorem witness_EncodeAndDecodeAgreeOverAllBytes : decodeBytes [0x0A, 0, 0, 0, 0xFF] = .ok (.magmaDec, [0xFF]) := rfl

theorem witness_IllegalWordsAreAcceptedAndReportCode4 :
    (decode 0x0000000B = .error .unknownOpcode ∧ State.reset.status.busy = false) ∧
    ∃ s : State, decode s.cmd = .error .reservedBits ∧ s.status.busy = true ∧ nextTurn s = .engine :=
  ⟨⟨rfl, rfl⟩, { busyWith .chachaQr [] with cmd := 0x00000101 }, rfl, rfl, rfl⟩

theorem witness_AcceptanceTakesAnyWordWhenIdle :
    State.reset.status.busy = false ∧ (busyWith .magmaT []).status.busy = true := ⟨rfl, rfl⟩

theorem witness_EngineTurnRunsTheDecodedCommand :
    (nextTurn (busyWith .magmaDec [.engine]) = .engine ∧ (busyWith .magmaDec [.engine]).status.busy = true ∧
      decode (busyWith .magmaDec [.engine]).cmd = .ok .magmaDec) ∧
    decode (BitVec.ofNat 32 (0x0A % 2 ^ 32)) = .ok .magmaDec := ⟨⟨rfl, rfl, rfl⟩, rfl⟩

theorem witness_BusyEngineTurnAlwaysCompletes :
    ((busyWith .magmaT []).turns = [] ∧ (busyWith .magmaT []).status.busy = true) ∧
    nextTurn (busyWith .magmaT [.engine, .script]) = .engine ∧
      (busyWith .magmaT [.engine, .script]).status.busy = true := ⟨⟨rfl, rfl⟩, rfl, rfl⟩

theorem witness_IdleEngineTurnChangesNothing :
    nextTurn { State.reset with turns := [.engine] } = .engine ∧
      ({ State.reset with turns := [.engine] } : State).status.busy = false := ⟨rfl, rfl⟩

theorem witness_FinishedRunStaysAsItIs : State.reset.finished = true := rfl

/-- The first address above the window, by a bus turn and by a script's write and read, and each branch, taken, to a
label that is not there. -/
theorem witness_OnlyAccessesOutsideTheSpecStopTheMachine :
    (∃ s, nextTurn s = .bus ⟨Config.engineBase + 0x30000, .w32, .read⟩ ∧
      step s = .refused (.outsideWindow (Config.engineBase + 0x30000))) ∧
    (∀ c ∈ [Stmt.wr .w8 (.lit 0x30000) (.lit 1), .rd .w8 (.lit 0x30000) 1],
      step (hostWith c) = .refused (.outsideWindow (Config.engineBase + 0x30000))) ∧
    step (hostWithVar (.bnz 2 (.lit 1) (.user 2))) = .fault (.undefinedLabel (.user 2)) ∧
    step (hostWithVar (.bz 2 (.lit 8) (.user 2))) = .fault (.undefinedLabel (.user 2)) ∧
    step (hostWithVar (.bne 2 (.lit 8) (.user 2))) = .fault (.undefinedLabel (.user 2)) := by
  have : windowOffset (Config.engineBase + 0x30000) = none := by
    rw [windowOffset_base, windowBytes, if_neg (by omega)]
  refine ⟨⟨{ State.reset with turns := [.bus ⟨Config.engineBase + 0x30000, .w32, .read⟩] }, rfl, ?_⟩, ?_, rfl, rfl, rfl⟩
  · simp [step, nextTurn, runTurn, busTurn, busAccess, this]
  · intro c hc
    simp only [List.mem_cons, List.not_mem_nil, or_false] at hc
    rcases hc with rfl | rfl <;>
      rw [step_idle_script rfl rfl rfl] <;>
      simp [runStmt, accessStmt, scriptAccess, evalOff, busAccess, this]

theorem witness_ChachaBlockWritesTheKeystreamBlock :
    [(3 : Fin 16), 4, 9, 14].Nodup ∧ ∃ s t u, exec .chachaBlock s = .next t ∧ exec .chachaBlock t = .next u :=
  ⟨by decide, State.reset, _, _, exec_chachaBlock _, exec_chachaBlock _⟩

/-- LEN at BUF_BYTES and one above it. -/
theorem witness_ChachaXorWritesInXorKeystream :
    (∃ s : State, s.len.toNat = Config.bufBytes ∧ s.len.toNat ≤ Config.bufBytes) ∧
    ∃ s : State, Config.bufBytes < s.len.toNat :=
  ⟨⟨{ State.reset with len := fullLen }, fullLen_toNat, Nat.le_of_eq fullLen_toNat⟩,
    { State.reset with len := overLen }, by rw [overLen_toNat]; omega⟩

theorem witness_ChachaXorTwiceRestoresTheInput : ∃ s t u : State, s.len.toNat = Config.bufBytes ∧
    s.len.toNat ≤ Config.bufBytes ∧ exec .chachaXor s = .next t ∧ u.key = s.key ∧ u.nonce = s.nonce ∧ u.len = s.len ∧
    ∀ j < s.len.toNat, peek u.mem (0x10000 + j) = peek t.mem (0x20000 + j) := by
  let s : State := { State.reset with len := fullLen }
  have hl : s.len.toNat = Config.bufBytes := fullLen_toNat
  refine ⟨s, _, { s with mem := pokes [] inBase (chachaXor s.key s.nonce (s.readIn s.len.toNat)) }, hl,
    Nat.le_of_eq hl, exec_chachaXor s (Nat.le_of_eq hl), rfl, rfl, rfl, fun j hj => ?_⟩
  rw [completeOk_mem, performChachaXor_mem, show (0x10000 : Nat) = inBase from rfl,
    show (0x20000 : Nat) = outBase from rfl, peek_pokes_inside (by simpa using hj),
    peek_pokes_inside (by simpa using hj)]

theorem witness_UnreadRegistersHaveNoEffect :
    (∃ s t, exec .chachaXor s = .next t) ∧ ∃ (i : Instr) (s t : State),
      i ∈ [Instr.magmaT, .magmaG, .magmaEncBlock, .magmaDecBlock, .magmaEnc, .magmaDec] ∧ exec i s = .next t :=
  ⟨⟨State.reset, exec_next _ _⟩, .magmaDec, State.reset, (exec_next State.reset .magmaDec).elim
    fun t ht => ⟨t, by decide, ht⟩⟩

/-- The last block number a counter word can name, and the last byte of its block. -/
theorem witness_ChachaBlocksSplitTheStream : ∃ (s t : State) (i j : Nat) (d : List Byte), i < 2 ^ 32 ∧ j < 64 ∧
    64 * i + j < d.length ∧ s.ctr = BitVec.ofNat 32 i ∧ exec .chachaBlock s = .next t :=
  ⟨{ State.reset with ctr := 0xffffffff }, _, 2 ^ 32 - 1, 63, List.replicate (2 ^ 38) 0, by decide, by decide,
    by rw [List.length_replicate]; omega, rfl, exec_chachaBlock _⟩

theorem witness_MagmaTSubstitutesEveryNibble :
    ({ State.reset with scr := #v[0xF0000000, 0, 0, 0] } : State).scr[0].toNat / 16 ^ 7 % 16 = (15 : Fin 16).val := by
  decide

theorem witness_BlockDecryptionUndoesEncryption :
    (List.replicate 8 (0xFF : Byte)).length = 8 ∧ ∃ s t, exec .magmaEncBlock s = .next t :=
  ⟨rfl, State.reset, _, exec_magmaEncBlock _⟩

/-- Last bytes 1, 8, 0 and 9, and a last byte above the length. -/
theorem witness_UnpaddingLooksAtTheLastByteOnly :
    (1 ≤ (1 : Byte).toNat ∧ (1 : Byte).toNat ≤ 8 ∧ (1 : Byte).toNat ≤ ([] ++ [(1 : Byte)]).length) ∧
    (1 ≤ (8 : Byte).toNat ∧ (8 : Byte).toNat ≤ 8 ∧ (8 : Byte).toNat ≤ (List.replicate 7 0 ++ [(8 : Byte)]).length) ∧
    (0 : Byte).toNat = 0 ∧ 8 < (9 : Byte).toNat ∧ ([] ++ [(2 : Byte)]).length < (2 : Byte).toNat := by decide

theorem witness_BufferDecryptionUndoesEncryption : (List.replicate 7 (0 : Byte)).length % 8 ≠ 0 := by decide

theorem witness_WholeBlocksSplitOff :
    (List.replicate 8 (0 : Byte)).length % 8 = 0 ∧ List.replicate 16 (0 : Byte) ≠ [] ∧
      (List.replicate 16 (0 : Byte)).length % 8 = 0 := by decide

/-- LEN at BUF_BYTES and one above it. -/
theorem witness_MagmaEncWritesThePaddedCiphertext :
    (∃ s : State, s.len.toNat = Config.bufBytes ∧ s.len.toNat ≤ Config.bufBytes) ∧
    ∃ s : State, Config.bufBytes < s.len.toNat := witness_ChachaXorWritesInXorKeystream

/-- LEN at 0, at BUF_BYTES (a multiple of 8), one above it, and one below it; and a last decrypted byte. -/
theorem witness_MagmaDecWritesThePlaintextAndItsLength :
    (∃ s : State, s.len.toNat ≤ Config.bufBytes ∧ s.len.toNat % 8 = 0 ∧ s.len.toNat = 0) ∧
    (∃ s : State, s.len.toNat = Config.bufBytes ∧ s.len.toNat ≤ Config.bufBytes ∧ s.len.toNat % 8 = 0) ∧
    (∃ s : State, Config.bufBytes < s.len.toNat ∧ s.len.toNat % 8 ≠ 0) ∧
    (∃ s : State, s.len.toNat ≤ Config.bufBytes ∧ s.len.toNat % 8 ≠ 0) ∧
    ∃ (s t : State) (p : Byte), exec .magmaDec s = .next t ∧ 0 < s.len.toNat ∧
      peek t.mem (0x20000 + s.len.toNat - 1) = some p := by
  have hm := bufBytes_mod
  have hg := bufBytes_ge
  have hl := bufBytes_le
  refine ⟨⟨State.reset, Nat.zero_le _, rfl, rfl⟩, ⟨{ State.reset with len := fullLen }, fullLen_toNat,
    Nat.le_of_eq fullLen_toNat, by rw [fullLen_toNat]; omega⟩, ⟨{ State.reset with len := overLen },
    by rw [overLen_toNat]; omega, by rw [overLen_toNat]; omega⟩,
    ⟨{ State.reset with len := BitVec.ofNat 32 (Config.bufBytes - 1) }, ?_, ?_⟩,
    ⟨withInput keyRfc (hex "dfdb7f4f00dc10a7"), _, 0x02, exec_magmaDec _ (Nat.le_trans (by decide) hg) (by decide),
      by decide, by decide +kernel⟩⟩
  · show (BitVec.ofNat 32 _).toNat ≤ _; rw [BitVec.toNat_ofNat, Nat.mod_eq_of_lt (by omega)]; omega
  · show (BitVec.ofNat 32 _).toNat % 8 ≠ 0; rw [BitVec.toNat_ofNat, Nat.mod_eq_of_lt (b := 2 ^ 32) (by omega)]; omega

/-- LEN at its largest, BUF_BYTES - 1, where OUT_LEN is BUF_BYTES. -/
theorem witness_MagmaDecAfterMagmaEncRestoresTheInput : ∃ s t u : State, s.len.toNat + 1 = Config.bufBytes ∧
    s.len.toNat < Config.bufBytes ∧ exec .magmaEnc s = .next t ∧ u.key = s.key ∧ u.len = t.outLen ∧
    ∀ j < t.outLen.toNat, peek u.mem (0x10000 + j) = peek t.mem (0x20000 + j) := by
  have hg := bufBytes_ge
  have hb := bufBytes_le
  let s : State := { State.reset with len := BitVec.ofNat 32 (Config.bufBytes - 1) }
  have hl : s.len.toNat = Config.bufBytes - 1 := by
    show (BitVec.ofNat 32 _).toNat = _; rw [BitVec.toNat_ofNat, Nat.mod_eq_of_lt (by omega)]
  refine ⟨s, _, { s with
      mem := pokes [] inBase (magmaEncrypt s.key (s.readIn s.len.toNat)), len := (performMagmaEnc s).outLen },
    by omega, by omega, exec_magmaEnc s (by omega), rfl, rfl, fun j hj => ?_⟩
  have hj : j < (magmaEncrypt s.key (s.readIn s.len.toNat)).length := by
    rw [completeOk_outLen, performMagmaEnc_outLen_toNat s (by omega)] at hj
    simpa using hj
  rw [completeOk_mem, performMagmaEnc_mem, show (0x10000 : Nat) = inBase from rfl,
    show (0x20000 : Nat) = outBase from rfl, peek_pokes_inside hj, peek_pokes_inside hj]

/-- A command that succeeds, one that ends in an error, and an illegal word. -/
theorem witness_CommandsWriteOnlyTheirOwnRows :
    (∃ (s t : State) (e : Illegal), decode s.cmd = .error e ∧ completion s = .next t) ∧
    (∃ (i : Instr) (s t : State), exec i s = .next t ∧ t.status.err = false ∧
      i ∉ [Instr.chachaXor, .magmaEnc, .magmaDec] ∧ i ∈ [Instr.magmaT, .magmaG]) ∧
    ∃ (i : Instr) (s t : State), exec i s = .next t ∧ t.status.err = true := by
  refine ⟨⟨State.reset, _, .unknownOpcode, rfl, rfl⟩, ⟨.magmaT, State.reset, _, exec_magmaT _, rfl, by decide,
    by decide⟩, .chachaXor,
    { State.reset with len := overLen }, _, rfl, ?_⟩
  rw [complete_of_error _ _ (by rw [check_long _ rfl (by rw [overLen_toNat]; omega)]; simp),
    check_long _ rfl (by rw [overLen_toNat]; omega)]
  rfl

/-- W changes at a CHACHA_INIT, an OUT byte at a MAGMA_ENC, an IN byte at a bus write. -/
theorem witness_ResultsChangeOnlyAtTheirCommands :
    (∃ s t, step s = .next t ∧ t.w ≠ s.w) ∧
    (∃ s t, step s = .next t ∧ peek t.mem 0x20000 ≠ peek s.mem 0x20000) ∧
    ∃ s t, step s = .next t ∧ peek t.mem 0x10000 ≠ peek s.mem 0x10000 := by
  have h := bufBytes_ge
  refine ⟨⟨busyWith .chachaInit [], _, rfl, by decide⟩,
    ⟨busyWith .magmaEnc [], _, exec_magmaEnc _ (Nat.zero_le _), by decide +kernel⟩,
    { State.reset with turns := [writeIn0] }, _, (busTurn_inside (popTurn { State.reset with turns := [writeIn0] })
      (show 0x10000 < windowBytes by decide) .w8 (.write 0x55)), by
      rw [engineAccess_writeIn _ rfl (by rw [inIn_iff]; unfold inBase; omega) (by decide)]; decide⟩

/-- STATUS changes at a reset, at a completion, and at an acceptance, by the script and by a bus turn. -/
theorem witness_StatusChangesOnlyByResetCompletionAcceptance :
    (∃ s t, step s = .next t ∧ t.status ≠ s.status ∧ nextTurn s = .reset) ∧
    (∃ s t, step s = .next t ∧ t.status ≠ s.status ∧ nextTurn s = .engine) ∧
    (∃ s t, step s = .next t ∧ t.status ≠ s.status ∧ nextTurn s = .script) ∧
    ∃ s t, step s = .next t ∧ t.status ≠ s.status ∧
      nextTurn s = .bus ⟨Config.engineBase + 0x008, .w32, .write 0xFFFFFFFF⟩ :=
  ⟨⟨busyWith .chachaQr [.reset], _, rfl, by decide, rfl⟩, ⟨busyWith .chachaQr [], _, rfl, by decide, rfl⟩,
    ⟨hostWith (cmdStmt .chachaQr), _,
      accessStmt_inside (popTurn (hostWith (cmdStmt .chachaQr))) (by decide) .w32 (.write 1) none, by decide, rfl⟩,
    { State.reset with turns := [.bus ⟨Config.engineBase + 0x008, .w32, .write 0xFFFFFFFF⟩] }, _,
      busTurn_inside (popTurn { State.reset with turns := [.bus ⟨Config.engineBase + 0x008, .w32, .write 0xFFFFFFFF⟩] })
        (by decide) .w32 (.write 0xFFFFFFFF), by decide, rfl⟩

/-- While busy: a bus turn, and a script turn. -/
theorem witness_OperandsStayFixedWhileBusy :
    (∃ s t, s.status.busy = true ∧ step s = .next t ∧ nextTurn s ≠ .engine ∧ nextTurn s ≠ .reset ∧ ∃ a, nextTurn s = .bus a) ∧
    ∃ s t, s.status.busy = true ∧ step s = .next t ∧ nextTurn s = .script := by
  refine ⟨⟨busyWith .chachaQr [writeIn0], _, rfl,
    busTurn_inside (popTurn (busyWith .chachaQr [writeIn0])) (by decide) .w8 (.write 0x55), by simp [nextTurn, busyWith, writeIn0],
    by simp [nextTurn, busyWith, writeIn0], _, rfl⟩,
    { hostWith .halt with status := Status.accepted, turns := [.script] }, _, rfl, rfl, rfl⟩

/-- Acceptance, a bus write and a script turn in between, then the engine. -/
theorem witness_ResultIsFixedAtAcceptance : ∃ (s t u v : State) (between rest : List Turn), s.status.busy = true ∧
    s.turns = between ++ Turn.engine :: rest ∧ (∀ x ∈ between, x ≠ Turn.engine ∧ x ≠ Turn.reset) ∧
    between ≠ [] ∧ Host.Core.run Sys2Proof.core between.length s = .next t ∧ step t = .next u ∧
    completion s = .next v :=
  ⟨{ hostWith (.set 1 (.lit 7)) with cmd := encode .chachaQr, status := Status.accepted, turns := [.script, .engine] },
    _, _, _, [.script], [], rfl, rfl, by decide, by decide, rfl, rfl, rfl⟩

/-- Each cause at the edge of its range. -/
theorem witness_BusErrorsAreExactlyTheListedCauses :
    (∀ off ∈ [0x024, 0x03F, 0x06C, 0x07F, 0x0D8, 0x0FF, 0x100, 0xFFFF, 0x10000 + Config.bufBytes, 0x1FFFF,
      0x20000 + Config.bufBytes + 8, 0x2FFFF], reservedOffset off ∧ off < 0x30000) ∧
    (∀ off ∈ [0x000, 0x007, 0x00C, 0x00F, 0x01C, 0x01F, 0x080, 0x0BF, 0x20000, 0x20000 + Config.bufBytes + 7],
      readOnlyOffset off ∧ off < 0x30000) ∧
    (∀ off ∈ [0x008, 0x010, 0x018, 0x020, 0x040, 0x068, 0x0C0, 0x0D4, 0x10000, 0x10000 + Config.bufBytes - 1],
      ¬ reservedOffset off ∧ ¬ readOnlyOffset off) ∧
    permittedWhileBusy 0x014 .read ∧ ¬ permittedWhileBusy 0x018 .read ∧ ¬ permittedWhileBusy 0x00C (.write 0) := by
  have hg := bufBytes_ge
  have hl := bufBytes_le
  refine ⟨?_, ?_, ?_, ?_, ?_, ?_⟩
  · simp only [List.forall_mem_cons, reservedOffset]; simp; omega
  · simp only [List.forall_mem_cons, readOnlyOffset]; simp; omega
  · simp only [List.forall_mem_cons, reservedOffset, readOnlyOffset]; simp; omega
  all_goals simp [permittedWhileBusy]

/-- The last offset of the window and the first address above it. -/
theorem witness_WindowIsDecodedAtItsBase :
    (∃ s w op, nextTurn s = .bus ⟨Config.engineBase + 0x2FFFF, w, op⟩ ∧ 0x2FFFF < 0x30000) ∧
    ∃ (s : State) (a : Access), nextTurn s = .bus a ∧ Config.engineBase + 0x30000 ≤ a.addr :=
  ⟨⟨{ State.reset with turns := [.bus ⟨Config.engineBase + 0x2FFFF, .w8, .read⟩] }, _, _, rfl, by decide⟩,
    { State.reset with turns := [.bus ⟨Config.engineBase + 0x30000, .w8, .read⟩] }, _, rfl, Nat.le_refl _⟩

theorem witness_RegisterReadsReturnTheRegister :
    State.reset.status.busy = false ∧ permittedWhileBusy (Reg.offset .irqStatus) .read :=
  ⟨rfl, by simp [permittedWhileBusy, Reg.offset]⟩

theorem witness_PlainRegisterWritesReadBack :
    State.reset.status.busy = false ∧ ∃ i, Reg.blk 1 = Reg.blk i := ⟨rfl, 1, rfl⟩

theorem witness_InterruptLevelFollowsEnableAndPending : ∃ s t, nextTurn s = .engine ∧ s.status.busy = true ∧
    step s = .next t ∧ s.doneIe = true :=
  ⟨{ busyWith .chachaQr [] with doneIe := true }, _, rfl, rfl, rfl, rfl⟩

/-- A register read, and a buffer read of bytes that are all set. -/
theorem witness_ReadsHaveNoSideEffect :
    (∃ (s : State), engineAccess 0x018 .w32 .read s = (.data 5, s)) ∧
    ∃ (s t : State) (r : Reply), engineAccess 0x10000 .w16 .read s = (r, t) ∧
      ∀ j < Width.w16.bytes, ∃ b, peek s.mem (0x10000 + j) = some b := by
  refine ⟨⟨{ State.reset with len := 5 }, rfl⟩, withInput keyRfc [1, 2], _, _, rfl, fun j hj => ?_⟩
  have : j = 0 ∨ j = 1 := by simp only [Width.bytes] at hj; omega
  rcases this with rfl | rfl
  · exact ⟨1, rfl⟩
  · exact ⟨2, rfl⟩

/-- The last words of IN and OUT, which every width can name, and a word of which only the first three bytes are
set. -/
theorem witness_BufferAccessesShareOneByteArray :
    (∃ a, 0x10000 ≤ a ∧ a < 0x10000 + Config.bufBytes ∧ a % Width.w32.bytes = 0 ∧ a + 4 = 0x10000 + Config.bufBytes) ∧
    (∃ a, 0x20000 ≤ a ∧ a < 0x20000 + Config.bufBytes + 8 ∧ a % Width.w32.bytes = 0 ∧
      a + 4 = 0x20000 + Config.bufBytes + 8) ∧
    (withInput keyRfc [1, 2, 3]).status.busy = false ∧
    (∀ j < 3, peek (withInput keyRfc [1, 2, 3]).mem (0x10000 + j) = some (BitVec.ofNat 8 (j + 1))) ∧
    peek (withInput keyRfc [1, 2, 3]).mem (0x10000 + 3) = none := by
  have hg := bufBytes_ge
  have hm := bufBytes_mod
  refine ⟨⟨0x10000 + Config.bufBytes - 4, by omega, by omega, ?_, by omega⟩,
    ⟨0x20000 + Config.bufBytes + 4, by omega, by omega, ?_, by omega⟩, rfl, by decide, rfl⟩ <;>
    simp only [Width.bytes] <;> omega

/-- The first word of IN and the last word of OUT, all unset. -/
theorem witness_UnsetBytesReadAsFreshDraws :
    (State.reset.status.busy = false ∧ 0x10000 < 0x10000 + Config.bufBytes ∧ 0x10000 % Width.w32.bytes = 0 ∧
      ∀ j < Width.w32.bytes, peek State.reset.mem (0x10000 + j) = none) ∧
    ∃ a, 0x20000 ≤ a ∧ a + 4 = 0x20000 + Config.bufBytes + 8 ∧ a % Width.w32.bytes = 0 ∧
      ∀ j < Width.w32.bytes, peek State.reset.mem (a + j) = none := by
  have hg := bufBytes_ge
  have hm := bufBytes_mod
  refine ⟨⟨rfl, by omega, rfl, fun _ _ => rfl⟩, 0x20000 + Config.bufBytes + 4, by omega, by omega, ?_, fun _ _ => rfl⟩
  simp only [Width.bytes]
  omega

theorem witness_KeyStringsParseInOrder : validateKey ['0', 'f', 'F', '9'] (2 * 2) = true := by decide

theorem witness_KeyLoadingWritesTheKeyWords :
    validateKey (List.replicate 88 '0') 88 = true ∧ validateKey (List.replicate 64 'f') 64 = true ∧
    validateKey (List.replicate 87 '0') 88 = false ∧ validateKey (List.replicate 65 '0') 64 = false ∧
    nextTurn (hostWith .failKey) = .script ∧ nextStmt (hostWith .failKey).host = some .failKey := by
  refine ⟨by decide +kernel, by decide +kernel, by decide +kernel, by decide +kernel, rfl, rfl⟩

/-- Each form of OFF and VAL: a write that takes effect, a read that answers, and one of each that gets a BusError; the
sum of OFF wraps in the second. And an access of another master. -/
theorem witness_ScriptAccessesFollowTheBus :
    (∃ s u : State, nextTurn s = .script ∧ nextStmt s.host = some (.wr .w32 (.lit 0x018) (.var 2)) ∧
      evalOff s.host (.lit 0x018) = 0x018 ∧ evalVal s.host (.var 2) = 7 ∧
      engineAccess 0x018 .w32 (.write 7) (popTurn s) = (.written, u)) ∧
    (∃ s u : State, nextTurn s = .script ∧ nextStmt s.host = some (.rd .w32 (.plus 0xFFFFFFF9 2) 3) ∧
      evalOff s.host (.plus 0xFFFFFFF9 2) = 0x000 ∧
      engineAccess 0x000 .w32 .read (popTurn s) = (.data 0x31474D43, u)) ∧
    (∃ s u : State, nextTurn s = .script ∧ nextStmt s.host = some (.wr .w32 (.plus 0x2FFF8 2) (.lit 9)) ∧
      evalOff s.host (.plus 0x2FFF8 2) = 0x2FFFF ∧
      engineAccess 0x2FFFF .w32 (.write 9) (popTurn s) = (.busError, u)) ∧
    (∃ s u : State, nextTurn s = .script ∧ nextStmt s.host = some (.rd .w8 (.lit 0x008) 3) ∧
      engineAccess 0x008 .w8 .read (popTurn s) = (.busError, u)) ∧
    ∃ (s t : State) (a : Access), nextTurn s = .bus a ∧ step s = .next t := by
  refine ⟨⟨hostWithVar (.wr .w32 (.lit 0x018) (.var 2)), _, rfl, rfl, rfl, rfl, rfl⟩,
    ⟨hostWithVar (.rd .w32 (.plus 0xFFFFFFF9 2) 3), _, rfl, rfl, by decide, rfl⟩,
    ⟨hostWithVar (.wr .w32 (.plus 0x2FFF8 2) (.lit 9)),
      popTurn (hostWithVar (.wr .w32 (.plus 0x2FFF8 2) (.lit 9))), rfl, rfl, by decide, ?_⟩,
    ⟨hostWithVar (.rd .w8 (.lit 0x008) 3), _, rfl, rfl, rfl⟩, { State.reset with turns := [writeIn0] }, _, _, rfl,
    busTurn_inside (popTurn { State.reset with turns := [writeIn0] }) (show 0x10000 < windowBytes by decide) .w8
      (.write 0x55)⟩
  simp [engineAccess, accessFails, Width.bytes]

/-- A script host at each of the statements, and each branch taken and untaken, its label defined behind it. -/
theorem witness_ScriptControlStatements :
    (∀ c ∈ [Stmt.set 1 (.lit 7), .set 1 (.var 2), .add 1 (.lit 4), .add 1 (.var 2), .label (.user 1), .halt],
      nextTurn (hostWith c) = .script ∧ nextStmt (hostWith c).host = some c) ∧
    (∀ c ∈ [Stmt.bnz 2 (.lit 1) (.user 1), .bnz 2 (.lit 8) (.user 1), .bz 2 (.var 2) (.user 1),
      .bz 2 (.lit 8) (.user 1), .bne 2 (.var 2) (.user 1), .bne 2 (.lit 8) (.user 1)],
      nextTurn (hostWith c) = .script ∧ nextStmt (hostWith c).host = some c ∧
      (hostWith c).host.script[1]? = some (.label (.user 1)) ∧
      ∀ j < 1, (hostWith c).host.script[j]? ≠ some (.label (.user 1))) ∧
    getVar (hostWithVar .halt).host 2 &&& 1 ≠ 0 ∧ getVar (hostWithVar .halt).host 2 &&& 8 = 0 := by decide

theorem witness_ScriptLinesExpandAsListed :
    (∀ i : Instr, i.mnemonic ≠ "NOP") ∧
    validateKey ['6', '1', '6', '2'] (2 * (['6', '1', '6', '2'].length / 2)) = true :=
  ⟨fun i => by cases i <;> decide, by decide⟩

/-- A script host at the read-out of a byte operation, with a final STATUS in `%s` and two bytes in OUT. -/
def atReadOut (st : Status) : State :=
  { State.reset with
    status := st, outLen := 2, mem := pokes [] outBase [5, 0xFF],
    host := ⟨Stmt.halt :: readOutStmts, 1, [(varS, st.word)], none, []⟩ }

/-- The read-out with DONE clear, with an error, and with two bytes to read. -/
theorem witness_ByteOperationResultFollowsTheFinalStatus :
    (∀ st ∈ [Status.reset, Status.failed .lengthOutOfRange, Status.ok],
      (atReadOut st).turns = [] ∧ (atReadOut st).status.busy = false ∧ (atReadOut st).host.stop = none ∧
      (atReadOut st).host.script = [Stmt.halt] ++ readOutStmts ∧ (atReadOut st).host.pos = [Stmt.halt].length ∧
      Stmt.label (.user 0) ∉ [Stmt.halt] ∧ Stmt.label (.user 1) ∉ [Stmt.halt] ∧
      getVar (atReadOut st).host varS = (atReadOut st).status.word ∧ getVar (atReadOut st).host 2 = 0 ∧
      bytesReadByScript (atReadOut st).host = []) ∧
    (atReadOut .ok).outLen.toNat ≤ Config.bufBytes + 8 ∧ [(5 : Byte), 0xFF].length = (atReadOut .ok).outLen.toNat ∧
    ∀ j < [(5 : Byte), 0xFF].length, peek (atReadOut .ok).mem (0x20000 + j) = [(5 : Byte), 0xFF][j]? := by
  refine ⟨by decide, ?_, rfl, by decide⟩
  show 2 ≤ _
  omega

end Sys2Proof.Tests
end

section
/-! PROOFS. The family of 00_scope.md: busy protection keeps a command's operands, and with them its result, from
acceptance to completion. -/

namespace Sys2Proof.Machine

/-! Busy protection (60_exceptions.md R203). -/

/-- The host's own state is no operand of a command. -/
theorem SameOperandsAndResults.setHost (s : State) (h : HostState) : SameOperandsAndResults s (s.setHost h) :=
  ⟨rfl, rfl, rfl, rfl, rfl, rfl, rfl, rfl, rfl, rfl, rfl, rfl⟩

/-- Nor is the list of turns. -/
theorem SameOperandsAndResults.popTurn (s : State) : SameOperandsAndResults s (popTurn s) :=
  ⟨rfl, rfl, rfl, rfl, rfl, rfl, rfl, rfl, rfl, rfl, rfl, rfl⟩

/-- While busy, an access to anything but a register is forbidden. -/
theorem busyForbidden_of_regAt_none {s : State} {off : Nat} (hb : s.status.busy = true) (hr : regAt off = none)
    (op : AccessOp) : busyForbidden off op s = true := by
  simp [busyForbidden, hb, hr]

/-- While busy, the registers a host may write are those of R203. -/
theorem busyForbidden_write {s : State} {off : Nat} {r : Reg} (hb : s.status.busy = true) (hr : regAt off = some r)
    (v : Word) : busyForbidden off (.write v) s = !r.busyWritable := by
  simp [busyForbidden, hb, hr]

/-- The two registers that a host may write while BUSY = 1 are the interrupt registers: no operand, no result. -/
theorem writeReg_busyWritable {r : Reg} (h : r.busyWritable = true) (v : Word) (s : State) :
    SameOperandsAndResults s (writeReg r v s) := by
  cases r
  case irqEn => exact ⟨rfl, rfl, rfl, rfl, rfl, rfl, rfl, rfl, rfl, rfl, rfl, rfl⟩
  case irqStatus => exact ⟨rfl, rfl, rfl, rfl, rfl, rfl, rfl, rfl, rfl, rfl, rfl, rfl⟩
  all_goals cases h

/-- An access while BUSY = 1 leaves every operand and result. -/
theorem engineAccess_busy {s : State} (hb : s.status.busy = true) (off : Nat) (w : Width) (op : AccessOp) :
    SameOperandsAndResults s (engineAccess off w op s).2 := by
  rcases engineAccess_cases off w op s with
    ⟨_, e⟩ | ⟨_, r, _, _, e⟩ | ⟨hf, hr, _, _⟩ | ⟨hf, r, v, hr, _, hop, e⟩ | ⟨hf, _, hr, _, _, _⟩
  case inl => rw [e]; exact .refl s
  case inr.inl => rw [e]; exact .refl s
  case inr.inr.inr.inl =>
    have hok := (accessFails_false hf).1
    rw [hop, busyForbidden_write hb hr, Bool.not_eq_false'] at hok
    rw [e]
    exact writeReg_busyWritable hok v s
  -- A read or a write of buffer bytes does not pass the check of R203.
  all_goals
    have hok := (accessFails_false hf).1
    rw [busyForbidden_of_regAt_none hb hr] at hok
    cases hok

/-! The steps that are neither the engine's nor a reset. -/

/-- An access that the engine decodes is one at some window offset. -/
theorem busAccess_some {a : Access} {s u : State} {r : Reply} (h : busAccess a s = some (r, u)) :
    ∃ off, engineAccess off a.width a.op s = (r, u) := by
  obtain ⟨off, _, he⟩ := Option.map_eq_some_iff.1 h
  exact ⟨off, he⟩

/-- Everything a step of a host can do: one access and then a change of the host's own state, or the latter alone. -/
theorem step_host_cases {s t : State} (h : step s = .next t) (he : nextTurn s ≠ .engine) (hr : nextTurn s ≠ .reset) :
    (∃ off w op h', t = (engineAccess off w op (popTurn s)).2.setHost h') ∨ ∃ h', t = (popTurn s).setHost h' := by
  rcases step_cases s h with ⟨hn, _⟩ | ⟨hn, _⟩ | ⟨_, ht⟩ | ⟨a, _, ht⟩ | ⟨hn, _⟩
  · exact absurd hn he
  · exact absurd hn he
  · rcases scriptTurn_cases _ ht with ⟨a, d, ha⟩ | hh
    · obtain ⟨r, u, hb, rfl⟩ := accessStmt_cases _ ha
      obtain ⟨off, ho⟩ := busAccess_some hb
      exact .inl ⟨off, a.width, a.op, _, by rw [ho]; rfl⟩
    · exact .inr hh
  · obtain ⟨r, u, hb, rfl⟩ := busTurn_cases _ ht
    obtain ⟨off, ho⟩ := busAccess_some hb
    exact .inl ⟨off, a.width, a.op, _, by rw [ho]; rfl⟩
  · exact absurd hn hr

/-- R203 for a whole step of a host. -/
theorem step_host_busy {s t : State} (hb : s.status.busy = true) (h : step s = .next t) (he : nextTurn s ≠ .engine)
    (hr : nextTurn s ≠ .reset) : SameOperandsAndResults s t := by
  rcases step_host_cases h he hr with ⟨off, w, op, h', rfl⟩ | ⟨h', rfl⟩
  · have ha : SameOperandsAndResults (popTurn s) (engineAccess off w op (popTurn s)).2 :=
      engineAccess_busy (s := popTurn s) hb off w op
    exact ((SameOperandsAndResults.popTurn s).trans ha).trans (.setHost _ h')
  · exact (SameOperandsAndResults.popTurn s).trans (.setHost _ h')

/-- A host's step takes its own turn off the list and leaves the rest of it. -/
theorem step_host_turns {s t : State} (h : step s = .next t) (he : nextTurn s ≠ .engine) (hr : nextTurn s ≠ .reset) :
    t.turns = s.turns.tail := by
  rcases step_host_cases h he hr with ⟨off, w, op, h', rfl⟩ | ⟨h', rfl⟩
  · exact (engineAccess_frame off w op (popTurn s)).1
  · rfl

/-- Settles O39: a host's step changes the engine by one access at most, and while BUSY = 1 an access changes no
operand and no result. -/
theorem operandsStayFixedWhileBusy : Obligations.OperandsStayFixedWhileBusy :=
  fun _ _ => step_host_busy

/-! Runs of host steps while busy. -/

/-- A run of `k + 1` steps is a step and a run of `k`. -/
theorem run_succ {M : Host.Core} {k : Nat} {s t : M.State} (h : M.run (k + 1) s = .next t) :
    ∃ s', M.step s = .next s' ∧ M.run k s' = .next t := by
  unfold Host.Core.run at h
  split at h
  · next s' hs => exact ⟨s', hs, h⟩
  · cases h
  · cases h

/-- After any run of listed turns without the engine's and without a reset, a busy engine has its operands as they
were, and the turns listed behind the run are next. -/
theorem run_host_busy {between rest : List Turn} (hx : ∀ x ∈ between, x ≠ Turn.engine ∧ x ≠ Turn.reset) {s t : State}
    (hb : s.status.busy = true) (hs : s.turns = between ++ rest)
    (h : Host.Core.run Sys2Proof.core between.length s = .next t) :
    SameOperandsAndResults s t ∧ t.turns = rest := by
  induction between generalizing s with
  | nil =>
    injection h with h
    subst h
    exact ⟨.refl s, hs⟩
  | cons x xs ih =>
    obtain ⟨hx0, hxs⟩ := List.forall_mem_cons.1 hx
    obtain ⟨s', hstep, hrun⟩ := run_succ h
    change step s = .next s' at hstep
    have hn : nextTurn s = x := by simp [nextTurn, hs]
    have hsame : SameOperandsAndResults s s' := step_host_busy hb hstep (hn ▸ hx0.1) (hn ▸ hx0.2)
    have hturns : s'.turns = xs ++ rest := by
      rw [step_host_turns hstep (hn ▸ hx0.1) (hn ▸ hx0.2), hs]
      rfl
    obtain ⟨hsame', ht⟩ := ih hxs (by rw [hsame.status, hb]) hturns hrun
    exact ⟨hsame.trans hsame', ht⟩

/-! A completion's results depend on the operands alone. -/

theorem check_congr {s t : State} (h : SameOperandsAndResults s t) (i : Instr) : check i t = check i s := by
  simp only [check, h.len]

theorem complete_congr {s t : State} (h : SameOperandsAndResults s t) (i : Instr) :
    SameOperandsAndResults (complete i (perform i) s) (complete i (perform i) t) := by
  have hc := check_congr h i
  rcases complete_cases s i (perform i) with ⟨hs, e⟩ | ⟨hs, e⟩
  · rw [e, complete_of_none t _ (hc.trans hs)]
    exact completeOk_congr (perform_congr h i)
  · rw [e, complete_of_error t _ (hc ▸ hs), hc]
    exact completeError_congr _ _ h

theorem completion_congr {s t u v : State} (h : SameOperandsAndResults s t) (hv : completion s = .next v)
    (hu : completion t = .next u) : SameOperandsAndResults v u := by
  cases hd : decode s.cmd with
  | error e =>
    rw [completion_illegal s hd] at hv
    rw [completion_illegal t (h.cmd ▸ hd)] at hu
    injection hv with hv
    injection hu with hu
    subst hv hu
    exact completeError_congr _ _ h
  | ok i =>
    rw [completion_legal s hd, exec_eq] at hv
    rw [completion_legal t (h.cmd ▸ hd), exec_eq] at hu
    injection hv with hv
    injection hu with hu
    subst hv hu
    exact complete_congr h i

/-- A busy engine's listed turn is the completion of its command. -/
theorem step_engine_busy {s : State} {rest : List Turn} (hs : s.turns = Turn.engine :: rest)
    (hb : s.status.busy = true) : step s = completion (popTurn s) := by
  have hn : nextTurn s = .engine := by simp [nextTurn, hs]
  simp [step, hn, runTurn, engineTurn, hb]

/-- Settles O40: the hosts' steps in between leave the operands (O39), by induction on the turns, and a completion's
results depend on the operands alone. -/
theorem resultIsFixedAtAcceptance : Obligations.ResultIsFixedAtAcceptance := by
  intro s t u v between rest hb hs hx hrun hstep hv
  obtain ⟨hsame, hturns⟩ := run_host_busy hx hb hs hrun
  rw [step_engine_busy hturns (by rw [hsame.status, hb])] at hstep
  exact completion_congr (hsame.trans (.popTurn t)) hv hstep

end Sys2Proof.Machine
end

section
/-! PROOFS. The family of 10_state.md. First the registers (10_state.md R24 to R38): what a read and a write of each
does. -/

namespace Sys2Proof.Machine

/-! Reads. -/

/-- By offset or by name, the registers a host may read while BUSY = 1 are the same (60_exceptions.md R203). -/
theorem busyReadable_of_permitted {r : Reg} (h : permittedWhileBusy r.offset .read) : r.busyReadable = true := by
  cases r
  case id | param | cmd | status | irqEn | irqStatus => rfl
  all_goals
    simp only [permittedWhileBusy, Reg.offset] at h
    omega

/-- An interrupt register's word is its one bit under zeros (10_state.md R29, R30). -/
theorem flagWord_eq (b : Bool) : flagWord b = if b then 1 else 0 := by cases b <;> rfl

/-- Settles O43: a permitted read returns the register at the offset, and each literal offset is a register's. -/
theorem registerReadsReturnTheRegister : Obligations.RegisterReadsReturnTheRegister := by
  refine ⟨fun r s h => engineAccess_readReg (h.imp_right busyReadable_of_permitted), fun s => ?_, fun s hs => ?_⟩
  · have read {r : Reg} (h : r.busyReadable = true) : engineAccess r.offset .w32 .read s = (.data (readReg r s), s) :=
      engineAccess_readReg (.inr h)
    exact ⟨read (r := .id) rfl, read (r := .param) rfl, read (r := .cmd) rfl, read (r := .status) rfl,
      flagWord_eq s.doneIe ▸ read (r := .irqEn) rfl, flagWord_eq s.doneIp ▸ read (r := .irqStatus) rfl⟩
  · have read (r : Reg) : engineAccess r.offset .w32 .read s = (.data (readReg r s), s) :=
      engineAccess_readReg (.inl hs)
    exact ⟨read .len, read .outLen, read .ctr, fun i => read (.key i), fun i => read (.nonce i), fun i => read (.w i),
      fun i => read (.scr i), fun i => read (.blk i)⟩

/-- The fields of STATUS stand side by side in its word (10_state.md R28). -/
theorem word_toNat (t : Status) :
    t.word.toNat = t.busy.toNat + 2 * t.done.toNat + 4 * t.err.toNat + 2 ^ 8 * t.errcode.code.toNat := by
  obtain ⟨busy, done, err, code⟩ := t
  cases code <;> revert busy done err <;> decide

/-- Settles O44: the word of STATUS by its fields, the codes being those of 60_exceptions.md R200. -/
theorem statusWordHasItsFields : Obligations.StatusWordHasItsFields := by
  intro s
  refine ⟨s.status.word, engineAccess_readReg (r := .status) (.inr rfl), rfl, ?_⟩
  rw [word_toNat]
  cases s.status.errcode <;> rfl

/-- PARAM's value is small enough to be BUF_BYTES itself (10_state.md R26). -/
theorem readReg_param_toNat (s : State) : (readReg .param s).toNat = Config.bufBytes := by
  have := bufBytes_le
  rw [readReg, BitVec.toNat_ofNat, Nat.mod_eq_of_lt (by omega)]

/-- Settles O45: the constants of the map, and the bounds of BUF_BYTES (00_scope.md R6). -/
theorem idAndParamAreHardwired : Obligations.IdAndParamAreHardwired := by
  intro s
  have hle := bufBytes_le
  have hid : bytesLe 0x31474D43 = ['C', 'M', 'G', '1'].map (fun c => BitVec.ofNat 8 c.toNat) := by decide
  exact ⟨rfl, hid, readReg_param_toNat s, bufBytes_mod, bufBytes_ge, hle, by rw [readReg_param_toNat]; omega⟩

/-! Writes. -/

/-- The registers with a plain store (10_state.md R31, R33 to R35, R37, R38) read back what was written. -/
theorem readReg_writeReg_same {r : Reg} (hr : r.writable = true) (hc : r ≠ .cmd) (h0 : r ≠ .irqEn)
    (h1 : r ≠ .irqStatus) (v : Word) (s : State) : readReg r (writeReg r v s) = v := by
  cases r
  case len | ctr => rfl
  case key i | nonce i | scr i | blk i => exact Vector.getElem_set_self i.isLt
  case cmd | irqEn | irqStatus => contradiction
  all_goals cases hr

/-- Words of one vector that stand at different registers do not touch each other. -/
theorem getElem_set_of_ne {n : Nat} (f : Fin n → Reg) {i j : Fin n} (h : f j ≠ f i) (x : Vector Word n) (v : Word) :
    (x.set i v)[j] = x[j] :=
  Vector.getElem_set_ne i.isLt j.isLt fun e => h (congrArg f (Fin.ext e.symm))

/-- Apart from an acceptance, which also sets STATUS (60_exceptions.md R201), a write of a register changes no other
one. -/
theorem readReg_writeReg_other {r r' : Reg} (hc : r ≠ .cmd) (hne : r' ≠ r) (v : Word) (s : State) :
    readReg r' (writeReg r v s) = readReg r' s := by
  cases r
  case cmd => contradiction
  case key i | nonce i | scr i | blk i =>
    cases r' <;> try rfl
    exact getElem_set_of_ne _ hne _ v
  all_goals cases r' <;> (try contradiction) <;> rfl

/-- Settles O46: while idle a write has the register's write semantics, which is a plain store for these registers. -/
theorem plainRegisterWritesReadBack : Obligations.PlainRegisterWritesReadBack := by
  refine ⟨fun v s hs => ?_, fun r v s hs hr => ?_⟩
  · have write {r : Reg} (hw : r.writable = true) :
        engineAccess r.offset .w32 (.write v) s = (.written, writeReg r v s) := engineAccess_writeReg hw v (.inl hs)
    exact ⟨write (r := .len) rfl, write (r := .ctr) rfl, fun i => write (r := .key i) rfl,
      fun i => write (r := .nonce i) rfl, fun i => write (r := .scr i) rfl, fun i => write (r := .blk i) rfl⟩
  · have hplain : r.writable = true ∧ r ≠ .cmd ∧ r ≠ .irqEn ∧ r ≠ .irqStatus := by
      rcases hr with rfl | rfl | ⟨i, rfl⟩ | ⟨i, rfl⟩ | ⟨i, rfl⟩ | ⟨i, rfl⟩ <;> simp [Reg.writable]
    obtain ⟨hw, hc, h0, h1⟩ := hplain
    exact ⟨writeReg r v s, engineAccess_writeReg hw v (.inl hs), readReg_writeReg_same hw hc h0 h1 v s,
      fun _ hne => readReg_writeReg_other hc hne v s, writeReg_mem r v s, writeReg_draws r v s, writeReg_turns r v s,
      writeReg_host r v s⟩

/-- Settles O47: the interrupt registers are written busy or not (60_exceptions.md R203). -/
theorem interruptRegisterWrites : Obligations.InterruptRegisterWrites := by
  intro v s
  refine ⟨engineAccess_writeReg (r := .irqEn) rfl v (.inr rfl), ?_⟩
  have hp : (s.doneIp && !v.getLsbD 0) = if v.getLsbD 0 then false else s.doneIp := by
    cases v.getLsbD 0 <;> simp
  rw [← hp]
  exact engineAccess_writeReg (r := .irqStatus) rfl v (.inr rfl)

end Sys2Proof.Machine
end

section
/-! PROOFS. The family of 10_state.md, continued: what each command's completion writes (10_state.md R39) and does not
read. -/

namespace Sys2Proof.Machine

/-! The engine's turn (10_state.md R21). -/

theorem step_engine_turn_busy {s : State} (hn : nextTurn s = .engine) (hb : s.status.busy = true) :
    step s = completion (popTurn s) := by
  simp [step, hn, runTurn, engineTurn, hb]

/-- Settles O9: a busy engine's turn is a completion, and `withFetchWord` leaves the engine busy and next. -/
theorem engineTurnRunsTheDecodedCommand : Obligations.EngineTurnRunsTheDecodedCommand := by
  refine ⟨fun s i hn hb hd => ?_, fun s n w i hd => ?_⟩
  · rw [step_engine_turn_busy hn hb, completion_legal (popTurn s) hd]
  · rw [step_engine_turn_busy (nextTurn_withFetchWord s n w) rfl, popTurn_withFetchWord]
    exact completion_legal (accept (BitVec.ofNat 32 (w % 2 ^ n)) s) hd

/-- Settles O11: an idle engine's turn only takes itself off the list (log 14). -/
theorem idleEngineTurnChangesNothing : Obligations.IdleEngineTurnChangesNothing := by
  intro s hn hb
  simp [step, hn, runTurn, engineTurn, hb]

/-- Everything a completion can answer, in the terms of 60_exceptions.md R205 and R206: a legal command's own writes and
success, or an error the engine has a code for. -/
theorem completion_results {s t : State} (h : completion s = .next t) :
    (∃ i, decode s.cmd = .ok i ∧ check i s = .none ∧ t = completeOk (perform i s)) ∨
    ∃ b e, e ≠ ErrCode.none ∧ e ≠ ErrCode.invalidKeyFormat ∧ t = completeError b e s := by
  rcases completion_cases s h with ⟨_, rfl⟩ | ⟨i, hd, hx⟩
  · exact .inr ⟨false, .illegalCommand, by decide, by decide, rfl⟩
  · rcases exec_cases s hx with ⟨hc, rfl⟩ | ⟨hc, rfl⟩
    · exact .inl ⟨i, hd, hc, rfl⟩
    · exact .inr ⟨_, _, hc, check_ne_host s i, rfl⟩

/-- Settles O10: the two ways a completion can end. -/
theorem busyEngineTurnAlwaysCompletes : Obligations.BusyEngineTurnAlwaysCompletes := by
  refine ⟨fun s ht hb => by simp [nextTurn, ht, defaultTurn, hb], fun s hn hb => ?_⟩
  obtain ⟨t, ht⟩ := completion_next (popTurn s)
  refine ⟨t, (step_engine_turn_busy hn hb).trans ht, ?_⟩
  rcases completion_results ht with ⟨i, _, _, rfl⟩ | ⟨b, e, he, hh, rfl⟩
  · simp [Status.ok]
  · simp [Status.failed, he, hh]

/-! What a command does not read (10_state.md R33, R35). -/

theorem perform_setCtr {i : Instr} (hi : i ∉ [Instr.chachaInit, .chachaBlock]) (c : Word) (s : State) :
    perform i (s.setCtr c) = (perform i s).setCtr c := by
  cases i
  case chachaInit | chachaBlock => simp at hi
  all_goals rfl

theorem perform_setNonce {i : Instr} (hi : i ∉ [Instr.chachaInit, .chachaBlock, .chachaXor]) (n : Vector Word 3)
    (s : State) : perform i (s.setNonce n) = (perform i s).setNonce n := by
  cases i
  case chachaInit | chachaBlock | chachaXor => simp at hi
  all_goals rfl

theorem completeError_setCtr (b : Bool) (e : ErrCode) (c : Word) (s : State) :
    completeError b e (s.setCtr c) = (completeError b e s).setCtr c := by cases b <;> rfl

theorem completeError_setNonce (b : Bool) (e : ErrCode) (n : Vector Word 3) (s : State) :
    completeError b e (s.setNonce n) = (completeError b e s).setNonce n := by cases b <;> rfl

/-- A change of the state that the checks do not see, and that a command's writes and both completions carry through,
passes through the command. -/
theorem exec_comm {i : Instr} {f : State → State} {s t : State} (hck : check i (f s) = check i s)
    (hp : perform i (f s) = f (perform i s)) (hok : ∀ u, completeOk (f u) = f (completeOk u))
    (herr : ∀ b e, completeError b e (f s) = f (completeError b e s)) (h : exec i s = .next t) :
    exec i (f s) = .next (f t) := by
  rcases exec_cases s h with ⟨hc, rfl⟩ | ⟨hc, rfl⟩
  · rw [exec_eq, complete_of_none _ _ (hck.trans hc), hp, hok]
  · rw [exec_eq, complete_of_error _ _ (hck ▸ hc), hck, herr]

/-- A command that does not read CTR does the same with any value there, and leaves it. -/
theorem exec_setCtr {i : Instr} (hi : i ∉ [Instr.chachaInit, .chachaBlock]) (c : Word) {s t : State}
    (h : exec i s = .next t) : exec i (s.setCtr c) = .next (t.setCtr c) :=
  exec_comm (f := (·.setCtr c)) rfl (perform_setCtr hi c s) (fun _ => rfl)
    (fun b e => completeError_setCtr b e c s) h

/-- A command that does not read NONCE does the same with any value there, and leaves it. -/
theorem exec_setNonce {i : Instr} (hi : i ∉ [Instr.chachaInit, .chachaBlock, .chachaXor]) (n : Vector Word 3)
    {s t : State} (h : exec i s = .next t) : exec i (s.setNonce n) = .next (t.setNonce n) :=
  exec_comm (f := (·.setNonce n)) rfl (perform_setNonce hi n s) (fun _ => rfl)
    (fun b e => completeError_setNonce b e n s) h

/-- Settles O20: CHACHA_XOR passes a change of CTR through, a Magma command one of CTR and then one of NONCE. -/
theorem unreadRegistersHaveNoEffect : Obligations.UnreadRegistersHaveNoEffect := by
  refine ⟨fun s t c h => exec_setCtr (by decide) c h, fun i s t c n hi h => ?_⟩
  have hunread : i ∉ [Instr.chachaInit, .chachaBlock] ∧ i ∉ [Instr.chachaInit, .chachaBlock, .chachaXor] := by
    revert hi; cases i <;> decide
  exact exec_setNonce hunread.2 n (exec_setCtr hunread.1 c h)

/-! The rows of 10_state.md R39: what each command's own writes leave. -/

theorem perform_w {i : Instr} (hi : i ∉ [Instr.chachaInit, .chachaBlock]) (s : State) : (perform i s).w = s.w := by
  cases i
  case chachaInit | chachaBlock => simp at hi
  all_goals rfl

theorem perform_scr {i : Instr} (hi : i ∉ [Instr.chachaQr, .magmaT, .magmaG]) (s : State) :
    (perform i s).scr = s.scr := by
  cases i
  case chachaQr | magmaT | magmaG => simp at hi
  all_goals rfl

/-- MAGMA_T and MAGMA_G write SCR0 alone. -/
theorem perform_scr_tail {i : Instr} (hi : i ∈ [Instr.magmaT, .magmaG]) (s : State) :
    (perform i s).scr[1] = s.scr[1] ∧ (perform i s).scr[2] = s.scr[2] ∧ (perform i s).scr[3] = s.scr[3] := by
  have hset (v : Word) (j : Fin 4) (hj : j ≠ 0) : (s.scr.set 0 v)[j] = s.scr[j] :=
    Vector.getElem_set_ne (by decide) j.isLt fun h => hj (Fin.ext h.symm)
  simp only [List.mem_cons, List.not_mem_nil, or_false] at hi
  rcases hi with rfl | rfl <;>
    exact ⟨hset _ 1 (by decide), hset _ 2 (by decide), hset _ 3 (by decide)⟩

theorem perform_blk {i : Instr} (hi : i ∉ [Instr.magmaEncBlock, .magmaDecBlock]) (s : State) :
    (perform i s).blk = s.blk := by
  cases i
  case magmaEncBlock | magmaDecBlock => simp at hi
  all_goals rfl

theorem isBufferCommand_iff (i : Instr) : isBufferCommand i = true ↔ i ∈ [Instr.chachaXor, .magmaEnc, .magmaDec] := by
  cases i <;> decide

/-- A primitive command writes no buffer byte and no OUT_LEN, and draws nothing. -/
theorem perform_primitive {i : Instr} (hi : isBufferCommand i = false) (s : State) :
    (perform i s).outLen = s.outLen ∧ (perform i s).mem = s.mem ∧ (perform i s).draws = s.draws := by
  cases i
  case chachaXor | magmaEnc | magmaDec => cases hi
  all_goals exact ⟨rfl, rfl, rfl⟩

/-- A command writes OUT_LEN within R32's bound. -/
theorem perform_outLen_le {i : Instr} {s : State} (hc : check i s = .none)
    (hs : s.outLen.toNat ≤ Config.bufBytes + 8) : (perform i s).outLen.toNat ≤ Config.bufBytes + 8 := by
  obtain ⟨hlen, _⟩ := check_none s hc
  cases i
  case chachaXor => exact Nat.le_add_right_of_le (hlen rfl)
  case magmaEnc =>
    have hl : s.len.toNat ≤ Config.bufBytes := hlen rfl
    show (performMagmaEnc s).outLen.toNat ≤ _
    rw [performMagmaEnc_outLen_toNat s hl]
    omega
  case magmaDec =>
    have hl : s.len.toNat ≤ Config.bufBytes := hlen rfl
    have hu := unpad_length_le (magmaDecryptBlocks s.key (s.readIn s.len.toNat))
    show (performMagmaDec s).outLen.toNat ≤ _
    rw [performMagmaDec_outLen_toNat s hl]
    rw [magmaDecryptBlocks_length, readIn_length] at hu
    omega
  all_goals exact hs

/-- CHACHA_XOR and MAGMA_ENC put OUT_LEN bytes in OUT. -/
theorem outputBytes_length_outLen {i : Instr} {s : State} (hi : i ∈ [Instr.chachaXor, .magmaEnc])
    (hc : check i s = .none) : (outputBytes i s).length = (perform i s).outLen.toNat := by
  obtain ⟨hlen, _⟩ := check_none s hc
  simp only [List.mem_cons, List.not_mem_nil, or_false] at hi
  rcases hi with rfl | rfl
  · show (chachaXor _ _ _).length = s.len.toNat
    rw [chachaXor_length, readIn_length]
  · show (magmaEncrypt _ _).length = (performMagmaEnc s).outLen.toNat
    rw [performMagmaEnc_outLen_toNat s (hlen rfl), magmaEncrypt_length, readIn_length]

/-- MAGMA_DEC puts LEN bytes in OUT, of which OUT_LEN may count fewer. -/
theorem outputBytes_length_magmaDec {s : State} (hc : check .magmaDec s = .none) :
    (outputBytes .magmaDec s).length = s.len.toNat := by
  have hmod : s.len.toNat % 8 = 0 := (check_none s hc).2 rfl
  show (magmaDecryptBlocks _ _).length = _
  rw [magmaDecryptBlocks_length, readIn_length]
  omega

/-! The same of a whole completion. -/

/-- A command whose checks fail is a buffer command. -/
theorem isBufferCommand_of_check {i : Instr} {s : State} (h : check i s ≠ .none) : isBufferCommand i = true := by
  by_contra hi
  exact h (check_primitive s (by simpa using hi))

/-- What no command writes. -/
theorem exec_frame {i : Instr} {s t : State} (h : exec i s = .next t) :
    t.cmd = s.cmd ∧ t.doneIe = s.doneIe ∧ t.len = s.len ∧ t.ctr = s.ctr ∧ t.key = s.key ∧ t.nonce = s.nonce ∧
    t.turns = s.turns ∧ t.host = s.host := by
  rcases exec_cases s h with ⟨_, rfl⟩ | ⟨_, rfl⟩ <;> simp

/-- The buffer bytes after a command: as before, or with its output in OUT. -/
theorem exec_mem {i : Instr} {s t : State} (h : exec i s = .next t) :
    t.mem = s.mem ∨ (check i s = .none ∧ t.outLen = (perform i s).outLen ∧
      t.mem = pokes s.mem outBase (outputBytes i s)) := by
  rcases exec_cases s h with ⟨hc, rfl⟩ | ⟨_, rfl⟩
  · exact .inr ⟨hc, rfl, perform_mem s i⟩
  · exact .inl (completeError_mem s _ _)

/-- A command writes no byte but the `n` first ones of OUT, where `n` bounds its output. -/
theorem exec_sameBytesOutside {i : Instr} {s t : State} (h : exec i s = .next t) {n : Nat}
    (hn : check i s = .none → t.outLen = (perform i s).outLen → (outputBytes i s).length ≤ n) :
    sameBytesOutside outBase n s t := by
  intro a ha
  rcases exec_mem h with hm | ⟨hc, ho, hm⟩
  · rw [hm]
  · have := hn hc ho
    rw [hm, peek_pokes_outside (by omega)]

theorem exec_w {i : Instr} (hi : i ∉ [Instr.chachaInit, .chachaBlock]) {s t : State} (h : exec i s = .next t) :
    t.w = s.w := by
  rcases exec_cases s h with ⟨_, rfl⟩ | ⟨_, rfl⟩
  · exact perform_w hi s
  · exact completeError_w s _ _

theorem exec_scr {i : Instr} (hi : i ∉ [Instr.chachaQr, .magmaT, .magmaG]) {s t : State} (h : exec i s = .next t) :
    t.scr = s.scr := by
  rcases exec_cases s h with ⟨_, rfl⟩ | ⟨_, rfl⟩
  · exact perform_scr hi s
  · exact completeError_scr s _ _

theorem exec_scr_tail {i : Instr} (hi : i ∈ [Instr.magmaT, .magmaG]) {s t : State} (h : exec i s = .next t) :
    t.scr[1] = s.scr[1] ∧ t.scr[2] = s.scr[2] ∧ t.scr[3] = s.scr[3] := by
  rcases exec_cases s h with ⟨_, rfl⟩ | ⟨_, rfl⟩
  · exact perform_scr_tail hi s
  · rw [completeError_scr]
    exact ⟨rfl, rfl, rfl⟩

theorem exec_blk {i : Instr} (hi : i ∉ [Instr.magmaEncBlock, .magmaDecBlock]) {s t : State} (h : exec i s = .next t) :
    t.blk = s.blk := by
  rcases exec_cases s h with ⟨_, rfl⟩ | ⟨_, rfl⟩
  · exact perform_blk hi s
  · exact completeError_blk s _ _

theorem exec_primitive {i : Instr} (hi : isBufferCommand i = false) {s t : State} (h : exec i s = .next t) :
    t.outLen = s.outLen ∧ t.mem = s.mem ∧ t.draws = s.draws := by
  rcases exec_cases s h with ⟨_, rfl⟩ | ⟨hc, _⟩
  · exact perform_primitive hi s
  · exact absurd (check_primitive s hi) hc

/-- A command that sets ERR is a buffer command that has written its error and no more. -/
theorem exec_err {i : Instr} {s t : State} (h : exec i s = .next t) (he : t.status.err = true) :
    isBufferCommand i = true ∧
      t = { s with outLen := 0, status := ⟨false, true, true, t.status.errcode⟩, doneIp := true } := by
  rcases exec_cases s h with ⟨_, rfl⟩ | ⟨hc, rfl⟩
  · cases he
  · have hi := isBufferCommand_of_check hc
    rw [hi]
    exact ⟨rfl, rfl⟩

/-- A command that leaves ERR clear has succeeded (60_exceptions.md R206). -/
theorem exec_ok {i : Instr} {s t : State} (h : exec i s = .next t) (he : t.status.err = false) :
    t.status = ⟨false, true, false, .none⟩ ∧ t.doneIp = true := by
  rcases exec_cases s h with ⟨_, rfl⟩ | ⟨_, rfl⟩
  · exact ⟨rfl, rfl⟩
  · cases he

/-- Settles O36, row by row. -/
theorem commandsWriteOnlyTheirOwnRows : Obligations.CommandsWriteOnlyTheirOwnRows := by
  refine ⟨fun i s t h => ?_, fun s t e hd h => ?_⟩
  · obtain ⟨hcmd, hie, hlen, hctr, hkey, hnonce, hturns, hhost⟩ := exec_frame h
    have hout : sameBytesOutside outBase (Config.bufBytes + 8) s t :=
      exec_sameBytesOutside h fun hc _ => outputBytes_length_le s i (check_none s hc).1
    refine ⟨hcmd, hie, hlen, hctr, hkey, hnonce, hturns, hhost, hout, fun hi => ?_, ?_, fun hi => exec_w hi h,
      fun hi => exec_scr hi h, fun hi => exec_scr_tail hi h, fun hi => exec_blk hi h, fun hi => ?_, fun he => ?_,
      exec_ok h⟩
    · exact exec_sameBytesOutside h fun hc ho => (ho ▸ outputBytes_length_outLen hi hc).le
    · rintro rfl
      exact exec_sameBytesOutside h fun hc _ => (outputBytes_length_magmaDec hc).le
    · exact exec_primitive (Bool.eq_false_of_not_eq_true (mt (isBufferCommand_iff i).1 hi)) h
    · exact (exec_err h he).imp_left (isBufferCommand_iff i).1
  · rw [completion_illegal s hd] at h
    injection h with h
    exact h.symm

end Sys2Proof.Machine
end

section
/-! PROOFS. The family of 10_state.md, continued: what a step of any agent can change, and the invariant. -/

namespace Sys2Proof.Machine

/-! The command in CMD (30_encoding.md R90, R91). -/

theorem opcode_of_decodeOp {op : BitVec 8} {i : Instr} (h : decodeOp op = some i) : op = i.opcode := by
  unfold decodeOp at h
  split at h <;> cases h
  all_goals next hop => exact BitVec.eq_of_toNat_eq hop

/-- A word that decodes to a command is that command's word. -/
theorem encode_of_decode {w : Word} {i : Instr} (h : decode w = .ok i) : w = encode i := by
  have hw : w = rsvField w ++ opField w := by
    apply BitVec.eq_of_getLsbD_eq
    intro j hj
    simp only [rsvField, opField, BitVec.getLsbD_append, BitVec.getLsbD_extractLsb']
    split
    · next h8 => simp [h8]
    · simp [show j - 8 < 24 by omega, show 8 + (j - 8) = j by omega]
  unfold decode at h
  split at h
  · cases h
  · next hrsv =>
    split at h
    · next j hj =>
      injection h with h
      subst h
      rw [hw, not_not.1 hrsv, opcode_of_decodeOp hj]
      rfl
    · cases h

/-! W and the buffers (10_state.md R36, 20_memory.md R63). -/

/-- No access of a host changes an OUT byte: of the buffers it writes IN alone, which ends below OUT. -/
theorem engineAccess_peek_out {a : Nat} (ha : 0x20000 ≤ a) (off : Nat) (w : Width) (op : AccessOp) (s : State) :
    peek (engineAccess off w op s).2.mem a = peek s.mem a := by
  rcases engineAccess_cases off w op s with
    ⟨_, e⟩ | ⟨_, r, _, _, e⟩ | ⟨_, _, _, e⟩ | ⟨_, r, v, _, _, _, e⟩ | ⟨hf, v, _, hin, _, e⟩
  case inr.inr.inr.inr =>
    obtain ⟨_, _, halign, _⟩ := accessFails_false hf
    rw [e]
    refine peek_pokes_outside fun ⟨hle, hlt⟩ => ?_
    rw [bytesLe_take_length] at hlt
    have hlast := inIn_access hin halign (j := a - off) (by omega)
    have := bufBytes_le
    rw [inIn_iff] at hlast
    unfold inBase at hlast
    omega
  case inr.inr.inr.inl => rw [e, writeReg_mem]
  all_goals simp [e, State.skipDraws]

/-- A step of a host leaves W and OUT. -/
theorem step_host_results {s t : State} (h : step s = .next t) (he : nextTurn s ≠ .engine) (hr : nextTurn s ≠ .reset) :
    t.w = s.w ∧ ∀ a, 0x20000 ≤ a → peek t.mem a = peek s.mem a := by
  rcases step_host_cases h he hr with ⟨off, w, op, h', rfl⟩ | ⟨h', rfl⟩
  · obtain ⟨_, _, hw, _⟩ := engineAccess_frame off w op (popTurn s)
    exact ⟨hw, fun a ha => engineAccess_peek_out ha off w op (popTurn s)⟩
  · exact ⟨rfl, fun _ _ => rfl⟩

/-- An engine's turn that changes W or a buffer byte completes a command. -/
theorem step_engine_cases {s t : State} (h : step s = .next t) (hn : nextTurn s = .engine) :
    (t.w = s.w ∧ t.mem = s.mem) ∨
    (s.status.busy = true ∧ ∃ i, s.cmd = encode i ∧ exec i (popTurn s) = .next t) := by
  cases hb : s.status.busy with
  | false =>
    rw [idleEngineTurnChangesNothing s hn hb] at h
    injection h with h
    subst h
    exact .inl ⟨rfl, rfl⟩
  | true =>
    rw [step_engine_turn_busy hn hb] at h
    rcases completion_cases _ h with ⟨_, rfl⟩ | ⟨i, hd, hx⟩
    · exact .inl ⟨rfl, rfl⟩
    · exact .inr ⟨rfl, i, encode_of_decode hd, hx⟩

/-- Settles O37: a host's step leaves W and OUT, and a completion writes what the command's row names. -/
theorem resultsChangeOnlyAtTheirCommands : Obligations.ResultsChangeOnlyAtTheirCommands := by
  intro s t h
  by_cases hr : nextTurn s = .reset
  · exact ⟨fun _ => .inl hr, fun _ _ _ => .inl hr, fun _ _ _ => by rw [hr]; decide⟩
  by_cases hn : nextTurn s = .engine
  · rcases step_engine_cases h hn with ⟨hw, hm⟩ | ⟨hb, i, hcmd, hx⟩
    · exact ⟨fun hne => absurd hw hne, fun a _ hne => absurd (by rw [hm]) hne, fun a _ hne => absurd (by rw [hm]) hne⟩
    · refine ⟨fun hne => .inr ⟨hn, hb, ?_⟩, fun a _ hne => .inr ⟨hn, hb, ?_⟩, fun a ha hne => absurd ?_ hne⟩
      · have hi : i ∈ [Instr.chachaInit, .chachaBlock] := by
          by_contra hi
          exact hne ((exec_w hi hx).trans (popTurn_w s))
        simp only [List.mem_cons, List.not_mem_nil, or_false] at hi
        rcases hi with rfl | rfl
        exacts [.inl hcmd, .inr hcmd]
      · have hi : i ∈ [Instr.chachaXor, .magmaEnc, .magmaDec] := by
          rw [← isBufferCommand_iff]
          by_contra hi
          obtain ⟨_, hm, _⟩ := exec_primitive (Bool.eq_false_of_not_eq_true hi) hx
          exact hne (by rw [hm]; rfl)
        simp only [List.mem_cons, List.not_mem_nil, or_false] at hi
        rcases hi with rfl | rfl | rfl
        exacts [.inl hcmd, .inr (.inl hcmd), .inr (.inr hcmd)]
      · exact exec_sameBytesOutside hx (n := (outputBytes i (popTurn s)).length) (fun _ _ => le_rfl) a
          (by unfold outBase; omega)
  · obtain ⟨hw, hm⟩ := step_host_results h hn hr
    refine ⟨fun hne => absurd hw hne, fun a ha hne => absurd (hm a ha) hne, fun _ _ _ => hn⟩

/-! STATUS (10_state.md R28). -/

/-- An access that the engine decodes is one at its window offset. -/
theorem busAccess_eq_some {a : Access} {s u : State} {r : Reply} (h : busAccess a s = some (r, u)) :
    ∃ off, a.addr = Config.engineBase + off ∧ engineAccess off a.width a.op s = (r, u) := by
  obtain ⟨off, ho, he⟩ := Option.map_eq_some_iff.1 h
  unfold windowOffset at ho
  split at ho
  · injection ho with ho
    exact ⟨off, by omega, he⟩
  · cases ho

/-- The only access that changes STATUS is an acceptance: a 32-bit write to CMD while idle (60_exceptions.md R201). -/
theorem engineAccess_status {off : Nat} {w : Width} {op : AccessOp} {s u : State} {r : Reply}
    (h : engineAccess off w op s = (r, u)) (hne : u.status ≠ s.status) :
    s.status.busy = false ∧ off = 0x008 ∧ w = .w32 ∧ ∃ v, op = .write v ∧ u = accept v s := by
  rcases engineAccess_cases off w op s with
    ⟨_, e⟩ | ⟨_, r, _, _, e⟩ | ⟨_, _, _, e⟩ | ⟨hf, r, v, hr, _, hop, e⟩ | ⟨_, v, _, _, _, e⟩
  case inr.inr.inr.inl =>
    obtain ⟨_, rfl⟩ := Prod.mk.inj (h.symm.trans e)
    rw [writeReg_status] at hne
    obtain rfl : r = .cmd := by
      by_contra hr
      exact hne (if_neg hr)
    obtain rfl : 0x008 = off := offset_of_regAt hr
    obtain ⟨hbusy, _, _, hreg, _⟩ := accessFails_false hf
    obtain ⟨hw, _⟩ := hreg rfl
    subst hop
    have hidle : s.status.busy = false := by simpa [busyForbidden, hr, Reg.busyWritable] using hbusy
    exact ⟨hidle, rfl, hw, v, rfl, rfl⟩
  all_goals
    obtain ⟨_, rfl⟩ := Prod.mk.inj (h.symm.trans e)
    exact absurd rfl hne

/-- The same of a bus access. -/
theorem busAccess_status {a : Access} {s u : State} {r : Reply} (h : busAccess a s = some (r, u))
    (hne : u.status ≠ s.status) :
    s.status.busy = false ∧ ∃ v, a = ⟨Config.engineBase + 0x008, .w32, .write v⟩ ∧ u = accept v s := by
  obtain ⟨off, haddr, he⟩ := busAccess_eq_some h
  obtain ⟨hidle, rfl, hw, v, hop, hu⟩ := engineAccess_status he hne
  obtain ⟨addr, w, op⟩ := a
  subst haddr hw hop
  exact ⟨hidle, v, rfl, hu⟩

/-- Everything a statement can answer, by its form: the access of a `wr` or a `rd`, or a change of the host alone, which
sets one variable at most. -/
theorem runStmt_results {c : Stmt} {s t : State} (h : runStmt c s = .next t) :
    (∃ w off val, c = .wr w off val ∧
      accessStmt (scriptAccess w (evalOff s.host off) (.write (truncateTo w (evalVal s.host val)))) none s = .next t) ∨
    (∃ w off x, c = .rd w off x ∧ accessStmt (scriptAccess w (evalOff s.host off) .read) (some x) s = .next t) ∨
    ∃ h', t = s.setHost h' ∧ (h'.vars = s.host.vars ∨ ∃ x v, h'.vars = (putVar s.host x v).vars) := by
  cases c
  case wr w off val => exact .inl ⟨w, off, val, rfl, h⟩
  case rd w off x => exact .inr (.inl ⟨w, off, x, rfl, h⟩)
  case bnz | bz | bne =>
    obtain ⟨p, rfl⟩ := branch_cases s h
    exact .inr (.inr ⟨_, rfl, .inl rfl⟩)
  case set | add =>
    injection h with h
    exact .inr (.inr ⟨_, h.symm, .inr ⟨_, _, rfl⟩⟩)
  case label | halt | failKey =>
    injection h with h
    exact .inr (.inr ⟨_, h.symm, .inl rfl⟩)

/-- Everything a script's turn can answer: nothing left to run (60_exceptions.md R218), or its next statement. -/
theorem scriptTurn_results {s t : State} (h : scriptTurn s = .next t) :
    t = s ∨ ∃ c, nextStmt s.host = some c ∧ runStmt c s = .next t := by
  unfold scriptTurn at h
  split at h
  · next c hc => exact .inr ⟨c, hc, h⟩
  · injection h with h
    exact .inl h.symm

/-- The only statement of a script that changes STATUS is an acceptance: a 32-bit `wr` to CMD while idle. -/
theorem runStmt_status {c : Stmt} {s t : State} (h : runStmt c s = .next t) (hne : t.status ≠ s.status) :
    s.status.busy = false ∧ t.status = Status.accepted ∧
      ∃ off val, c = .wr .w32 off val ∧ evalOff s.host off = 0x008 ∧ evalVal s.host val = t.cmd := by
  rcases runStmt_results h with ⟨w, off, val, rfl, ha⟩ | ⟨w, off, x, rfl, ha⟩ | ⟨h', rfl, _⟩
  · obtain ⟨r, u, hb, rfl⟩ := accessStmt_cases s ha
    obtain ⟨hidle, v, hacc, rfl⟩ := busAccess_status hb hne
    injection hacc with haddr hw hop
    subst hw
    injection hop with hv
    exact ⟨hidle, rfl, off, val, rfl, BitVec.eq_of_toNat_eq (Nat.add_left_cancel haddr), hv⟩
  · obtain ⟨r, u, hb, rfl⟩ := accessStmt_cases s ha
    obtain ⟨_, v, hacc, _⟩ := busAccess_status hb hne
    injection hacc with _ _ hop
    cases hop
  · exact absurd rfl hne

/-- Settles O38, by the agent whose turn it is. -/
theorem statusChangesOnlyByResetCompletionAcceptance : Obligations.StatusChangesOnlyByResetCompletionAcceptance := by
  intro s t h hne
  rcases step_cases s h with ⟨hn, hb, hc⟩ | ⟨_, _, rfl⟩ | ⟨hn, ht⟩ | ⟨a, hn, ht⟩ | ⟨hn, _⟩
  · refine .inr (.inl ⟨hn, hb, ?_⟩)
    rcases completion_results hc with ⟨_, _, _, rfl⟩ | ⟨_, _, _, _, rfl⟩ <;> rfl
  · exact absurd rfl hne
  · refine .inr (.inr ?_)
    rcases scriptTurn_results ht with rfl | ⟨c, hc, hrun⟩
    · exact absurd rfl hne
    · obtain ⟨hidle, hst, off, val, rfl, hoff, hval⟩ := runStmt_status hrun hne
      exact ⟨hidle, hst, t.cmd, rfl, .inr ⟨hn, off, val, hc, hoff, hval⟩⟩
  · obtain ⟨r, u, hb, rfl⟩ := busTurn_cases _ ht
    obtain ⟨hidle, v, rfl, rfl⟩ := busAccess_status hb hne
    exact .inr (.inr ⟨hidle, rfl, v, rfl, .inl hn⟩)
  · exact .inl hn

/-! The invariant. -/

/-- The engine's part of the invariant. -/
structure EngineInv (s : State) : Prop where
  statusLegal : s.status.legal = true
  outLenBound : s.outLen.toNat ≤ Config.bufBytes + 8
  memWf : Memory.wf s.mem = true
  memInBuffers : Memory.inBuffers s.mem = true

/-- The host's part of the invariant: its variables are in canonical form. -/
structure VarsInv (h : HostState) : Prop where
  varsWf : risingAbove none h.vars = true
  varsNonzero : h.vars.all (fun c => c.2 != 0) = true

theorem inv_iff (s : State) : s.Inv ↔ EngineInv s ∧ VarsInv s.host :=
  ⟨fun h => ⟨⟨h.statusLegal, h.outLenBound, h.memWf, h.memInBuffers⟩, ⟨h.varsWf, h.varsNonzero⟩⟩,
    fun ⟨e, v⟩ => ⟨e.statusLegal, e.outLenBound, e.memWf, e.memInBuffers, v.varsWf, v.varsNonzero⟩⟩

theorem EngineInv.popTurn {s : State} (hs : EngineInv s) : EngineInv (popTurn s) :=
  ⟨hs.statusLegal, hs.outLenBound, hs.memWf, hs.memInBuffers⟩

theorem EngineInv.setHost {s : State} (hs : EngineInv s) (h : HostState) : EngineInv (s.setHost h) :=
  ⟨hs.statusLegal, hs.outLenBound, hs.memWf, hs.memInBuffers⟩

/-- A reset gives the engine's part from any state (70_reset_and_hazards.md R231). -/
theorem engineInv_resetEngine (s : State) : EngineInv (resetEngine s) := ⟨rfl, Nat.zero_le _, rfl, rfl⟩

/-- The host's part speaks of the variables alone. -/
theorem VarsInv.congr {h h' : HostState} (hv : VarsInv h) (e : h'.vars = h.vars) : VarsInv h' :=
  ⟨e ▸ hv.varsWf, e ▸ hv.varsNonzero⟩

/-- Settles O2: both parts of the invariant hold of the reset state. -/
theorem resetStateMeetsTheInvariant : Obligations.ResetStateMeetsTheInvariant :=
  (inv_iff _).2 ⟨engineInv_resetEngine State.reset, rfl, rfl⟩

/-- A completion ends in a legal STATUS, with OUT_LEN in its bound and the output in OUT. -/
theorem completion_engineInv {s t : State} (hs : EngineInv s) (h : completion s = .next t) : EngineInv t := by
  obtain ⟨_, hout, hwf, hin⟩ := hs
  rcases completion_results h with ⟨i, _, hc, rfl⟩ | ⟨b, e, he, hh, rfl⟩
  · refine ⟨completeOk_legal _, perform_outLen_le hc hout, ?_, ?_⟩
    · rw [completeOk_mem, perform_mem]
      exact pokes_wf _ _ hwf
    · rw [completeOk_mem, perform_mem]
      exact pokes_inBuffers _ _ hin fun j hj => .inr (outputBytes_inOut s (check_none s hc).1 hj)
  · refine ⟨completeError_legal s b he hh, ?_, completeError_mem s b e ▸ hwf, completeError_mem s b e ▸ hin⟩
    cases b
    · exact hout
    · exact Nat.zero_le _

/-- An access writes STATUS at an acceptance alone and buffer bytes in IN alone. -/
theorem engineAccess_engineInv {s : State} (hs : EngineInv s) (off : Nat) (w : Width) (op : AccessOp) :
    EngineInv (engineAccess off w op s).2 := by
  obtain ⟨hst, hout, hwf, hin⟩ := hs
  rcases engineAccess_cases off w op s with
    ⟨_, e⟩ | ⟨_, r, _, _, e⟩ | ⟨_, _, _, e⟩ | ⟨_, r, v, _, _, _, e⟩ | ⟨hf, v, _, hoff, _, e⟩
  case inr.inr.inr.inl =>
    rw [e]
    refine ⟨?_, (writeReg_outLen r v s).symm ▸ hout, (writeReg_mem r v s).symm ▸ hwf, (writeReg_mem r v s).symm ▸ hin⟩
    rw [writeReg_status]
    split
    · rfl
    · exact hst
  case inr.inr.inr.inr =>
    obtain ⟨_, _, halign, _⟩ := accessFails_false hf
    rw [e]
    refine ⟨hst, hout, pokes_wf _ off hwf, pokes_inBuffers _ off hin fun j hj => .inl ?_⟩
    rw [bytesLe_take_length] at hj
    exact inIn_access hoff halign hj
  all_goals
    rw [e]
    exact ⟨hst, hout, hwf, hin⟩

/-- Setting a variable keeps the canonical form: a 0 is taken out, another value put in its place. -/
theorem putVar_varsInv {h : HostState} (hv : VarsInv h) (x : Var) (v : Word) : VarsInv (putVar h x v) := by
  obtain ⟨hwf, hnz⟩ := hv
  by_cases h0 : v = 0
  · have e : (putVar h x v).vars = cellDrop h.vars x := if_pos h0
    refine ⟨e ▸ rising_cellDrop x hwf, ?_⟩
    rw [e, List.all_eq_true]
    exact fun c hc => List.all_eq_true.1 hnz c (List.mem_of_mem_filter hc)
  · have e : (putVar h x v).vars = cellPut h.vars x v := if_neg h0
    exact ⟨e ▸ rising_cellPut x v hwf, e ▸ all_cellPut (bne_iff_ne.2 h0) hnz⟩

theorem takeReply_varsInv {h : HostState} (hv : VarsInv h) (d : Option Var) (r : Reply) :
    VarsInv (takeReply d r h) := by
  cases r
  case data v =>
    cases d
    case some x => exact (putVar_varsInv hv x v).congr rfl
    case none => exact hv.congr rfl
  all_goals exact hv.congr rfl

/-- An access leaves the host's variables. -/
theorem busAccess_host {a : Access} {s u : State} {r : Reply} (h : busAccess a s = some (r, u)) : u.host = s.host := by
  obtain ⟨off, _, he⟩ := busAccess_eq_some h
  obtain ⟨_, hhost, _⟩ := engineAccess_frame off a.width a.op s
  rwa [he] at hhost

theorem accessStmt_varsInv {a : Access} {d : Option Var} {s t : State} (hv : VarsInv s.host)
    (h : accessStmt a d s = .next t) : VarsInv t.host := by
  obtain ⟨r, u, hb, rfl⟩ := accessStmt_cases s h
  rw [← busAccess_host hb] at hv
  exact takeReply_varsInv (h := (recordAccess .script a r u).host) (hv.congr rfl) d r

theorem runStmt_varsInv {c : Stmt} {s t : State} (hv : VarsInv s.host) (h : runStmt c s = .next t) :
    VarsInv t.host := by
  rcases runStmt_results h with ⟨_, _, _, _, ha⟩ | ⟨_, _, _, _, ha⟩ | ⟨h', rfl, e | ⟨x, v, e⟩⟩
  · exact accessStmt_varsInv hv ha
  · exact accessStmt_varsInv hv ha
  · exact hv.congr e
  · exact (putVar_varsInv hv x v).congr e

/-- Only the script sets variables, in canonical form. -/
theorem step_varsInv {s t : State} (hv : VarsInv s.host) (h : step s = .next t) : VarsInv t.host := by
  rcases step_cases s h with ⟨_, _, hc⟩ | ⟨_, _, rfl⟩ | ⟨_, ht⟩ | ⟨a, _, ht⟩ | ⟨_, rfl⟩
  · rcases completion_results hc with ⟨i, _, _, rfl⟩ | ⟨b, e, _, _, rfl⟩
    · rwa [completeOk_host, perform_host]
    · rwa [completeError_host]
  · exact hv
  · rcases scriptTurn_results ht with rfl | ⟨c, _, hrun⟩
    · exact hv
    · exact runStmt_varsInv (s := popTurn s) hv hrun
  · obtain ⟨r, u, hb, rfl⟩ := busTurn_cases _ ht
    rw [← popTurn_host, ← busAccess_host hb] at hv
    exact hv.congr rfl
  · exact hv

theorem step_engineInv {s t : State} (hs : EngineInv s) (h : step s = .next t) : EngineInv t := by
  by_cases hn : nextTurn s = .engine
  · cases hb : s.status.busy with
    | false =>
      rw [idleEngineTurnChangesNothing s hn hb] at h
      injection h with h
      exact h ▸ hs.popTurn
    | true => exact completion_engineInv hs.popTurn (step_engine_turn_busy hn hb ▸ h)
  by_cases hr : nextTurn s = .reset
  · simp only [step, hr, runTurn] at h
    injection h with h
    exact h ▸ engineInv_resetEngine (popTurn s)
  rcases step_host_cases h hn hr with ⟨off, w, op, h', rfl⟩ | ⟨h', rfl⟩
  · exact (engineAccess_engineInv hs.popTurn off w op).setHost h'
  · exact hs.popTurn.setHost h'

/-- Settles O3: the engine's part and the host's part of the invariant are each kept. -/
theorem stepKeepsTheInvariant : Obligations.StepKeepsTheInvariant := by
  intro s t hs h
  obtain ⟨he, hv⟩ := (inv_iff s).1 hs
  exact (inv_iff t).2 ⟨step_engineInv he h, step_varsInv hv h⟩

end Sys2Proof.Machine
end

section
/-! PROOFS. The family of 20_memory.md. First the buffers (20_memory.md R63 to R70): what a read and a write of their
bytes answer and change. -/

namespace Sys2Proof.Machine

/-! One byte read (20_memory.md R66). -/

theorem readByte_of_set {m : Memory} {a : Nat} {b : Byte} (h : peek m a = some b) (draw : Nat) :
    readByte m draw a = b := by
  simp [readByte, h]

theorem readByte_of_unset {m : Memory} {a : Nat} (h : peek m a = none) (draw : Nat) :
    readByte m draw a = Config.freeByte draw := by
  simp [readByte, h]

/-- Where every byte is set, the draws do not matter. -/
theorem readBytes_draw_irrelevant {m : Memory} {a n : Nat} (h : ∀ j < n, ∃ b, peek m (a + j) = some b) (d d' : Nat) :
    readBytes m d a n = readBytes m d' a n := by
  refine List.map_congr_left fun j hj => ?_
  obtain ⟨b, hb⟩ := h j (List.mem_range.1 hj)
  rw [readByte_of_set hb, readByte_of_set hb]

/-! Reads of registers and of buffer bytes (20_memory.md R70). -/

/-- Below the buffers only a register's offset passes the checks of R71. -/
theorem ge_of_accessFails_false {off : Nat} {w : Width} {op : AccessOp} {s : State}
    (hf : accessFails off w op s = false) (hr : regAt off = none) : 0x100 ≤ off := by
  obtain ⟨_, _, _, hreg, _⟩ := accessFails_false hf
  by_contra hlt
  obtain ⟨_, hsome⟩ := hreg (if_pos (by omega))
  rw [hr] at hsome
  cases hsome

/-- The checks of R71 do not look at the draw counter. -/
theorem accessFails_skipDraws (off : Nat) (w : Width) (op : AccessOp) (s : State) (n : Nat) :
    accessFails off w op (s.skipDraws n) = accessFails off w op s := rfl

/-- A read that passes the checks and finds no register answers buffer bytes. -/
theorem engineAccess_read_of_regAt_none {off : Nat} {w : Width} {s : State}
    (hf : accessFails off w .read s = false) (hr : regAt off = none) :
    engineAccess off w .read s =
      (.data (assembleLe (readBytes s.mem s.draws off w.bytes)), s.skipDraws w.bytes) := by
  simp [engineAccess, hf, memRead, hr]

/-- Settles O49: a read that fails or finds a register changes nothing at all, and one of buffer bytes uses up draws,
which set bytes do not look at. -/
theorem readsHaveNoSideEffect : Obligations.ReadsHaveNoSideEffect := by
  intro off w s t r h
  rcases engineAccess_cases off w .read s with
    ⟨_, e⟩ | ⟨_, _, _, _, e⟩ | ⟨hf, hr, _, e⟩ | ⟨_, _, _, _, _, hop, _⟩ | ⟨_, _, _, _, hop, _⟩
  case inr.inr.inl =>
    obtain ⟨rfl, rfl⟩ := Prod.mk.inj (h.symm.trans e)
    refine ⟨rfl, fun hset => ?_⟩
    have hset : ∀ j < w.bytes, ∃ b, peek s.mem (off + j) = some b :=
      hset.resolve_left (Nat.not_lt.2 (ge_of_accessFails_false hf hr))
    rw [engineAccess_read_of_regAt_none ((accessFails_skipDraws ..).trans hf) hr]
    exact congrArg (Reply.data <| assembleLe ·) (readBytes_draw_irrelevant hset _ _)
  case inr.inr.inr.inl | inr.inr.inr.inr => cases hop
  all_goals
    obtain ⟨rfl, rfl⟩ := Prod.mk.inj (h.symm.trans e)
    exact ⟨rfl, fun _ => by rw [e]⟩

/-! The buffers as one byte array (20_memory.md R64, R65). -/

/-- The bounds of the two buffers, as numbers (20_memory.md R61). -/
theorem inBuffer_iff (a : Nat) : inIn a = true ∨ inOut a = true ↔
    (0x10000 ≤ a ∧ a < 0x10000 + Config.bufBytes) ∨ (0x20000 ≤ a ∧ a < 0x20000 + Config.bufBytes + 8) :=
  or_congr (inIn_iff a) (inOut_iff a)

/-- A write of any width sets byte `j` of the access to bits [8j+7:8j] of the value. -/
theorem peek_pokes_bytesLe_take (m : Memory) (a : Nat) (v : Word) {w : Width} {j : Nat} (hj : j < w.bytes) :
    peek (pokes m a ((bytesLe v).take w.bytes)) (a + j) = some (v.extractLsb' (8 * j) 8) := by
  have h4 : w.bytes ≤ 4 := by cases w <;> decide
  rw [peek_pokes_inside (by rwa [bytesLe_take_length]), List.getElem?_take_of_lt hj,
    bytesLe_getElem? v (Nat.lt_of_lt_of_le hj h4)]

/-- Settles O50: a write puts the value's bytes at their places, and a read answers byte by byte. -/
theorem bufferAccessesShareOneByteArray : Obligations.BufferAccessesShareOneByteArray := by
  intro a w s hs hw
  refine ⟨fun v hlo hhi => ?_, fun ha => ?_⟩
  · refine ⟨_, engineAccess_writeIn v hs ((inIn_iff a).2 ⟨hlo, hhi⟩) hw, fun j hj => ?_, fun b hb => ?_, rfl⟩
    · exact peek_pokes_bytesLe_take s.mem a v hj
    · exact peek_pokes_outside (by rwa [bytesLe_take_length])
  · obtain ⟨hlt, hbytes⟩ := readBuffer_bytes s a w
    refine ⟨_, _, engineAccess_readBuffer hs ((inBuffer_iff a).2 ha) hw, rfl, hlt, fun j hj b hb => ?_⟩
    rw [hbytes j hj, readByte_of_set hb]

/-- Settles O51: a read answers byte by byte, and an unset byte is the draw of its own number. -/
theorem unsetBytesReadAsFreshDraws : Obligations.UnsetBytesReadAsFreshDraws := by
  intro a s hs ha
  have ha := (inBuffer_iff a).2 ha
  refine ⟨fun w hw => ?_, fun hnone => ?_⟩
  · obtain ⟨hlt, hbytes⟩ := readBuffer_bytes s a w
    refine ⟨_, engineAccess_readBuffer hs ha hw, hlt, fun j hj hnone => ?_⟩
    rw [hbytes j hj, readByte_of_unset hnone]
  · have hone : readBytes s.mem s.draws a 1 = [Config.freeByte s.draws] :=
      congrArg (fun b => [b]) (readByte_of_unset hnone s.draws)
    rw [engineAccess_readBuffer (w := .w8) hs ha (Nat.mod_one a), Width.bytes, hone]
    simp [assembleLe, State.skipDraws, State.setDraws]

end Sys2Proof.Machine
end

section
/-! PROOFS. The family of 20_memory.md, continued: the window (20_memory.md R60), and where the machine stops. -/

namespace Sys2Proof.Machine

/-! The window (20_memory.md R60, R71). -/

/-- The bus address lies in the window (20_memory.md R60). -/
def InWindow (a : Nat) : Prop := Config.engineBase ≤ a ∧ a < Config.engineBase + 0x30000

/-- The engine decodes no address outside the window. -/
theorem busAccess_eq_none_iff {a : Access} {s : State} :
    busAccess a s = none ↔ ¬ InWindow a.addr := by
  rw [busAccess, Option.map_eq_none_iff, windowOffset]
  exact ite_eq_right_iff.trans ⟨fun h hin => Option.some_ne_none _ (h hin), fun h hin => absurd hin h⟩

/-- A bus turn outside the window is refused by name (log 9). -/
theorem busTurn_outside {a : Access} (h : ¬ InWindow a.addr) (s : State) :
    busTurn a s = .refused (.outsideWindow a.addr) := by
  rw [busTurn, busAccess_eq_none_iff.2 h]

theorem step_bus {a : Access} {s : State} (h : nextTurn s = .bus a) : step s = busTurn a (popTurn s) := by
  rw [step, h, runTurn]

/-- Settles O42: a bus turn takes the engine's answer inside the window and is refused outside it. -/
theorem windowIsDecodedAtItsBase : Obligations.WindowIsDecodedAtItsBase := by
  refine ⟨fun off w op s hoff hn => ?_, fun a s hn hout => ?_⟩
  · rw [step_bus hn]
    exact busTurn_inside (popTurn s) hoff w op
  · rw [step_bus hn]
    exact busTurn_outside (fun ⟨hlo, hhi⟩ => by omega) (popTurn s)

/-! Where the machine stops (logs 8 and 9). -/

/-- The engine's turn always answers a next state (10_state.md R21, 60_exceptions.md R202). -/
theorem engineTurn_next (s : State) : ∃ t, engineTurn s = .next t := by
  unfold engineTurn
  split
  · exact completion_next s
  · exact ⟨s, rfl⟩

/-- A bus turn stops outside the window alone, by refusing the address. -/
theorem busTurn_stops {a : Access} {s : State} {o : Host.Outcome State Fault Refusal} (h : busTurn a s = o)
    (ho : ∀ t, o ≠ .next t) : o = .refused (.outsideWindow a.addr) ∧ ¬ InWindow a.addr := by
  unfold busTurn at h
  split at h
  · next hb => exact ⟨h.symm, busAccess_eq_none_iff.1 hb⟩
  · exact absurd h.symm (ho _)

/-- So does an access statement of the script. -/
theorem accessStmt_stops {a : Access} {d : Option Var} {s : State} {o : Host.Outcome State Fault Refusal}
    (h : accessStmt a d s = o) (ho : ∀ t, o ≠ .next t) :
    o = .refused (.outsideWindow a.addr) ∧ ¬ InWindow a.addr := by
  unfold accessStmt at h
  split at h
  · next hb => exact ⟨h.symm, busAccess_eq_none_iff.1 hb⟩
  · exact absurd h.symm (ho _)

/-- A branch stops where it is taken to a label the script does not define, with that label's fault (log 8). -/
theorem branch_stops {b : Bool} {l : Label} {s : State} {o : Host.Outcome State Fault Refusal}
    (h : branch b l s = o) (ho : ∀ t, o ≠ .next t) :
    b = true ∧ o = .fault (.undefinedLabel l) ∧ Stmt.label l ∉ s.host.script := by
  unfold branch at h
  split at h
  · next hb =>
    split at h
    · exact absurd h.symm (ho _)
    · next hl =>
      rw [labelIndex, List.findIdx?_eq_none_iff] at hl
      exact ⟨hb, h.symm, fun hmem => by simpa using hl _ hmem⟩
  · exact absurd h.symm (ho _)

/-- The statement is a branch to `l` that is taken (30_encoding.md R97). -/
def TakenBranch (h : HostState) (c : Stmt) (l : Label) : Prop :=
  ∃ x val, (c = .bnz x val l ∧ getVar h x &&& evalVal h val ≠ 0) ∨
    (c = .bz x val l ∧ getVar h x &&& evalVal h val = 0) ∨ (c = .bne x val l ∧ getVar h x ≠ evalVal h val)

/-- Everything a statement can stop with: the refusal of its access outside the window, or the fault of a taken branch
to a label the script does not define. -/
theorem runStmt_stops {c : Stmt} {s : State} {o : Host.Outcome State Fault Refusal} (h : runStmt c s = o)
    (ho : ∀ t, o ≠ .next t) :
    (∃ w off, ((∃ val, c = .wr w off val) ∨ ∃ x, c = .rd w off x) ∧
      o = .refused (.outsideWindow (Config.engineBase + (evalOff s.host off).toNat)) ∧
      ¬ InWindow (Config.engineBase + (evalOff s.host off).toNat)) ∨
    (∃ l, TakenBranch s.host c l ∧ o = .fault (.undefinedLabel l) ∧ Stmt.label l ∉ s.host.script) := by
  cases c
  case wr w off val => exact .inl ⟨w, off, .inl ⟨val, rfl⟩, accessStmt_stops h ho⟩
  case rd w off x => exact .inl ⟨w, off, .inr ⟨x, rfl⟩, accessStmt_stops h ho⟩
  case bnz x val l =>
    obtain ⟨hb, hstop⟩ := branch_stops h ho
    exact .inr ⟨l, ⟨x, val, .inl ⟨rfl, bne_iff_ne.1 hb⟩⟩, hstop⟩
  case bz x val l =>
    obtain ⟨hb, hstop⟩ := branch_stops h ho
    exact .inr ⟨l, ⟨x, val, .inr (.inl ⟨rfl, beq_iff_eq.1 hb⟩)⟩, hstop⟩
  case bne x val l =>
    obtain ⟨hb, hstop⟩ := branch_stops h ho
    exact .inr ⟨l, ⟨x, val, .inr (.inr ⟨rfl, bne_iff_ne.1 hb⟩)⟩, hstop⟩
  case set | add | label | halt | failKey => exact absurd h.symm (ho _)

/-- A step that stops is the script's next statement or a bus turn. -/
theorem step_stops {s : State} {o : Host.Outcome State Fault Refusal} (h : step s = o) (ho : ∀ t, o ≠ .next t) :
    (nextTurn s = .script ∧ ∃ c, nextStmt s.host = some c ∧ runStmt c (popTurn s) = o) ∨
    ∃ a, nextTurn s = .bus a ∧ busTurn a (popTurn s) = o := by
  unfold step at h
  cases hn : nextTurn s with
  | engine =>
    obtain ⟨t, ht⟩ := engineTurn_next (popTurn s)
    rw [hn, runTurn, ht] at h
    exact absurd h.symm (ho t)
  | script =>
    rw [hn, runTurn, scriptTurn] at h
    split at h
    · next c hc => exact .inl ⟨rfl, c, hc, h⟩
    · exact absurd h.symm (ho _)
  | bus a =>
    rw [hn] at h
    exact .inr ⟨a, rfl, h⟩
  | reset =>
    rw [hn] at h
    exact absurd h.symm (ho _)

/-- Settles O13: what a bus turn and a statement can stop with; a command always answers. -/
theorem onlyAccessesOutsideTheSpecStopTheMachine : Obligations.OnlyAccessesOutsideTheSpecStopTheMachine := by
  refine ⟨fun s r h => ?_, fun s f h => ?_, fun i s => exec_next s i⟩
  · rcases step_stops h (fun _ => nofun) with ⟨hn, c, hc, hrun⟩ | ⟨a, hn, hbus⟩
    · rcases runStmt_stops hrun (fun _ => nofun) with ⟨w, off, hform, ho, hout⟩ | ⟨l, _, ho, _⟩
      · injection ho with ho
        refine ⟨_, ho, hout, .inr ⟨hn, w, off, rfl, ?_⟩⟩
        rcases hform with ⟨val, rfl⟩ | ⟨x, rfl⟩
        exacts [.inl ⟨val, hc⟩, .inr ⟨x, hc⟩]
      · cases ho
    · obtain ⟨ho, hout⟩ := busTurn_stops hbus fun _ => nofun
      injection ho with ho
      exact ⟨a.addr, ho, hout, .inl ⟨a.width, a.op, hn⟩⟩
  · rcases step_stops h (fun _ => nofun) with ⟨hn, c, hc, hrun⟩ | ⟨a, _, hbus⟩
    · rcases runStmt_stops hrun (fun _ => nofun) with ⟨_, _, _, ho, _⟩ | ⟨l, ⟨x, val, htaken⟩, ho, hundef⟩
      · cases ho
      · injection ho with ho
        refine ⟨hn, l, x, val, ho, hundef, ?_⟩
        rcases htaken with ⟨rfl, hx⟩ | ⟨rfl, hx⟩ | ⟨rfl, hx⟩
        exacts [.inl ⟨hc, hx⟩, .inr (.inl ⟨hc, hx⟩), .inr (.inr ⟨hc, hx⟩)]
    · obtain ⟨ho, _⟩ := busTurn_stops hbus fun _ => nofun
      cases ho

end Sys2Proof.Machine
end

section
/-! PROOFS. The family of 30_encoding.md. First the command words (30_encoding.md R90 to R96): decoding and encoding,
and what the engine does with an illegal word. -/

namespace Sys2Proof.Machine

/-! Words (30_encoding.md R90, R91). -/

/-- The facts about each command's encoding, of all ten. -/
theorem encoding_statement (i : Instr) : Laws.Encoding.Statement i := by
  cases i
  exacts [Laws.Encoding.chachaQr, Laws.Encoding.chachaInit, Laws.Encoding.chachaBlock, Laws.Encoding.chachaXor,
    Laws.Encoding.magmaT, Laws.Encoding.magmaG, Laws.Encoding.magmaEncBlock, Laws.Encoding.magmaDecBlock,
    Laws.Encoding.magmaEnc, Laws.Encoding.magmaDec]

theorem decode_encode (i : Instr) : decode (encode i) = .ok i := by
  obtain ⟨_, _, hdecode, _⟩ := encoding_statement i
  exact hdecode

theorem decode_eq_ok_iff {w : Word} {i : Instr} : decode w = .ok i ↔ w = encode i :=
  ⟨encode_of_decode, fun h => h ▸ decode_encode i⟩

/-- The rows of the opcode map are the commands beside their words. -/
theorem mem_opcodeMap_iff {w : Word} {i : Instr} :
    (w, i) ∈ Instr.all.map (fun j => (encode j, j)) ↔ w = encode i := by
  have hall : i ∈ Instr.all := by cases i <;> decide
  constructor
  · intro h
    obtain ⟨j, _, hj⟩ := List.mem_map.1 h
    obtain ⟨rfl, rfl⟩ := Prod.mk.inj hj
    rfl
  · rintro rfl
    exact List.mem_map_of_mem hall

/-! Bytes (20_memory.md R64, 30_encoding.md R96). -/

/-- The decoder forms a word from four bytes as R11 does. -/
theorem wordOfBytes_eq_le32 (b0 b1 b2 b3 : Byte) : wordOfBytes b0 b1 b2 b3 = le32 b0 b1 b2 b3 := by
  apply BitVec.eq_of_getLsbD_eq
  intro j hj
  rw [le32_getLsbD]
  simp only [wordOfBytes, BitVec.getLsbD_append]
  grind

/-- A command is one word long: four bytes decode as their word does, and the rest is left over. -/
theorem decodeBytes_word {b0 b1 b2 b3 : Byte} {bs rest : List Byte} {i : Instr} :
    decodeBytes (b0 :: b1 :: b2 :: b3 :: bs) = .ok (i, rest) ↔ decode (le32 b0 b1 b2 b3) = .ok i ∧ bs = rest := by
  rw [decodeBytes, wordOfBytes_eq_le32]
  cases decode (le32 b0 b1 b2 b3) <;> simp

theorem decodeBytes_encodeBytes (i : Instr) (rest : List Byte) :
    decodeBytes (encodeBytes i ++ rest) = .ok (i, rest) := by
  obtain ⟨_, _, _, hbytes⟩ := encoding_statement i
  exact hbytes rest

/-- A command's bytes are its word's. -/
theorem bytesLe_encode (i : Instr) : bytesLe (encode i) = encodeBytes i := by cases i <;> rfl

/-- Bytes that decode to a command begin with that command's bytes. -/
theorem encodeBytes_of_decodeBytes {bs rest : List Byte} {i : Instr} (h : decodeBytes bs = .ok (i, rest)) :
    bs = encodeBytes i ++ rest := by
  match bs with
  | b0 :: b1 :: b2 :: b3 :: bs =>
    obtain ⟨hd, rfl⟩ := decodeBytes_word.1 h
    rw [← bytesLe_encode, ← encode_of_decode hd, bytesLe_le32]
    rfl
  | [] | [_] | [_, _] | [_, _, _] => cases h

/-- Settles O5: a command's bytes decode to it, and nothing else does, since a word is its four bytes. -/
theorem encodeAndDecodeAgreeOverAllBytes : Obligations.EncodeAndDecodeAgreeOverAllBytes :=
  ⟨decodeBytes_encodeBytes, fun _ _ _ => encodeBytes_of_decodeBytes, fun _ _ => decode_eq_ok_iff⟩

/-- Settles O4: the map's rows are the commands beside their words, and a command is one word long. -/
theorem decodingFollowsTheOpcodeMap : Obligations.DecodingFollowsTheOpcodeMap :=
  ⟨fun _ _ => decode_eq_ok_iff.trans mem_opcodeMap_iff.symm,
    fun _ _ _ _ _ _ => decodeBytes_word.trans (and_iff_left rfl)⟩

/-- Settles O6: the legal words are their commands' encodings, the illegal ones are judged field by field. -/
theorem sampleCommandWordsDecode : Obligations.SampleCommandWordsDecode :=
  ⟨decode_encode .chachaQr, decode_encode .chachaXor, decode_encode .magmaDec, rfl, rfl⟩

/-! Illegal words (30_encoding.md R93, R94). -/

/-- A word decodes exactly if R93 allows it. -/
theorem decode_ok_iff (w : Word) : (∃ i, decode w = .ok i) ↔
    w.toNat / 2 ^ 8 = 0 ∧ 0x01 ≤ w.toNat % 2 ^ 8 ∧ w.toNat % 2 ^ 8 ≤ 0x0A := by
  constructor
  · rintro ⟨i, h⟩
    obtain ⟨_, hlegal, _⟩ := encoding_statement i
    simpa [wordLegal, encode_of_decode h] using hlegal
  · rintro ⟨hrsv, hlo, hhi⟩
    have hop : ∀ n ∈ List.range' 1 10, ∃ i ∈ Instr.all, encode i = BitVec.ofNat 32 n := by decide
    obtain ⟨i, _, hi⟩ := hop w.toNat (List.mem_range'_1.2 (by omega))
    rw [BitVec.ofNat_toNat, BitVec.setWidth_eq] at hi
    exact ⟨i, hi ▸ decode_encode i⟩

/-- With RSV = 0 a word that R93 does not allow is one with an unknown opcode. -/
theorem decode_eq_unknownOpcode {w : Word} (hrsv : w.toNat / 2 ^ 8 = 0)
    (hop : ¬ (0x01 ≤ w.toNat % 2 ^ 8 ∧ w.toNat % 2 ^ 8 ≤ 0x0A)) : decode w = .error .unknownOpcode := by
  have hzero : rsvField w = 0 := BitVec.eq_of_toNat_eq (by
    rw [rsvField, BitVec.extractLsb'_toNat, Nat.shiftRight_eq_div_pow, hrsv]
    rfl)
  cases hd : decode w with
  | ok i => exact absurd ((decode_ok_iff w).1 ⟨i, hd⟩).2 hop
  | error e =>
    rw [decode, if_neg (not_not.2 hzero)] at hd
    split at hd <;> cases hd
    rfl

/-- The unknown opcodes are 0x00 and the 245 from 0x0B up (30_encoding.md R94). -/
theorem unknownOpcodes_length : ((List.range 256).filter
    (fun op => decode (BitVec.ofNat 32 op) == .error .unknownOpcode)).length = 246 := by
  have hhigh : ∀ op ∈ (List.range 245).map (11 + ·),
      (decode (BitVec.ofNat 32 op) == .error .unknownOpcode) = true := by
    intro op hop
    obtain ⟨k, hk, rfl⟩ := List.mem_map.1 hop
    have hk := List.mem_range.1 hk
    refine beq_iff_eq.2 (decode_eq_unknownOpcode ?_ ?_) <;> rw [BitVec.toNat_ofNat] <;> omega
  rw [show 256 = 11 + 245 from rfl, List.range_add, List.filter_append, List.length_append,
    List.filter_eq_self.2 hhigh, List.length_map, List.length_range]
  decide

/-- Settles O7: an illegal word is accepted as any other, and its completion reports the error alone. -/
theorem illegalWordsAreAcceptedAndReportCode4 : Obligations.IllegalWordsAreAcceptedAndReportCode4 := by
  refine ⟨decode_ok_iff, unknownOpcodes_length, fun s w e _ hs => ?_, fun s e hd hb hn => ?_, rfl⟩
  · exact engineAccess_writeReg (r := .cmd) rfl w (.inl hs)
  · rw [step_engine_turn_busy hn hb]
    exact completion_illegal (popTurn s) hd

end Sys2Proof.Machine
end

section
/-! PROOFS. The family of 30_encoding.md, continued: the host's scripts (30_encoding.md R97 to R100). -/

namespace Sys2Proof.Machine

/-! Two states with the same engine. -/

/-- Neither the turns nor the host are the engine's. -/
theorem SameEngine.popTurn_setHost (s : State) (h : HostState) : SameEngine s ((popTurn s).setHost h) :=
  ⟨rfl, rfl, rfl, rfl, rfl, rfl, rfl, rfl, rfl, rfl, rfl, rfl, rfl, rfl⟩

theorem SameEngine.setHost (s : State) (h : HostState) : SameEngine s (s.setHost h) :=
  ⟨rfl, rfl, rfl, rfl, rfl, rfl, rfl, rfl, rfl, rfl, rfl, rfl, rfl, rfl⟩

/-! The script's turn. -/

/-- A script's turn runs its next statement. -/
theorem step_script {s : State} {c : Stmt} (hn : nextTurn s = .script) (hc : nextStmt s.host = some c) :
    step s = runStmt c (popTurn s) := by
  rw [step, hn, runTurn, scriptTurn, popTurn_host, hc]

/-- Only a script that has not stopped has a next statement. -/
theorem stop_of_nextStmt {h : HostState} {c : Stmt} (hc : nextStmt h = some c) : h.stop = none := by
  unfold nextStmt at hc
  split at hc
  · cases hc
  · assumption

/-! The answer to an access of the script. -/

@[simp] theorem takeReply_script (d : Option Var) (r : Reply) (h : HostState) :
    (takeReply d r h).script = h.script := by
  cases r <;> cases d <;> rfl

/-- An answer that is to go to no variable leaves them all. -/
@[simp] theorem takeReply_none_vars (r : Reply) (h : HostState) : (takeReply none r h).vars = h.vars := by
  cases r <;> rfl

/-- An answer leaves every variable but the one it goes to. -/
theorem getVar_takeReply_of_ne {x y : Var} (hy : y ≠ x) (r : Reply) (h : HostState) :
    getVar (takeReply (some x) r h) y = getVar h y := by
  cases r
  case data v => exact (getVar_putVar h x v y).trans (if_neg hy)
  case written | busError => rfl

/-- The host with an access of the script at the head of its record (30_encoding.md R100; log 11). -/
def HostState.recordScript (h : HostState) (a : Access) (r : Reply) : HostState :=
  { h with trace := ⟨.script, a, r⟩ :: h.trace }

/-- The script's access at the head of the record goes to the end of the encoding. -/
theorem scriptEncoding_of_trace {s t : State} {a : Access} {r : Reply}
    (h : t.host.trace = ⟨.script, a, r⟩ :: s.host.trace) :
    scriptEncoding t = scriptEncoding s ++ [BusRecord.tuple ⟨.script, a, r⟩] :=
  (scriptEncoding_congr (s := recordAccess .script a r s) h).trans (scriptEncoding_record_script s a r)

theorem tuple_write (o : Word) (w : Width) (v : Word) (r : Reply) :
    BusRecord.tuple ⟨.script, scriptAccess w o (.write v), r⟩ = (true, o.toNat, w.bytes, some v) := by
  simp [BusRecord.tuple, scriptAccess, AccessOp.isWrite]

theorem tuple_read_data (o : Word) (w : Width) (v : Word) :
    BusRecord.tuple ⟨.script, scriptAccess w o .read, .data v⟩ = (false, o.toNat, w.bytes, some v) := by
  simp [BusRecord.tuple, scriptAccess, AccessOp.isWrite]

theorem tuple_read_busError (o : Word) (w : Width) :
    BusRecord.tuple ⟨.script, scriptAccess w o .read, .busError⟩ = (false, o.toNat, w.bytes, none) := by
  simp [BusRecord.tuple, scriptAccess, AccessOp.isWrite]

/-- A BusError leaves the engine as it is (60_exceptions.md R210). -/
theorem engineAccess_busError {off : Nat} {w : Width} {op : AccessOp} {s u : State}
    (h : engineAccess off w op s = (.busError, u)) : u = s := by
  unfold engineAccess at h
  split at h
  · exact (Prod.mk.inj h).2.symm
  · cases op <;> cases (Prod.mk.inj h).1

/-- What a script's turn does when its statement is an access inside the window: the engine is as the access leaves it,
and the host takes the recorded answer. -/
theorem step_scriptAccess {s u : State} {c : Stmt} {w : Width} {o : Word} {op : AccessOp} {d : Option Var} {a : Reply}
    (hn : nextTurn s = .script) (hc : nextStmt s.host = some c)
    (ho : o.toNat < windowBytes) (ha : engineAccess o.toNat w op (popTurn s) = (a, u))
    (hrun : runStmt c (popTurn s) = accessStmt (scriptAccess w o op) d (popTurn s)) :
    u.turns = s.turns.tail ∧
      step s = .next (u.setHost (takeReply d a (s.host.recordScript (scriptAccess w o op) a))) := by
  obtain ⟨hturns, hhost, _⟩ := engineAccess_frame o.toNat w op (popTurn s)
  rw [ha] at hturns hhost
  replace hhost : u.host = s.host := hhost
  refine ⟨hturns, ?_⟩
  rw [step_script hn hc, hrun, accessStmt_inside _ ho, ha]
  simp only [recordAccess, hhost]
  rfl

/-- A written value carries its low bytes (30_encoding.md R97). -/
theorem truncateTo_eq (w : Width) (v : Word) : truncateTo w v = BitVec.ofNat 32 (v.toNat % 256 ^ w.bytes) := by
  have := v.isLt
  apply BitVec.eq_of_toNat_eq
  cases w <;> simp only [truncateTo, Width.bytes, BitVec.toNat_setWidth, BitVec.toNat_ofNat] <;> omega

/-- Settles O55: an access of the script is a bus access, whose answer the host records and takes. -/
theorem scriptAccessesFollowTheBus : Obligations.ScriptAccessesFollowTheBus := by
  refine ⟨fun h o v x => ⟨rfl, rfl, rfl, rfl⟩, ⟨rfl, rfl, rfl⟩, fun _ _ => rfl, fun s t a hn h => ?_,
    fun s w off e a u hn he hwin => ⟨fun val v hc hv ha => ?_, fun x hc ha => ?_⟩⟩
  · rw [step_bus hn] at h
    obtain ⟨r, u, hb, rfl⟩ := busTurn_cases _ h
    rw [scriptEncoding_record_other, scriptEncoding_congr (s := s) (by rw [busAccess_host hb]; rfl)]
  · subst he
    rw [← truncateTo_eq] at hv
    subst hv
    obtain ⟨hturns, hstep⟩ := step_scriptAccess hn hc hwin ha rfl
    have hstop := stop_of_nextStmt hc
    refine ⟨_, hstep, .setHost _ _, hturns, takeReply_script _ _ _, takeReply_trace _ _ _, ?_, takeReply_none_vars _ _,
      ?_, ?_⟩
    · rw [scriptEncoding_of_trace (takeReply_trace _ _ _), tuple_write]
    · rintro rfl
      exact ⟨rfl, hstop⟩
    · rintro rfl
      obtain rfl := engineAccess_busError ha
      exact ⟨.popTurn_setHost _ _, rfl⟩
  · subst he
    obtain ⟨hturns, hstep⟩ := step_scriptAccess hn hc hwin ha rfl
    have hstop := stop_of_nextStmt hc
    refine ⟨_, hstep, .setHost _ _, hturns, takeReply_script _ _ _, takeReply_trace _ _ _, ?_, ?_,
      fun y hy => getVar_takeReply_of_ne hy _ _, ?_, ?_⟩
    · rintro v rfl
      rw [scriptEncoding_of_trace (takeReply_trace _ _ _), tuple_read_data]
    · rintro rfl
      rw [scriptEncoding_of_trace (takeReply_trace _ _ _), tuple_read_busError]
    · rintro v rfl
      exact ⟨(getVar_putVar _ x v x).trans (if_pos rfl), rfl, hstop⟩
    · rintro rfl
      obtain rfl := engineAccess_busError ha
      exact ⟨.popTurn_setHost _ _, rfl, rfl⟩

/-! The other statements. -/

/-- What a script's turn does when its statement gives a variable a value. -/
theorem step_scriptSetVar {s : State} {x : Var} {v : Word}
    (h : step s = .next ((popTurn s).setHost (advance (putVar s.host x v)))) :
    ∃ t, step s = .next t ∧ SameEngine s t ∧ getVar t.host x = v ∧ (∀ y, y ≠ x → getVar t.host y = getVar s.host y) ∧
      t.turns = s.turns.tail ∧ t.host = { s.host with vars := t.host.vars, pos := s.host.pos + 1 } :=
  ⟨_, h, .popTurn_setHost _ _, (getVar_putVar _ x v x).trans (if_pos rfl),
    fun y hy => (getVar_putVar _ x v y).trans (if_neg hy), rfl, rfl⟩

theorem branch_not_taken (l : Label) (s : State) : branch false l s = .next (s.setHost (advance s.host)) := rfl

/-- A taken branch goes to the first definition of its label (log 8). -/
theorem branch_taken {l : Label} {s : State} {i : Nat} (hi : s.host.script[i]? = some (.label l))
    (hfirst : ∀ j < i, s.host.script[j]? ≠ some (.label l)) :
    branch true l s = .next (s.setHost { s.host with pos := i }) := by
  rw [branch, if_pos rfl, labelIndex_of_first hi hfirst]

/-- The three branches differ in their condition alone. -/
theorem runStmt_branch {c : Stmt} {x : Var} {val : Val} {l : Label} {taken : Prop} {s : State}
    (h : (c = .bnz x val l ∧ (taken ↔ getVar s.host x &&& evalVal s.host val ≠ 0)) ∨
      (c = .bz x val l ∧ (taken ↔ getVar s.host x &&& evalVal s.host val = 0)) ∨
      (c = .bne x val l ∧ (taken ↔ getVar s.host x ≠ evalVal s.host val))) :
    ∃ b : Bool, (b = true ↔ taken) ∧ runStmt c s = branch b l s := by
  rcases h with ⟨rfl, ht⟩ | ⟨rfl, ht⟩ | ⟨rfl, ht⟩
  exacts [⟨_, bne_iff_ne.trans ht.symm, rfl⟩, ⟨_, beq_iff_eq.trans ht.symm, rfl⟩, ⟨_, bne_iff_ne.trans ht.symm, rfl⟩]

/-- Settles O56, statement by statement. -/
theorem scriptControlStatements : Obligations.ScriptControlStatements := by
  refine ⟨fun s p => ⟨.setHost _ _, rfl, rfl, fun _ => rfl⟩, fun s hn => ⟨fun x val hc => ?_, fun x val hc => ?_,
    fun l hc => ?_, fun c x val l taken hc hform => ?_, fun hc => ?_⟩⟩
  · exact step_scriptSetVar (step_script hn hc)
  · exact step_scriptSetVar (step_script hn hc)
  · exact step_script hn hc
  · obtain ⟨b, hb, hrun⟩ := runStmt_branch (s := popTurn s) hform
    rw [step_script hn hc, hrun]
    refine ⟨fun hnot => ?_, fun i htaken hi hfirst => ?_⟩
    · rw [Bool.eq_false_of_not_eq_true (mt hb.1 hnot)]
      exact branch_not_taken l (popTurn s)
    · rw [hb.2 htaken]
      exact branch_taken (s := popTurn s) hi hfirst
  · exact step_script hn hc

/-! Lines (30_encoding.md R98, R99). -/

/-- The opcode map's names are different, so each names its own command. -/
theorem instrOfMnemonic_mnemonic (i : Instr) : instrOfMnemonic i.mnemonic = some i := by cases i <;> rfl

/-- A name that the opcode map does not list names no command. -/
theorem instrOfMnemonic_eq_none {m : String} (h : ∀ i : Instr, i.mnemonic ≠ m) : instrOfMnemonic m = none :=
  List.find?_eq_none.2 fun i _ hi => h i (beq_iff_eq.1 hi)

/-- Each pair of digits gives one byte (42_host_interface.md R181). -/
theorem parseHex_length : ∀ hex : List Char, (parseHex hex).length = hex.length / 2
  | [] | [_] => by simp [parseHex]
  | c :: d :: rest => by
    simp only [parseHex, List.length_cons, parseHex_length rest]
    omega

/-- A list mapped with its indexes, index by index. -/
theorem mapIdx_eq_map_range {α β : Type} (f : Nat → α → β) (l : List α) (a : α) :
    l.mapIdx f = (List.range l.length).map (fun j => f j (l.getD j a)) := by
  refine List.ext_getElem (by simp) fun j hj _ => ?_
  rw [List.length_mapIdx] at hj
  simp [hj]

/-- A string of whole bytes that validates is a hex string of `wrbuf` (30_encoding.md R99; log 24). -/
theorem hexStringOk_of_validateKey {hex : List Char} (h : validateKey hex (2 * (hex.length / 2)) = true) :
    hexStringOk hex = true := by
  simp only [validateKey, hexStringOk, Bool.and_eq_true, beq_iff_eq] at h ⊢
  obtain ⟨hlen, hdigits⟩ := h
  exact ⟨by omega, hdigits⟩

/-- `wrbuf` writes the string's bytes one by one (30_encoding.md R99). -/
theorem expandLine_wrbuf {hex : List Char} (h : validateKey hex (2 * (hex.length / 2)) = true) (n : Nat) (off : Off) :
    expandLine n (.wrbuf off hex) = some ((List.range (hex.length / 2)).map (fun j =>
      .wr .w8 (off.shift j) (.lit (((parseHex hex).getD j 0).setWidth 32)))) := by
  rw [expandLine, if_pos (hexStringOk_of_validateKey h), mapIdx_eq_map_range _ _ 0, parseHex_length]

/-- Settles O57, line by line. -/
theorem scriptLinesExpandAsListed : Obligations.ScriptLinesExpandAsListed := by
  refine ⟨fun n i => ?_, fun n m h => ?_, fun n => ⟨rfl, rfl, rfl, rfl, rfl, rfl⟩, fun n k o x b => ⟨rfl, rfl⟩,
    fun n k => ⟨rfl, rfl⟩, fun n o x hex h => ⟨expandLine_wrbuf h n (.lit o), expandLine_wrbuf h n (.plus o x)⟩⟩
  · rw [expandLine, instrOfMnemonic_mnemonic]
    rfl
  · rw [expandLine, instrOfMnemonic_eq_none h]
    rfl

end Sys2Proof.Machine
end

section
/-! PROOFS. The family of 40_chacha20.md: the block function and its commands (40_chacha20.md R113 to R121), and the
stream transform and CHACHA_XOR (40_chacha20.md R116 to R118, R122). -/

namespace Sys2Proof.Machine

/-! The quarter round (40_chacha20.md R113, R114). -/

/-- `rotl32` of 00_scope.md R10 is the rotation, for the shift counts R10 allows. -/
theorem rotl32_eq_rotateLeft (x : Word) {n : Nat} (h : n < 32) : rotl32 x n = x.rotateLeft n := by
  rw [rotl32, BitVec.rotateLeft_def, Nat.mod_eq_of_lt h]

/-- R113's four lines, each reading what the one before it wrote. -/
theorem qr_eq_rotateLeft (a b c d : Word) :
    let a1 := a + b; let d1 := (d ^^^ a1).rotateLeft 16
    let c1 := c + d1; let b1 := (b ^^^ c1).rotateLeft 12
    let a2 := a1 + b1; let d2 := (d1 ^^^ a2).rotateLeft 8
    let c2 := c1 + d2; let b2 := (b1 ^^^ c2).rotateLeft 7
    qr a b c d = (a2, b2, c2, d2) := by
  simp only [qr, rotl32_eq_rotateLeft _ (show 16 < 32 by decide), rotl32_eq_rotateLeft _ (show 12 < 32 by decide),
    rotl32_eq_rotateLeft _ (show 8 < 32 by decide), rotl32_eq_rotateLeft _ (show 7 < 32 by decide)]

/-- A word of the working state after a quarter round on four places: the last place that names it decides. -/
theorem applyQr_getElem (x : Vector Word 16) (i j k l m : Fin 16) :
    (applyQr x (i, j, k, l))[m] =
      if m = l then (qr x[i] x[j] x[k] x[l]).2.2.2
      else if m = k then (qr x[i] x[j] x[k] x[l]).2.2.1
      else if m = j then (qr x[i] x[j] x[k] x[l]).2.1
      else if m = i then (qr x[i] x[j] x[k] x[l]).1
      else x[m] := by
  simp only [applyQr, Fin.getElem_fin, Vector.getElem_set, Fin.val_inj, eq_comm (b := m)]

/-- On four different places a quarter round puts its four words, and it leaves the other places. -/
theorem applyQr_of_qr {x : Vector Word 16} {i j k l : Fin 16} (hn : [i, j, k, l].Nodup) {a b c d : Word}
    (hq : qr x[i] x[j] x[k] x[l] = (a, b, c, d)) :
    (applyQr x (i, j, k, l))[i] = a ∧ (applyQr x (i, j, k, l))[j] = b ∧ (applyQr x (i, j, k, l))[k] = c ∧
      (applyQr x (i, j, k, l))[l] = d ∧ ∀ m : Fin 16, m ∉ [i, j, k, l] → (applyQr x (i, j, k, l))[m] = x[m] := by
  simp only [List.nodup_cons, List.mem_cons, List.not_mem_nil, or_false, not_or] at hn ⊢
  obtain ⟨⟨hij, hik, hil⟩, ⟨hjk, hjl⟩, hkl, -⟩ := hn
  refine ⟨?_, ?_, ?_, ?_, fun m ⟨hi, hj, hk, hl⟩ => ?_⟩
  · rw [applyQr_getElem, if_neg hil, if_neg hik, if_neg hij, if_pos rfl, hq]
  · rw [applyQr_getElem, if_neg hjl, if_neg hjk, if_pos rfl, hq]
  · rw [applyQr_getElem, if_neg hkl, if_pos rfl, hq]
  · rw [applyQr_getElem, if_pos rfl, hq]
  · rw [applyQr_getElem, if_neg hl, if_neg hk, if_neg hj, if_neg hi]

/-- CHACHA_QR puts the quarter round's four words in SCR0 to SCR3 (40_chacha20.md R119). -/
theorem exec_chachaQr_of_qr {s : State} {a b c d : Word}
    (hq : qr s.scr[0] s.scr[1] s.scr[2] s.scr[3] = (a, b, c, d)) :
    exec .chachaQr s =
      .next { s with scr := #v[a, b, c, d], status := ⟨false, true, false, .none⟩, doneIp := true } := by
  simp only [exec_chachaQr, performChachaQr, hq]
  rfl

/-- Settles O14: CHACHA_QR's own writes are the quarter round of R113 on SCR0 to SCR3. -/
theorem chachaQrRunsTheQuarterRoundOnScr : Obligations.ChachaQrRunsTheQuarterRoundOnScr :=
  ⟨rfl, fun s => exec_chachaQr_of_qr (qr_eq_rotateLeft s.scr[0] s.scr[1] s.scr[2] s.scr[3]), by decide, by decide,
    by decide⟩

/-- Settles O15: CHACHA_INIT's own write is the state of R112. -/
theorem chachaInitBuildsTheStateInW : Obligations.ChachaInitBuildsTheStateInW :=
  ⟨rfl, exec_chachaInit⟩

/-! The block function (40_chacha20.md R115). -/

theorem chachaIterations_eq_iterate (n : Nat) (x : Vector Word 16) :
    chachaIterations n x = chachaIteration^[n] x := by
  induction n generalizing x with
  | zero => rfl
  | succ n ih => rw [chachaIterations, ih, Function.iterate_succ_apply]

/-- R115: ten iterations, then the original state added word by word. -/
theorem chachaBlock_eq_ofFn (x : Vector Word 16) :
    chachaBlock x = Vector.ofFn (fun i : Fin 16 => (chachaIteration^[10] x)[i] + x[i]) := by
  ext i hi
  rw [chachaBlock, chachaIterations_eq_iterate, Vector.getElem_zipWith, Vector.getElem_ofFn]
  rfl

/-- A successful completion after a write to W alone (60_exceptions.md R206). -/
theorem completeOk_setW (s : State) (v : Vector Word 16) :
    completeOk (s.setW v) = { s with w := v, status := ⟨false, true, false, .none⟩, doneIp := true } := rfl

/-- CHACHA_BLOCK leaves W at the keystream block of KEY, CTR and NONCE (40_chacha20.md R121). -/
theorem exec_chachaBlock_w {s t : State} (h : exec .chachaBlock s = .next t) :
    t.w = chachaBlock (chachaInit s.key s.ctr s.nonce) := by
  rw [exec_chachaBlock] at h
  injection h with h
  rw [← h, completeOk_w, performChachaBlock_w]

/-- Settles O16: a quarter round's places, the order of the eight groups, and the block function's one write to W. -/
theorem chachaBlockWritesTheKeystreamBlock : Obligations.ChachaBlockWritesTheKeystreamBlock := by
  refine ⟨rfl, fun x i j k l hn => applyQr_of_qr hn (qr_eq_rotateLeft x[i] x[j] x[k] x[l]), fun x => ?_, fun s => ?_,
    fun s t u hst htu => ?_⟩
  · exact (List.foldl_append (f := applyQr) (l := columnGroups) (l' := diagonalGroups)).symm
  · rw [exec_chachaBlock, performChachaBlock, chachaBlock_eq_ofFn, completeOk_setW]
  · obtain ⟨-, -, -, hctr, hkey, hnonce, -, -⟩ := exec_frame hst
    obtain ⟨-, -, -, hctr', -⟩ := exec_frame htu
    rw [exec_chachaBlock_w htu, exec_chachaBlock_w hst, hkey, hctr, hnonce, hctr', hctr]
    exact ⟨rfl, rfl⟩

/-! The stream transform (40_chacha20.md R116 to R118). -/

/-- The keystream's byte at a place: byte `j % 64` of the block whose counter is `j / 64` (40_chacha20.md R117). -/
def streamByte (k : Vector Word 8) (n : Vector Word 3) (j : Nat) : Byte :=
  ksByte (chachaBlock (chachaInit k (BitVec.ofNat 32 (j / 64)) n)) (j % 64)

theorem keystream_getElem?_eq_streamByte (k : Vector Word 8) (n : Vector Word 3) {b j : Nat} (h : j < 64 * b) :
    (keystream k n b)[j]? = some (streamByte k n j) := by
  rw [streamByte, ← keystream_getElem? k n (b := b) (by omega) (Nat.mod_lt j (by decide)), Nat.div_add_mod]

/-- Each data byte with the keystream byte at its place (40_chacha20.md R117). -/
theorem chachaXor_getElem? (k : Vector Word 8) (n : Vector Word 3) (d : List Byte) (j : Nat) :
    (chachaXor k n d)[j]? = d[j]?.map (· ^^^ streamByte k n j) := by
  by_cases hj : j < d.length
  · rw [chachaXor, List.getElem?_zipWith, keystream_getElem?_eq_streamByte k n (by omega),
      List.getElem?_eq_getElem hj]
    rfl
  · rw [List.getElem?_eq_none (by simpa using hj), List.getElem?_eq_none (by simpa using hj)]
    rfl

/-- A second xor with the same byte undoes the first (40_chacha20.md R118). -/
theorem byte_xor_xor_cancel_right (b c : Byte) : b ^^^ c ^^^ c = b := by
  rw [BitVec.xor_assoc, BitVec.xor_self, BitVec.xor_zero]

/-- Settles O18: a byte xored twice with the keystream byte at its place is the byte (40_chacha20.md R118). -/
theorem streamTransformIsItsOwnInverse : Obligations.StreamTransformIsItsOwnInverse := by
  refine fun k n d => ⟨List.ext_getElem? fun j => ?_, chachaXor_length k n d⟩
  rw [chachaXor_getElem?, chachaXor_getElem?, Option.map_map]
  cases d[j]? with
  | none => rfl
  | some b => exact congrArg some (byte_xor_xor_cancel_right b (streamByte k n j))

/-- Settles O21: block `i` of the stream is the keystream block of counter `i` (42_host_interface.md R191). -/
theorem chachaBlocksSplitTheStream : Obligations.ChachaBlocksSplitTheStream := by
  intro s t i j d _ hj _ hctr h
  have hdiv : (64 * i + j) / 64 = i := by omega
  have hmod : (64 * i + j) % 64 = j := by omega
  rw [chachaXor_getElem?, exec_chachaBlock_w h, hctr, streamByte, hdiv, hmod]

/-! CHACHA_XOR (40_chacha20.md R122). -/

/-- CHACHA_XOR with LEN in range puts in OUT each IN byte xored with the keystream byte at its place. -/
theorem exec_chachaXor_peek_out {s t : State} (hlen : s.len.toNat ≤ Config.bufBytes)
    (h : exec .chachaXor s = .next t) {j : Nat} (hj : j < s.len.toNat) :
    peek t.mem (outBase + j) = some (inByte s j ^^^ streamByte s.key s.nonce j) := by
  rw [exec_chachaXor s hlen] at h
  injection h with h
  rw [← h, completeOk_mem, performChachaXor_mem, peek_pokes_inside (by simpa using hj), chachaXor_getElem?,
    readIn_getElem? s hj]
  rfl

/-- Settles O17: with LEN in range the bytes of OUT and the frame, with LEN above it the error alone. -/
theorem chachaXorWritesInXorKeystream : Obligations.ChachaXorWritesInXorKeystream := by
  refine ⟨rfl, fun s hlen => ⟨_, exec_chachaXor s hlen, rfl, fun j hj => ?_, ?_⟩, fun s hlen => ?_⟩
  · have hmod : j % 64 % 4 = j % 4 := Nat.mod_mod_of_dvd j (by decide)
    have hout := exec_chachaXor_peek_out hlen (exec_chachaXor s hlen) hj
    rwa [streamByte, ksByte, hmod] at hout
  · exact exec_sameBytesOutside (exec_chachaXor s hlen) fun _ _ => by simp [outputBytes]
  · have hc : check .chachaXor s = .lengthOutOfRange := check_long s rfl hlen
    rw [exec, execChachaXor, complete_of_error s _ (by simp [hc]), hc]
    rfl

/-- Settles O19: the second run xors each byte once more with the keystream byte of the first, the places of the
keystream being those of OUT. -/
theorem chachaXorTwiceRestoresTheInput : Obligations.ChachaXorTwiceRestoresTheInput := by
  intro s t u hlen hst hkey hnonce hul hin
  have hu : u.len.toNat ≤ Config.bufBytes := hul ▸ hlen
  refine ⟨_, exec_chachaXor u hu, hul, fun j hj => ?_⟩
  have hset : inByte u j = inByte s j ^^^ streamByte s.key s.nonce j :=
    readByte_of_set ((hin j hj).trans (exec_chachaXor_peek_out hlen hst hj)) _
  have hout := exec_chachaXor_peek_out hu (exec_chachaXor u hu) (hul ▸ hj)
  rwa [hset, hkey, hnonce, byte_xor_xor_cancel_right] at hout

end Sys2Proof.Machine
end

section
/-! PROOFS. The family of 41_magma.md: the transforms and the block function (41_magma.md R141 to R148), and the
commands MAGMA_T, MAGMA_G, MAGMA_ENC_BLOCK and MAGMA_DEC_BLOCK (41_magma.md R154 to R157). -/

namespace Sys2Proof.Machine

/-! The S-box and the T-transform (41_magma.md R141, R142). -/

/-- Settles O22, by inspection of the eight rows. -/
theorem sboxRowsArePermutations : Obligations.SboxRowsArePermutations :=
  ⟨by decide, by decide⟩

theorem substitute_injective (i : Fin 8) : Function.Injective (substitute i) :=
  Finite.injective_iff_surjective.2 (sboxRowsArePermutations.2 i)

theorem nibble_toNat (x : Word) (i : Fin 8) : (nibble x i).toNat = x.toNat / 16 ^ i.val % 16 := by
  rw [show 16 = 2 ^ 4 from rfl, nibble, BitVec.extractLsb'_toNat, Nat.shiftRight_eq_div_pow, ← pow_mul]

theorem nibble_getLsbD (x : Word) (i : Fin 8) {b : Nat} (hb : b < 4) :
    (nibble x i).getLsbD b = x.getLsbD (4 * i.val + b) := by
  simp [nibble, hb]

/-- A word is its eight nibbles. -/
theorem eq_of_nibble_eq {x y : Word} (h : ∀ i, nibble x i = nibble y i) : x = y := by
  refine BitVec.eq_of_getLsbD_eq fun m hm => ?_
  have hb : m % 4 < 4 := Nat.mod_lt m (by decide)
  have hbit := congrArg (BitVec.getLsbD · (m % 4)) (h ⟨m / 4, by omega⟩)
  simpa only [nibble_getLsbD _ _ hb, Nat.div_add_mod] using hbit

/-- A bit of words or-ed together is set if it is set in one of them. -/
theorem foldl_or_getLsbD {α : Type} (f : α → Word) (l : List α) (x : Word) (b : Nat) :
    (l.foldl (fun acc i => acc ||| f i) x).getLsbD b = (x.getLsbD b || l.any fun i => (f i).getLsbD b) := by
  induction l generalizing x with
  | nil => simp
  | cons i l ih => rw [List.foldl_cons, ih, BitVec.getLsbD_or, List.any_cons, Bool.or_assoc]

/-- A nibble put in place `i` sets bits of place `i` alone. -/
theorem placedNibble_getLsbD (v : BitVec 4) (i j : Fin 8) {b : Nat} (hb : b < 4) :
    (v.setWidth 32 <<< (4 * i.val)).getLsbD (4 * j.val + b) = (decide (i = j) && v.getLsbD b) := by
  rw [BitVec.getLsbD_shiftLeft, BitVec.getLsbD_setWidth]
  rcases lt_trichotomy i j with h | rfl | h
  · rw [BitVec.getLsbD_of_ge v _ (by omega)]
    simp [h.ne]
  · simp [show 4 * i.val + b < 32 by omega, show b < 32 by omega]
  · simp [show 4 * j.val + b < 4 * i.val by omega, h.ne']

/-- The T-transform puts nibble `i` through row `i` (41_magma.md R142). -/
theorem nibble_magmaT (x : Word) (i : Fin 8) : nibble (magmaT x) i = substitute i (nibble x i) := by
  refine BitVec.eq_of_getLsbD_eq fun b hb => ?_
  rw [nibble_getLsbD _ _ hb, magmaT, foldl_or_getLsbD, Bool.eq_iff_iff]
  simp [placedNibble_getLsbD _ _ _ hb]

/-- Settles O24: words with one image agree nibble by nibble, the rows being injective. -/
theorem transformTIsABijection : Obligations.TransformTIsABijection := by
  refine Finite.injective_iff_bijective.1 fun x y h => eq_of_nibble_eq fun i => substitute_injective i ?_
  rw [← nibble_magmaT, ← nibble_magmaT, h]

/-! The primitive commands on SCR (41_magma.md R154, R155). -/

theorem scr_set_zero (x : Vector Word 4) (y : Word) : x.set 0 y = #v[y, x[1], x[2], x[3]] := by
  refine Vector.ext fun i hi => ?_
  rw [Vector.getElem_set]
  match i with
  | 0 | 1 | 2 | 3 => rfl

/-- A successful completion after a write to SCR0 alone (60_exceptions.md R206). -/
theorem completeOk_setScr_zero (s : State) (y : Word) :
    completeOk (s.setScr (s.scr.set 0 y)) = { s with
      scr := #v[y, s.scr[1], s.scr[2], s.scr[3]], status := ⟨false, true, false, .none⟩, doneIp := true } := by
  rw [scr_set_zero]
  rfl

/-- Settles O23: the word is the T-transform of SCR0. -/
theorem magmaTSubstitutesEveryNibble : Obligations.MagmaTSubstitutesEveryNibble := by
  refine ⟨rfl, fun s => ⟨magmaT s.scr[0], fun i v hv => ?_, ?_⟩⟩
  · have hrow : (nibble s.scr[0] i).toFin = v := Fin.ext ((nibble_toNat _ i).trans hv)
    rw [← nibble_toNat, nibble_magmaT, ← hrow]
    rfl
  · rw [exec_magmaT, performMagmaT, completeOk_setScr_zero]

/-- Settles O25: the G-transform of SCR0 and SCR1, its rotation by 11 as in 41_magma.md R143. -/
theorem magmaGRotatesTheTransformedSum : Obligations.MagmaGRotatesTheTransformedSum := by
  refine ⟨rfl, fun s => ?_⟩
  rw [exec_magmaG, performMagmaG, completeOk_setScr_zero, magmaG, rotl32_eq_rotateLeft _ (by decide)]

/-! The block function (41_magma.md R144 to R148). -/

/-- The decryption schedule is the encryption schedule reversed (41_magma.md R147). -/
theorem decIdx_eq_reverse : decIdx = encIdx.reverse := rfl

theorem feistel_append (k : Vector Word 8) (idx idx' : List (Fin 8)) (p : Word × Word) :
    feistel k (idx ++ idx') p = feistel k idx' (feistel k idx p) := List.foldl_append

/-- The rounds in reverse order on the swapped halves undo the rounds, up to the swap. -/
theorem feistel_reverse_swap (k : Vector Word 8) (idx : List (Fin 8)) (p : Word × Word) :
    feistel k idx.reverse (feistel k idx p).swap = p.swap := by
  induction idx generalizing p with
  | nil => rfl
  | cons i idx ih =>
    calc feistel k (i :: idx).reverse (feistel k (i :: idx) p).swap
      _ = feistelRound (feistel k idx.reverse (feistel k idx (feistelRound p k[i])).swap) k[i] := by
        rw [List.reverse_cons, feistel_append]
        rfl
      _ = feistelRound (feistelRound p k[i]).swap k[i] := by rw [ih]
      _ = p.swap := feistelRound_swap p k[i]

/-- The eight bytes of a block are two packed words (41_magma.md R144). -/
theorem exists_words {b : List Byte} (h : b.length = 8) : ∃ l r, b = bytesLe l ++ bytesLe r := by
  obtain ⟨b0, b1, b2, b3, b4, b5, b6, b7, rest, rfl⟩ := exists_block h.ge
  obtain rfl : rest = [] := List.length_eq_zero_iff.1 (by simpa using h)
  exact ⟨le32 b0 b1 b2 b3, le32 b4 b5 b6 b7, by rw [bytesLe_le32, bytesLe_le32]; rfl⟩

/-- The block function with the schedule reversed undoes the block function: the halves go out swapped, so that
they come in swapped. -/
theorem magmaBlock_reverse_magmaBlock (k : Vector Word 8) (idx : List (Fin 8)) {b : List Byte} (h : b.length = 8) :
    magmaBlock k idx.reverse (magmaBlock k idx b) = b := by
  obtain ⟨l, r, rfl⟩ := exists_words h
  have hundo := feistel_reverse_swap k idx (l, r)
  rw [magmaBlock_words, magmaBlock_words]
  rw [Prod.swap] at hundo
  rw [hundo]
  rfl

theorem magmaDecBlock_magmaEncBlock (k : Vector Word 8) {b : List Byte} (h : b.length = 8) :
    magmaDecBlock k (magmaEncBlock k b) = b := by
  rw [magmaDecBlock, magmaEncBlock, decIdx_eq_reverse, magmaBlock_reverse_magmaBlock k encIdx h]

/-! The block commands (41_magma.md R156, R157). -/

theorem blk_eq_words (x : Vector Word 2) : x = #v[x[0], x[1]] := by
  refine Vector.ext fun i hi => ?_
  match i with
  | 0 | 1 => rfl

theorem performBlock_of_words {f : List Byte → List Byte} {s : State} {l r : Word}
    (h : f (bytesLe s.blk[0] ++ bytesLe s.blk[1]) = bytesLe l ++ bytesLe r) :
    performBlock f s = s.setBlk #v[l, r] := by
  simp only [performBlock, h, le32at_words]

/-- A block command puts the final right half in BLK0 and the final left half in BLK1. -/
theorem performBlock_magmaBlock (idx : List (Fin 8)) (s : State) :
    performBlock (magmaBlock s.key idx) s =
      s.setBlk #v[(feistel s.key idx (s.blk[0], s.blk[1])).2, (feistel s.key idx (s.blk[0], s.blk[1])).1] :=
  performBlock_of_words (magmaBlock_words s.key idx s.blk[0] s.blk[1])

theorem exec_magmaEncBlock_feistel (s : State) :
    exec .magmaEncBlock s = .next (completeOk (s.setBlk
      #v[(feistel s.key encIdx (s.blk[0], s.blk[1])).2, (feistel s.key encIdx (s.blk[0], s.blk[1])).1])) :=
  congrArg (Host.Outcome.next ∘ completeOk) (performBlock_magmaBlock encIdx s)

theorem exec_magmaDecBlock_feistel (s : State) :
    exec .magmaDecBlock s = .next (completeOk (s.setBlk
      #v[(feistel s.key decIdx (s.blk[0], s.blk[1])).2, (feistel s.key decIdx (s.blk[0], s.blk[1])).1])) :=
  congrArg (Host.Outcome.next ∘ completeOk) (performBlock_magmaBlock decIdx s)

/-- Settles O26: the statement's list of subkeys is `encIdx` written out. -/
theorem magmaEncBlockRunsTheEncryptionSchedule : Obligations.MagmaEncBlockRunsTheEncryptionSchedule :=
  ⟨rfl, exec_magmaEncBlock_feistel⟩

/-- Settles O27: the statement's list of subkeys is `decIdx` written out. -/
theorem magmaDecBlockRunsTheReversedSchedule : Obligations.MagmaDecBlockRunsTheReversedSchedule :=
  ⟨rfl, decIdx_eq_reverse, exec_magmaDecBlock_feistel⟩

/-- Settles O28: on the machine BLK holds the halves swapped between the two commands. -/
theorem blockDecryptionUndoesEncryption : Obligations.BlockDecryptionUndoesEncryption := by
  refine ⟨fun k b hb => magmaDecBlock_magmaEncBlock k hb, fun s t h => ?_⟩
  have hundo := feistel_reverse_swap s.key encIdx (s.blk[0], s.blk[1])
  rw [exec_magmaEncBlock_feistel] at h
  generalize feistel s.key encIdx (s.blk[0], s.blk[1]) = p at h hundo
  injection h with h
  subst h
  refine ⟨_, exec_magmaDecBlock_feistel _, ?_, rfl⟩
  calc #v[(feistel s.key encIdx.reverse p.swap).2, (feistel s.key encIdx.reverse p.swap).1]
    _ = #v[s.blk[0], s.blk[1]] := by rw [hundo]; rfl
    _ = s.blk := (blk_eq_words s.blk).symm

end Sys2Proof.Machine
end

section
/-! PROOFS. The family of 41_magma.md, continued: padding and the buffer functions (41_magma.md R149 to R153), and the
commands MAGMA_ENC and MAGMA_DEC (41_magma.md R158, R159). -/

namespace Sys2Proof.Machine

/-! Padding and its removal (41_magma.md R150, R151). -/

/-- Settles O29: the number is `padLength`. -/
theorem paddingFillsTheLastBlock : Obligations.PaddingFillsTheLastBlock := fun d =>
  ⟨padLength d.length, (padLength_pos _).1, (padLength_pos _).2, rfl, rfl, pad_length d⟩

/-- Unpadding a buffer by its last byte `p`. -/
theorem unpad_of_getLast? {o : List Byte} {p : Byte} (h : o.getLast? = some p) :
    unpad o = if 1 ≤ p.toNat ∧ p.toNat ≤ 8 ∧ p.toNat ≤ o.length then o.take (o.length - p.toNat) else o := by
  rw [unpad, h]

/-- Settles O30, by the last byte. -/
theorem unpaddingLooksAtTheLastByteOnly : Obligations.UnpaddingLooksAtTheLastByteOnly := by
  refine ⟨rfl, fun o p => ?_⟩
  rw [unpad_of_getLast? List.getLast?_concat]
  refine ⟨fun h => ?_, fun h => if_neg (by omega)⟩
  rw [if_pos h, List.length_append, List.length_singleton, List.take_append_of_le_length (by omega)]

/-- Unpadding strips the last block alone: what stands before it stays. -/
theorem unpad_append (a : List Byte) {b : List Byte} (h : 8 ≤ b.length) : unpad (a ++ b) = a ++ unpad b := by
  have hne : b ≠ [] := List.ne_nil_of_length_pos (by omega)
  have hb : b.getLast? = some (b.getLast hne) := List.getLast?_eq_some_getLast hne
  have hab : (a ++ b).getLast? = some (b.getLast hne) := by rw [List.getLast?_append, hb]; rfl
  rw [unpad_of_getLast? hb, unpad_of_getLast? hab, List.length_append]
  by_cases hp : 1 ≤ (b.getLast hne).toNat ∧ (b.getLast hne).toNat ≤ 8
  · rw [if_pos (by omega), if_pos (by omega), Nat.add_sub_assoc (by omega), List.take_length_add_append]
  · rw [if_neg (by omega), if_neg (by omega)]

/-- Unpadding takes off what padding appended. -/
theorem unpad_pad (d : List Byte) : unpad (pad d) = d := by
  obtain ⟨hpos, hle⟩ := padLength_pos d.length
  have hp : (BitVec.ofNat 8 (padLength d.length)).toNat = padLength d.length := by
    rw [BitVec.toNat_ofNat, Nat.mod_eq_of_lt (by omega)]
  have hlast : (pad d).getLast? = some (BitVec.ofNat 8 (padLength d.length)) := by
    rw [pad, List.getLast?_append, List.getLast?_replicate, if_neg (by omega)]
    rfl
  have hlen : (pad d).length = d.length + padLength d.length := by rw [pad, List.length_append, List.length_replicate]
  rw [unpad_of_getLast? hlast, hp, hlen, if_pos (by omega), Nat.add_sub_cancel, pad, List.take_left]

/-- With whole blocks in front the pad depends on the rest alone. -/
theorem pad_append {a : List Byte} (b : List Byte) (h : a.length % 8 = 0) : pad (a ++ b) = a ++ pad b := by
  have hp : padLength (a ++ b).length = padLength b.length := by
    rw [padLength, padLength, List.length_append]
    omega
  rw [pad, pad, hp, List.append_assoc]

/-! Buffers of whole blocks (41_magma.md R149, R152, R153). -/

theorem mapBlocks_of_length {f : List Byte → List Byte} {b : List Byte} (h : b.length = 8) : mapBlocks f b = f b := by
  obtain ⟨l, r, rfl⟩ := exists_words h
  exact List.append_nil _

/-- A block transform undone block by block. -/
theorem mapBlocks_mapBlocks {f g : List Byte → List Byte} (hf : ∀ b, (f b).length = 8)
    (hgf : ∀ b, b.length = 8 → g (f b) = b) (b : List Byte) (h : b.length % 8 = 0) :
    mapBlocks g (mapBlocks f b) = b := by
  induction b using block_induction with
  | short b hb =>
    obtain rfl : b = [] := List.length_eq_zero_iff.1 (by omega)
    rfl
  | step b0 b1 b2 b3 b4 b5 b6 b7 rest ih =>
    simp only [List.length_cons] at h
    rw [mapBlocks_cons, mapBlocks_append _ _ (by rw [hf]), ih (by omega), mapBlocks_of_length (hf _), hgf _ rfl]
    rfl

/-- The decrypted bytes of an encryption are the padded data (41_magma.md R148). -/
theorem magmaDecryptBlocks_magmaEncrypt (k : Vector Word 8) (d : List Byte) :
    magmaDecryptBlocks k (magmaEncrypt k d) = pad d :=
  mapBlocks_mapBlocks (fun _ => rfl) (fun _ hb => magmaDecBlock_magmaEncBlock k hb) _ (by simp)

/-- Settles O31: the decrypted blocks are the padded data, and unpadding takes the pad off. -/
theorem bufferDecryptionUndoesEncryption : Obligations.BufferDecryptionUndoesEncryption := by
  refine ⟨fun k d => ?_, fun k c hc => if_pos hc⟩
  rw [magmaDecrypt, if_neg (by simp), magmaDecryptBlocks_magmaEncrypt, unpad_pad]

/-- Settles O32: the padding is the rest's, and unpadding strips the rest's last block. -/
theorem wholeBlocksSplitOff : Obligations.WholeBlocksSplitOff := by
  intro k a b ha
  have hdec : magmaDecryptBlocks k (a ++ b) = magmaDecryptBlocks k a ++ magmaDecryptBlocks k b :=
    mapBlocks_append a b ha
  refine ⟨?_, hdec, fun hb hb8 => ?_⟩
  · have hfront : (magmaEncrypt k a).take a.length = mapBlocks (magmaEncBlock k) a := by
      have hlen : (mapBlocks (magmaEncBlock k) a).length = a.length := by
        rw [mapBlocks_length fun _ => rfl]
        omega
      rw [magmaEncrypt, pad, mapBlocks_append _ _ ha, List.take_left' hlen]
    rw [hfront, magmaEncrypt, pad_append b ha, mapBlocks_append _ _ ha, magmaEncrypt]
  · have hpos : 0 < b.length := List.length_pos_iff.2 hb
    have hab : (a ++ b).length % 8 = 0 := by rw [List.length_append]; omega
    have hlen : 8 ≤ (magmaDecryptBlocks k b).length := by rw [magmaDecryptBlocks_length]; omega
    rw [magmaDecrypt, magmaDecrypt, if_neg (by omega), if_neg (by omega), hdec, unpad_append _ hlen]
    rfl

/-! A buffer's block by its number. -/

/-- Block `i` of a buffer: its eight bytes from place `8 * i` up. -/
def blockAt (b : List Byte) (i : Nat) : List Byte := (b.drop (8 * i)).take 8

theorem blockAt_eq_map {b : List Byte} {i : Nat} {f : Nat → Byte} (h : ∀ j < 8, b[8 * i + j]? = some (f j)) :
    blockAt b i = (List.range 8).map f := by
  refine List.ext_getElem? fun j => ?_
  by_cases hj : j < 8
  · rw [blockAt, List.getElem?_take_of_lt hj, List.getElem?_drop, h j hj]
    simp [hj]
  · rw [blockAt, List.getElem?_take_eq_none (by omega)]
    simp [hj]

/-- Block `i` of a transformed buffer is the transform of block `i` (41_magma.md R149). -/
theorem blockAt_mapBlocks {f : List Byte → List Byte} (hf : ∀ b, (f b).length = 8) {b : List Byte} {i : Nat}
    (h : i < b.length / 8) : blockAt (mapBlocks f b) i = f (blockAt b i) := by
  have hfront : (mapBlocks f (b.take (8 * i))).length = 8 * i := by
    rw [mapBlocks_length hf, List.length_take]
    omega
  have hblock : (blockAt b i).length = 8 := by
    rw [blockAt, List.length_take, List.length_drop]
    omega
  calc blockAt (mapBlocks f b) i
    _ = blockAt (mapBlocks f (b.take (8 * i)) ++ mapBlocks f (b.drop (8 * i))) i := by
      rw [← mapBlocks_append _ _ (by rw [List.length_take]; omega), List.take_append_drop]
    _ = (mapBlocks f (blockAt b i ++ (b.drop (8 * i)).drop 8)).take 8 := by
      rw [blockAt, List.drop_left' hfront, blockAt, List.take_append_drop]
    _ = f (blockAt b i) := by
      rw [mapBlocks_append _ _ (by rw [hblock]), mapBlocks_of_length hblock, List.take_left' (hf _)]

/-- Block `i` of OUT after a transformed buffer was written there is the transform of block `i`. -/
theorem peek_pokes_mapBlocks {f : List Byte → List Byte} (hf : ∀ b, (f b).length = 8) (m : Memory) {b : List Byte}
    {i : Nat} (h : i < b.length / 8) :
    (List.range 8).map (fun j => peek (pokes m outBase (mapBlocks f b)) (outBase + 8 * i + j)) =
      (f (blockAt b i)).map some := by
  have hlen := mapBlocks_length hf b
  have hset : ∀ j < 8, (mapBlocks f b)[8 * i + j]? = some ((mapBlocks f b).getD (8 * i + j) 0) := fun j hj => by
    rw [List.getD_eq_getElem?_getD, List.getElem?_eq_getElem (by omega), Option.getD_some]
  rw [← blockAt_mapBlocks hf h, blockAt_eq_map hset, List.map_map]
  refine List.map_congr_left fun j hj => ?_
  have hj : j < 8 := List.mem_range.1 hj
  rw [Nat.add_assoc, peek_pokes_inside (by omega), hset j hj, Function.comp_apply]

/-! The bytes of IN as the two commands read them. -/

theorem blockAt_readIn (s : State) {n i : Nat} (h : i < n / 8) :
    blockAt (s.readIn n) i = (List.range 8).map fun j => inByte s (8 * i + j) :=
  blockAt_eq_map fun _ _ => readIn_getElem? s (by omega)

/-- The padded IN holds IN's bytes, then the pad bytes (41_magma.md R150). -/
theorem pad_readIn_getElem? (s : State) {n m : Nat} (h : m < 8 * (n / 8 + 1)) :
    (pad (s.readIn n))[m]? = some (paddedByte s n m) := by
  rw [pad, readIn_length, paddedByte]
  split
  · next hm => rw [List.getElem?_append_left (by simpa using hm), readIn_getElem? s hm, inByte]
  · next hm =>
    rw [List.getElem?_append_right (by simpa using hm), readIn_length, List.getElem?_replicate,
      if_pos (by rw [padLength]; omega), padLength]

/-! MAGMA_ENC (41_magma.md R158). -/

/-- A buffer command with LEN above the buffer reports LengthOutOfRange and writes nothing else of its own but
OUT_LEN (60_exceptions.md R204, R205). -/
theorem exec_of_lengthOutOfRange {i : Instr} {s : State} (hi : isBufferCommand i = true)
    (h : Config.bufBytes < s.len.toNat) : exec i s =
      .next { s with outLen := 0, status := ⟨false, true, true, .lengthOutOfRange⟩, doneIp := true } := by
  have hc := check_long s hi h
  rw [exec_eq, complete_of_error s _ (by rw [hc]; decide), hc, hi]
  rfl

/-- Settles O33, block by block of the padded IN. -/
theorem magmaEncWritesThePaddedCiphertext : Obligations.MagmaEncWritesThePaddedCiphertext := by
  refine ⟨rfl, fun s hlen => ?_, fun s hlen => exec_of_lengthOutOfRange rfl hlen⟩
  refine ⟨_, exec_magmaEnc s hlen, rfl, performMagmaEnc_outLen_toNat s hlen, fun i hi => ?_, ?_⟩
  · have hblock : i < (pad (s.readIn s.len.toNat)).length / 8 := by
      rw [pad_length, readIn_length]
      omega
    rw [← blockAt_eq_map fun j hj => pad_readIn_getElem? s (show 8 * i + j < _ by omega)]
    exact peek_pokes_mapBlocks (fun _ => rfl) s.mem hblock
  · exact exec_sameBytesOutside (exec_magmaEnc s hlen) fun _ _ => by simp [outputBytes]

/-! MAGMA_DEC (41_magma.md R159). -/

theorem unpad_length_of_getLast? {o : List Byte} {p : Byte} (h : o.getLast? = some p) (hlen : 8 ≤ o.length) :
    (unpad o).length = if 1 ≤ p.toNat ∧ p.toNat ≤ 8 then o.length - p.toNat else o.length := by
  rw [unpad_of_getLast? h]
  by_cases hp : 1 ≤ p.toNat ∧ p.toNat ≤ 8
  · rw [if_pos (by omega), if_pos hp, List.length_take, min_eq_left (by omega)]
  · rw [if_neg (by omega), if_neg hp]

/-- OUT_LEN after MAGMA_DEC is decided by the last byte it wrote. -/
theorem performMagmaDec_outLen_of_peek {s : State} (hlen : s.len.toNat ≤ Config.bufBytes) (h8 : s.len.toNat % 8 = 0)
    (hpos : 0 < s.len.toNat) {p : Byte} (hp : peek (performMagmaDec s).mem (outBase + s.len.toNat - 1) = some p) :
    (performMagmaDec s).outLen.toNat =
      if 1 ≤ p.toNat ∧ p.toNat ≤ 8 then s.len.toNat - p.toNat else s.len.toNat := by
  have hout : (magmaDecryptBlocks s.key (s.readIn s.len.toNat)).length = s.len.toNat := by
    rw [magmaDecryptBlocks_length, readIn_length]
    omega
  rw [performMagmaDec_mem, Nat.add_sub_assoc hpos, peek_pokes_inside (by omega)] at hp
  rw [performMagmaDec_outLen_toNat s hlen, unpad_length_of_getLast? (p := p) ?_ (by omega), hout]
  rw [List.getLast?_eq_getElem?, hout, hp]

/-- Settles O34: the blocks of OUT, the frame, OUT_LEN by the last byte, and the two length errors. -/
theorem magmaDecWritesThePlaintextAndItsLength : Obligations.MagmaDecWritesThePlaintextAndItsLength := by
  refine ⟨rfl, fun s hlen h8 => ?_, fun s hlen => exec_of_lengthOutOfRange rfl hlen, fun s hlen h8 => ?_⟩
  · refine ⟨_, exec_magmaDec s hlen h8, rfl, fun i hi => ?_, ?_, fun h0 => ?_, fun p hpos hp => ?_⟩
    · rw [← blockAt_readIn s hi]
      exact peek_pokes_mapBlocks (fun _ => rfl) s.mem (by rwa [readIn_length])
    · exact exec_sameBytesOutside (exec_magmaDec s hlen h8) fun hc _ => (outputBytes_length_magmaDec hc).le
    · rw [completeOk_outLen, performMagmaDec_outLen, h0]
      rfl
    · exact performMagmaDec_outLen_of_peek hlen h8 hpos hp
  · have hc := check_ragged s hlen h8
    rw [exec_eq, complete_of_error s _ (by rw [hc]; decide), hc]
    rfl

/-! MAGMA_DEC after MAGMA_ENC (41_magma.md R153). -/

/-- Settles O35: the second run decrypts to the padded IN of the first, and unpadding takes off its pad. -/
theorem magmaDecAfterMagmaEncRestoresTheInput : Obligations.MagmaDecAfterMagmaEncRestoresTheInput := by
  intro s t u hlen hst hkey hul hin
  have hfit := bufBytes_mod
  have hout := performMagmaEnc_outLen_toNat s hlen.le
  rw [exec_magmaEnc s hlen.le] at hst
  injection hst with hst
  subst hst
  have hu : u.len.toNat = 8 * (s.len.toNat / 8 + 1) := by rw [hul]; exact hout
  have hread : u.readIn u.len.toNat = magmaEncrypt s.key (s.readIn s.len.toNat) := by
    have hl : u.len.toNat = (magmaEncrypt s.key (s.readIn s.len.toNat)).length := by
      rw [magmaEncrypt_length, readIn_length, hu]
    rw [State.readIn, hl]
    refine readBytes_of_peek fun j hj => (hin j ?_).trans (peek_pokes_inside hj)
    rwa [← hul, hl]
  have hdec : magmaDecryptBlocks u.key (u.readIn u.len.toNat) = pad (s.readIn s.len.toNat) := by
    rw [hread, hkey, magmaDecryptBlocks_magmaEncrypt]
  refine ⟨_, exec_magmaDec u (by omega) (by omega), ?_, fun j hj => ?_⟩
  · rw [completeOk_outLen, performMagmaDec_outLen, hdec, unpad_pad, readIn_length, BitVec.ofNat_toNat,
      BitVec.setWidth_eq]
  · rw [completeOk_mem, performMagmaDec_mem, hdec, ← show outBase = 0x20000 from rfl,
      peek_pokes_inside (by rw [pad_length, readIn_length]; omega), pad_readIn_getElem? s (by omega), paddedByte,
      if_pos hj]

end Sys2Proof.Machine
end

section
/-! PROOFS. The family of 42_host_interface.md. First the host's KeyCodec (42_host_interface.md R180 to R185, R187):
what a key string is, the bytes it stands for, and the writes that load them. -/

namespace Sys2Proof.Machine

/-! Validation (42_host_interface.md R180). -/

/-- The characters with a digit value are the ASCII hex digits of either case. -/
theorem hexVal_isSome_iff (c : Char) : (hexVal c).isSome = true ↔
    ('0' ≤ c ∧ c ≤ '9') ∨ ('a' ≤ c ∧ c ≤ 'f') ∨ ('A' ≤ c ∧ c ≤ 'F') := by
  simp only [Char.le_def, UInt32.le_iff_toNat_le]
  change _ ↔ (48 ≤ c.toNat ∧ c.toNat ≤ 57) ∨ (97 ≤ c.toNat ∧ c.toNat ≤ 102) ∨ (65 ≤ c.toNat ∧ c.toNat ≤ 70)
  simp only [hexVal]
  split_ifs with hdigit hlower hupper
  · simp [hdigit]
  · simp [hlower]
  · simp [hupper]
  · simp [hdigit, hlower, hupper]

theorem validateKey_iff (s : List Char) (n : Nat) :
    validateKey s n = true ↔ s.length = n ∧ ∀ c ∈ s, (hexVal c).isSome = true := by
  rw [validateKey, Bool.and_eq_true, beq_iff_eq, List.all_eq_true]

/-- Settles O52: a string validates by its length and its characters, and the characters with a value are the digits. -/
theorem keyStringsValidate : Obligations.KeyStringsValidate := by
  refine ⟨fun s n => ?_, rfl, rfl⟩
  simp only [validateKey_iff, hexVal_isSome_iff]

/-! Parsing (42_host_interface.md R181). -/

/-- Byte `i` comes from the `i`-th pair of digits. -/
theorem parseHex_getElem? {s : List Char} {i : Nat} {c d : Char} (hc : s[2 * i]? = some c)
    (hd : s[2 * i + 1]? = some d) :
    (parseHex s)[i]? = some (BitVec.ofNat 8 (16 * (hexVal c).getD 0 + (hexVal d).getD 0)) := by
  match s, i with
  | [], _ | [_], 0 | [_], _ + 1 => simp at hd
  | _ :: _ :: _, 0 =>
    obtain rfl := Option.some.inj hc
    obtain rfl := Option.some.inj hd
    rfl
  | _ :: _ :: rest, i + 1 => exact parseHex_getElem? (s := rest) hc hd

/-- A valid string has a digit value at each of its places. -/
theorem exists_hexVal_of_validateKey {s : List Char} {n i : Nat} (h : validateKey s n = true) (hi : i < n) :
    ∃ c x, s[i]? = some c ∧ hexVal c = some x := by
  obtain ⟨rfl, hdigits⟩ := (validateKey_iff s n).1 h
  obtain ⟨x, hx⟩ := Option.isSome_iff_exists.1 (hdigits s[i] (List.getElem_mem hi))
  exact ⟨s[i], x, List.getElem?_eq_getElem hi, hx⟩

/-- Settles O53: byte `i` comes from the `i`-th pair, both of whose characters have a value. -/
theorem keyStringsParseInOrder : Obligations.KeyStringsParseInOrder := by
  refine ⟨by decide, fun s m h => ⟨?_, fun i hi => ?_⟩⟩
  · obtain ⟨hlen, _⟩ := (validateKey_iff s (2 * m)).1 h
    rw [parseHex_length, hlen, Nat.mul_div_cancel_left m Nat.two_pos]
  · obtain ⟨c, x, hc, hx⟩ := exists_hexVal_of_validateKey h (show 2 * i < 2 * m by omega)
    obtain ⟨d, y, hd, hy⟩ := exists_hexVal_of_validateKey h (show 2 * i + 1 < 2 * m by omega)
    refine ⟨c, d, x, y, hc, hd, hx, hy, ?_⟩
    rw [parseHex_getElem? hc hd, hx, hy]
    rfl

/-! Key loading (42_host_interface.md R182 to R185). -/

/-- A word inside the first `n` bytes of a sequence does not see the bytes after them. -/
theorem le32at_take (b : List Byte) {o n : Nat} (h : o + 4 ≤ n) : le32at (b.take n) o = le32at b o := by
  have getD_take (j : Nat) (hj : j < n) : (b.take n).getD j 0 = b.getD j 0 := by
    rw [List.getD_eq_getElem?_getD, List.getElem?_take_of_lt hj, List.getD_eq_getElem?_getD]
  simp only [le32at]
  rw [getD_take _ (by omega), getD_take _ (by omega), getD_take _ (by omega), getD_take _ (by omega)]

/-- The words that a write of `n` words takes lie in the first `4 * n` bytes. -/
theorem wordWrites_take (base n : Nat) (b : List Byte) : wordWrites base n (b.take (4 * n)) = wordWrites base n b := by
  refine List.map_congr_left fun i hi => ?_
  have hi := List.mem_range.1 hi
  rw [le32at_take b (by omega)]

/-- Settles O54: a valid string expands to the word writes of its bytes, an invalid one to a statement that stops the
script. -/
theorem keyLoadingWritesTheKeyWords : Obligations.KeyLoadingWritesTheKeyWords := by
  refine ⟨fun s h => ?_, fun s h => if_pos h, fun s h => if_neg (Bool.not_eq_true _ ▸ h),
    fun s h => if_neg (Bool.not_eq_true _ ▸ h), fun s hn hc => step_script hn hc⟩
  rw [loadkeyChacha, chachaKeyDigits, if_pos h, chachaNonceOf, wordWrites_take 0x060 3]
  rfl

end Sys2Proof.Machine
end

section
/-! PROOFS. The family of 42_host_interface.md, continued: the facade's byte operations as scripts
(42_host_interface.md R190). -/

namespace Sys2Proof.Machine

/-- The statements of a data write: one 8-bit write per byte, from IN[0] up (log 27). -/
def dataStmts (d : List Byte) : List Stmt :=
  (List.range d.length).map fun k =>
    .wr .w8 (.lit (BitVec.ofNat 32 (0x10000 + k))) (.lit ((d.getD k 0).setWidth 32))

theorem dataLines_eq_map (d : List Byte) : dataLines d = (dataStmts d).map .stmt := by
  rw [dataLines, mapIdx_eq_map_range _ d 0, dataStmts, List.map_map]
  rfl

/-- What a byte operation expands to after its key load (42_host_interface.md R190). `wait` stands behind the data
writes and two further lines, and its label is the number of its line. -/
theorem expandFrom_byteOperation (n : Nat) (i : Instr) (d : List Byte) :
    expandFrom n (byteOperation i.mnemonic d) =
      some (dataStmts d ++ ([.wr .w32 (.lit 0x018) (.lit (BitVec.ofNat 32 d.length)), cmdStmt i] ++
        waitStmts (.fresh (n + d.length + 2)) ++ readOutStmts)) := by
  have hread (m : Nat) : expandFrom m (readOutStmts.map .stmt) = some readOutStmts := by
    simpa [expandFrom] using expandFrom_stmts readOutStmts [] m
  have hlen : (dataStmts d).length = d.length := by simp [dataStmts]
  rw [byteOperation, dataLines_eq_map, List.append_assoc, expandFrom_stmts, hlen]
  simp [expandFrom, lenLine, expandLine, instrOfMnemonic_mnemonic, hread]

/-- A key load, which is the first line, in front of the rest of a byte operation. -/
theorem expandScript_keyLoad {l : Line} {key : List Stmt} (hl : expandLine 0 l = some key) (i : Instr)
    (d : List Byte) : expandScript (l :: byteOperation i.mnemonic d) =
      some (key ++ dataStmts d ++ ([.wr .w32 (.lit 0x018) (.lit (BitVec.ofNat 32 d.length)), cmdStmt i] ++
        waitStmts (.fresh (d.length + 3)) ++ readOutStmts)) := by
  have hfresh : 0 + 1 + d.length + 2 = d.length + 3 := by omega
  simp only [expandScript, expandFrom, hl, expandFrom_byteOperation, hfresh, List.append_assoc]

/-- Settles O58: the three scripts differ in the key load and the command. -/
theorem byteOperationsAreTheListedSequences : Obligations.ByteOperationsAreTheListedSequences :=
  ⟨rfl, fun d _ => ⟨expandScript_keyLoad rfl .chachaXor d, expandScript_keyLoad rfl .magmaEnc d,
    expandScript_keyLoad rfl .magmaDec d⟩⟩

end Sys2Proof.Machine
end

section
/-! PROOFS. The family of 42_host_interface.md, continued: the read-out of a byte operation, from the end of `wait` to its
result (42_host_interface.md R190). -/

namespace Sys2Proof.Machine

/-! The bytes that a script has read. -/

theorem bytesReadByScript_recordScript (h : HostState) (a : Access) (r : Reply) :
    bytesReadByScript (h.recordScript a r) = bytesReadByScript h ++ (BusRecord.scriptByte ⟨.script, a, r⟩).toList := by
  rw [bytesReadByScript, HostState.recordScript, List.filterMap_cons, bytesReadByScript]
  cases BusRecord.scriptByte ⟨.script, a, r⟩ <;> simp

theorem scriptByte_w8 (o : Word) (b : Byte) :
    BusRecord.scriptByte ⟨.script, scriptAccess .w8 o .read, .data (b.setWidth 32)⟩ = some b := by
  simp [BusRecord.scriptByte, scriptAccess]

/-- An 8-bit read of a set OUT byte answers it and uses up one draw. -/
theorem engineAccess_readOutByte {s : State} {j : Nat} {b : Byte} (hs : s.status.busy = false)
    (hj : j < Config.bufBytes + 8) (hb : peek s.mem (outBase + j) = some b) :
    engineAccess (outBase + j) .w8 .read s = (.data (b.setWidth 32), s.skipDraws 1) := by
  have hin : inOut (outBase + j) = true := (inOut_iff _).2 ⟨Nat.le_add_right _ _, by omega⟩
  have hone : readBytes s.mem s.draws (outBase + j) 1 = [b] :=
    congrArg (fun b => [b]) (readByte_of_set hb s.draws)
  rw [engineAccess_readBuffer (w := .w8) hs (.inr hin) (Nat.mod_one _), Width.bytes, hone]
  simp [assembleLe]

/-- A read of the script that is answered: the value goes to the record and to the variable. -/
theorem accessStmt_data {s u : State} {w : Width} {o v : Word} (x : Var) (ho : o.toNat < windowBytes)
    (ha : engineAccess o.toNat w .read s = (.data v, u)) :
    accessStmt (scriptAccess w o .read) (some x) s =
      .next (u.setHost (advance (putVar (s.host.recordScript (scriptAccess w o .read) (.data v)) x v))) := by
  obtain ⟨_, hhost, _⟩ := engineAccess_frame o.toNat w .read s
  rw [ha] at hhost
  rw [accessStmt_inside _ ho, ha, ← hhost]
  rfl

/-! Runs and labels. -/

/-- A step and a run of `k` are a run of `k + 1`. -/
theorem run_of_step {M : Host.Core} {k : Nat} {s u t : M.State} (h : M.step s = .next u) (hr : M.run k u = .next t) :
    M.run (k + 1) s = .next t := by
  rw [Host.Core.run, h]
  exact hr

/-- A label that the first part of a script does not define stands where the second part first defines it. -/
theorem labelIndex_append {p q : List Stmt} {l : Label} {k : Nat} (hp : Stmt.label l ∉ p)
    (hq : labelIndex q l = some k) : labelIndex (p ++ q) l = some (p.length + k) := by
  have hnone : p.findIdx? (fun c => c == .label l) = none :=
    List.findIdx?_eq_none_iff.2 fun c hc => beq_eq_false_iff_ne.2 fun e => hp (e ▸ hc)
  rw [labelIndex] at hq
  rw [labelIndex, List.findIdx?_append, hnone, hq, Option.none_or, Option.map_some, Nat.add_comm]

/-! The tests of the final STATUS (10_state.md R28). -/

theorem word_and_done (t : Status) : (t.word &&& 0x2 == 0) = !t.done := by
  obtain ⟨busy, done, err, code⟩ := t
  cases code <;> revert busy done err <;> decide

theorem word_and_err (t : Status) : (t.word &&& 0x4 != 0) = t.err := by
  obtain ⟨busy, done, err, code⟩ := t
  cases code <;> revert busy done err <;> decide

/-! The states of a read-out. -/

/-- Nothing but the script moves, and the labels of the read-out stand in the read-out alone. -/
structure ReadOutAlone (s : State) (before : List Stmt) : Prop where
  turns : s.turns = []
  idle : s.status.busy = false
  noEnd : Stmt.label labelEnd ∉ before
  noNext : Stmt.label labelNext ∉ before

/-- The engine and the turns of `t` are those of `s`, but that the draw counter went on by `m`. -/
def SameButDraws (s : State) (m : Nat) (t : State) : Prop := t = { s with draws := s.draws + m, host := t.host }

namespace SameButDraws
variable {s t : State} {m : Nat} (h : SameButDraws s m t)
include h

theorem eq : t = { s with draws := s.draws + m, host := t.host } := h
theorem turns : t.turns = s.turns := by rw [h.eq]
theorem status : t.status = s.status := by rw [h.eq]
theorem outLen : t.outLen = s.outLen := by rw [h.eq]
theorem mem : t.mem = s.mem := by rw [h.eq]

theorem setHost (h' : HostState) : SameButDraws s m (t.setHost h') := congrArg (fun u : State => u.setHost h') h.eq

theorem skipDraw : SameButDraws s (m + 1) (t.skipDraws 1) := congrArg (fun u : State => u.skipDraws 1) h.eq

end SameButDraws

/-- `t` stands at statement `k` of the read-out that began in `s` behind the statements `before`: it has read the bytes
`got`, each for one draw; `n` is in the variable for OUT_LEN and `i` in the one that counts bytes. -/
structure ReadOutAt (s : State) (before : List Stmt) (n i : Word) (got : List Byte) (k : Nat) (t : State) : Prop
    extends ReadOutAlone s before where
  frame : SameButDraws s got.length t
  stop : t.host.stop = none
  script : t.host.script = before ++ readOutStmts
  pos : t.host.pos = before.length + k
  status : getVar t.host varS = s.status.word
  count : getVar t.host varN = n
  index : getVar t.host varI = i
  bytes : bytesReadByScript t.host = got

/-- From `t` the script halts, with the engine as in `s` but for the draws of the bytes `got`, and with the result that
the STATUS of `s` names (42_host_interface.md R187, R190). -/
def ReadOutEnds (s : State) (got : List Byte) (t : State) : Prop :=
  ∃ (m : Nat) (u : State), Host.Core.run Sys2Proof.core m t = .next u ∧
    SameButDraws s got.length u ∧ u.host.stop = some .halted ∧
    facadeResult u = if s.status.done then
      (if s.status.err then some (.error s.status.errcode) else some (.ok got)) else none

theorem ReadOutEnds.of_step {s t u : State} {got : List Byte} (h : step t = .next u) (hu : ReadOutEnds s got u) :
    ReadOutEnds s got t := by
  obtain ⟨m, v, hrun, hv⟩ := hu
  exact ⟨m + 1, v, run_of_step (M := Sys2Proof.core) h hrun, hv⟩

section
variable {s t : State} {before : List Stmt} {n i : Word} {got : List Byte} {k : Nat}

/-! The statements of the read-out, one by one. -/

theorem ReadOutAt.busy (h : ReadOutAt s before n i got k t) : t.status.busy = false := by rw [h.frame.status, h.idle]

/-- The next step is the statement that the read-out has come to. -/
theorem ReadOutAt.step_eq (h : ReadOutAt s before n i got k t) {c : Stmt} (hc : readOutStmts[k]? = some c) :
    step t = runStmt c t := by
  refine step_idle_script (h.frame.turns.trans h.turns) h.busy ?_
  rw [nextStmt, h.stop, h.script, h.pos, List.getElem?_append_right (Nat.le_add_right _ _), Nat.add_sub_cancel_left, hc]

/-- A change of place alone. -/
theorem ReadOutAt.goto (h : ReadOutAt s before n i got k t) (k' : Nat) :
    ReadOutAt s before n i got k' (t.setHost { t.host with pos := before.length + k' }) :=
  { h with frame := h.frame.setHost _, pos := rfl }

theorem ReadOutAt.step_label (h : ReadOutAt s before n i got k t) {l : Label}
    (hc : readOutStmts[k]? = some (.label l)) :
    ∃ u, step t = .next u ∧ ReadOutAt s before n i got (k + 1) u := by
  refine ⟨_, h.step_eq hc, ?_⟩
  rw [advance, h.pos]
  exact h.goto (k + 1)

/-- A branch goes to its label or on, as its test says. -/
theorem ReadOutAt.step_branch (h : ReadOutAt s before n i got k t) {c : Stmt} {b : Bool} {l : Label} {k' : Nat}
    (hc : readOutStmts[k]? = some c) (hrun : runStmt c t = branch b l t) (hl : Stmt.label l ∉ before)
    (hk : labelIndex readOutStmts l = some k') :
    ∃ u, step t = .next u ∧ ReadOutAt s before n i got (if b then k' else k + 1) u := by
  refine ⟨_, ?_, h.goto _⟩
  rw [h.step_eq hc, hrun, branch]
  cases b with
  | true => simp only [if_true, h.script, labelIndex_append hl hk]
  | false => simp only [Bool.false_eq_true, if_false, advance, h.pos]; rfl

/-- The read of OUT_LEN, statement 2. -/
theorem ReadOutAt.step_readOutLen (h : ReadOutAt s before n i got 2 t) :
    ∃ u, step t = .next u ∧ ReadOutAt s before s.outLen i got 3 u := by
  have ha : engineAccess 0x01C .w32 .read t = (.data s.outLen, t) :=
    h.frame.outLen ▸ engineAccess_readReg (r := .outLen) (.inl h.busy)
  refine ⟨_, (h.step_eq rfl).trans (accessStmt_data varN (o := 0x01C) (by decide) ha), { h with
    frame := h.frame.setHost _
    pos := congrArg (· + 1) h.pos
    status := (getVar_putVar ..).trans h.status
    count := (getVar_putVar ..).trans (if_pos rfl)
    index := (getVar_putVar ..).trans h.index
    bytes := ?_ }⟩
  exact (bytesReadByScript_recordScript ..).trans ((List.append_nil _).trans h.bytes)

/-- The read of OUT byte `j`, statement 7. -/
theorem ReadOutAt.step_readByte {j : Nat} (h : ReadOutAt s before n (BitVec.ofNat 32 j) got 7 t) {b : Byte}
    (hj : j < Config.bufBytes + 8) (hb : peek s.mem (outBase + j) = some b) :
    ∃ u, step t = .next u ∧ ReadOutAt s before n (BitVec.ofNat 32 j) (got ++ [b]) 8 u := by
  have hle := bufBytes_le
  have hoff : (BitVec.ofNat 32 outBase + getVar t.host varI).toNat = outBase + j := by
    rw [h.index, ← BitVec.ofNat_add, BitVec.toNat_ofNat]
    exact Nat.mod_eq_of_lt (by unfold outBase; omega)
  have ha : engineAccess (BitVec.ofNat 32 outBase + getVar t.host varI).toNat .w8 .read t = _ :=
    hoff ▸ engineAccess_readOutByte h.busy hj (h.frame.mem ▸ hb)
  have hwin : (BitVec.ofNat 32 outBase + getVar t.host varI).toNat < windowBytes := by
    rw [hoff]
    unfold outBase windowBytes
    omega
  refine ⟨_, (h.step_eq rfl).trans (accessStmt_data varB hwin ha), { h with
    frame := ?_
    pos := congrArg (· + 1) h.pos
    status := (getVar_putVar ..).trans h.status
    count := (getVar_putVar ..).trans h.count
    index := (getVar_putVar ..).trans h.index
    bytes := ?_ }⟩
  · rw [List.length_append]
    exact h.frame.skipDraw.setHost _
  · refine (bytesReadByScript_recordScript ..).trans ?_
    rw [scriptByte_w8, h.bytes]
    rfl

/-- The count of the bytes read, statement 8. -/
theorem ReadOutAt.step_addIndex {j : Nat} (h : ReadOutAt s before n (BitVec.ofNat 32 j) got 8 t) :
    ∃ u, step t = .next u ∧ ReadOutAt s before n (BitVec.ofNat 32 (j + 1)) got 9 u := by
  refine ⟨_, h.step_eq rfl, { h with
    frame := h.frame.setHost _
    pos := congrArg (· + 1) h.pos
    status := (getVar_putVar ..).trans h.status
    count := (getVar_putVar ..).trans h.count
    index := ?_ }⟩
  refine (getVar_putVar ..).trans ?_
  rw [if_pos rfl, h.index, BitVec.ofNat_add]
  rfl

/-- The test of DONE, statement 0. -/
theorem ReadOutAt.step_testDone (h : ReadOutAt s before n i got 0 t) :
    ∃ u, step t = .next u ∧ ReadOutAt s before n i got (if !s.status.done then 4 else 1) u := by
  have htest : (getVar t.host varS &&& 0x2 == 0) = !s.status.done := by rw [h.status, word_and_done]
  exact h.step_branch rfl (congrArg (branch · labelEnd t) htest) h.noEnd rfl

/-- The test of ERR, statement 1. -/
theorem ReadOutAt.step_testErr (h : ReadOutAt s before n i got 1 t) :
    ∃ u, step t = .next u ∧ ReadOutAt s before n i got (if s.status.err then 4 else 2) u := by
  have htest : (getVar t.host varS &&& 0x4 != 0) = s.status.err := by rw [h.status, word_and_err]
  exact h.step_branch rfl (congrArg (branch · labelEnd t) htest) h.noEnd rfl

/-- The test that there is a byte left to read, statements 3 and 9. -/
theorem ReadOutAt.step_testLeft {j : Nat} (h : ReadOutAt s before s.outLen (BitVec.ofNat 32 j) got k t)
    (hj : j ≤ s.outLen.toNat) (hc : readOutStmts[k]? = some (.bne varI (.var varN) labelNext)) :
    ∃ u, step t = .next u ∧
      ReadOutAt s before s.outLen (BitVec.ofNat 32 j) got (if j < s.outLen.toNat then 6 else k + 1) u := by
  have htest : (getVar t.host varI != getVar t.host varN) = decide (j < s.outLen.toNat) := by
    rw [h.index, h.count, Bool.eq_iff_iff, bne_iff_ne, decide_eq_true_iff, ne_eq, ← BitVec.toNat_inj,
      BitVec.toNat_ofNat, Nat.mod_eq_of_lt (by omega)]
    omega
  obtain ⟨u, hu, hat⟩ := h.step_branch hc (congrArg (branch · labelNext t) htest) h.noNext rfl
  exact ⟨u, hu, by simpa using hat⟩

/-! The ends of the read-out. -/

theorem ReadOutAt.ends_halt (h : ReadOutAt s before n i got k t) (hc : readOutStmts[k]? = some .halt) :
    ReadOutEnds s got t := by
  have hresult := facadeResult_halted (s := t.setHost (stopWith .halted t.host)) rfl h.status
  have hbytes : bytesReadByScript (t.setHost (stopWith .halted t.host)).host = got := h.bytes
  rw [hbytes] at hresult
  exact .of_step (h.step_eq hc) ⟨0, _, rfl, h.frame.setHost _, rfl, hresult⟩

/-- The first `halt` with its label, statements 4 and 5. -/
theorem ReadOutAt.ends_end (h : ReadOutAt s before n i got 4 t) : ReadOutEnds s got t := by
  obtain ⟨u, hu, h5⟩ := h.step_label rfl
  exact .of_step hu (h5.ends_halt rfl)

/-- With DONE clear or ERR set the read-out ends without a read. -/
theorem ReadOutAt.ends_without_bytes (h : ReadOutAt s before n i got 0 t)
    (hs : s.status.done = false ∨ s.status.err = true) : ReadOutEnds s got t := by
  obtain ⟨u, hstep0, hu⟩ := h.step_testDone
  by_cases hdone : s.status.done = true
  · rw [if_neg (by simp [hdone])] at hu
    obtain ⟨v, hstep1, hv⟩ := hu.step_testErr
    rw [if_pos (hs.resolve_left (by simp [hdone]))] at hv
    exact .of_step hstep0 (.of_step hstep1 hv.ends_end)
  · rw [if_pos (by simp [hdone])] at hu
    exact .of_step hstep0 hu.ends_end

section
variable {d : List Byte} (hlen : d.length = s.outLen.toNat) (hbound : d.length ≤ Config.bufBytes + 8)
  (hset : ∀ j < d.length, peek s.mem (outBase + j) = d[j]?)
include hlen hbound hset

/-- The loop, statements 6 to 10: from OUT byte `j` on it reads the rest of the bytes. -/
theorem ReadOutAt.ends_loop {j : Nat} (hj : j < d.length)
    (h : ReadOutAt s before s.outLen (BitVec.ofNat 32 j) (d.take j) 6 t) : ReadOutEnds s d t := by
  induction hm : d.length - j generalizing j t with
  | zero => omega
  | succ m ih =>
    obtain ⟨t7, hstep6, h7⟩ := h.step_label rfl
    obtain ⟨t8, hstep7, h8⟩ := h7.step_readByte (by omega) ((hset j hj).trans (List.getElem?_eq_getElem hj))
    rw [List.take_append_getElem] at h8
    obtain ⟨t9, hstep8, h9⟩ := h8.step_addIndex
    obtain ⟨u, hstep9, hu⟩ := h9.step_testLeft (by omega) rfl
    refine .of_step hstep6 (.of_step hstep7 (.of_step hstep8 (.of_step hstep9 ?_)))
    rw [← hlen] at hu
    by_cases hleft : j + 1 < d.length
    · rw [if_pos hleft] at hu
      exact ih hleft hu (by omega)
    · rw [if_neg hleft, List.take_of_length_le (by omega)] at hu
      exact hu.ends_halt rfl

/-- With DONE set and ERR clear the read-out ends with the OUT bytes. -/
theorem ReadOutAt.ends_with_bytes (h : ReadOutAt s before n 0 [] 0 t) (hdone : s.status.done = true)
    (herr : s.status.err = false) : ReadOutEnds s d t := by
  obtain ⟨t1, hstep0, h1⟩ := h.step_testDone
  rw [if_neg (by simp [hdone])] at h1
  obtain ⟨t2, hstep1, h2⟩ := h1.step_testErr
  rw [if_neg (by simp [herr])] at h2
  obtain ⟨t3, hstep2, h3⟩ := h2.step_readOutLen
  obtain ⟨u, hstep3, hu⟩ := ReadOutAt.step_testLeft (j := 0) h3 (Nat.zero_le _) rfl
  refine .of_step hstep0 (.of_step hstep1 (.of_step hstep2 (.of_step hstep3 ?_)))
  rw [← hlen] at hu
  by_cases hleft : 0 < d.length
  · rw [if_pos hleft] at hu
    exact hu.ends_loop hlen hbound hset hleft
  · rw [if_neg hleft] at hu
    obtain rfl := List.eq_nil_of_length_eq_zero (Nat.eq_zero_of_not_pos hleft)
    exact hu.ends_end

end
end

theorem SameButDraws.sameEngine {s t : State} (h : SameButDraws s 0 t) : SameEngine s t := by
  rw [h.eq]
  exact .setHost s t.host

/-- Settles O59: the read-out runs from the end of `wait` to a `halt`, and what it has read decides the result. -/
theorem byteOperationResultFollowsTheFinalStatus : Obligations.ByteOperationResultFollowsTheFinalStatus := by
  refine ⟨fun s h => by rw [facadeResult, h], fun s h => by rcases h with h | h <;> rw [facadeResult, h],
    fun s before hturns hidle hstop hscript hpos hend hnext hstatus hindex hbytes => ?_⟩
  have hat : ReadOutAt s before (getVar s.host varN) 0 [] 0 s :=
    { turns := hturns, idle := hidle, noEnd := hend, noNext := hnext, frame := rfl, stop := hstop, script := hscript,
      pos := hpos, status := hstatus, count := rfl, index := hindex, bytes := hbytes }
  refine ⟨fun hdone => ?_, fun hdone herr => ?_, fun d hdone herr hbound hlen hset => ?_⟩
  · obtain ⟨m, u, hrun, hframe, hhalted, hresult⟩ := hat.ends_without_bytes (.inl hdone)
    rw [hdone] at hresult
    exact ⟨m, u, hrun, hframe.sameEngine, hhalted, hresult⟩
  · obtain ⟨m, u, hrun, hframe, hhalted, hresult⟩ := hat.ends_without_bytes (.inr herr)
    rw [hdone, herr] at hresult
    exact ⟨m, u, hrun, hframe.sameEngine, hhalted, hresult⟩
  · obtain ⟨m, u, hrun, hframe, hhalted, hresult⟩ := hat.ends_with_bytes hlen (hlen ▸ hbound) hset hdone herr
    rw [hdone, herr] at hresult
    exact ⟨m, u, hrun, by rw [hframe.eq], hhalted, hresult⟩

end Sys2Proof.Machine
end

section
/-! PROOFS. The family of 60_exceptions.md: the causes of a BusError (60_exceptions.md R203, R210, R211), acceptance
(60_exceptions.md R201), the interrupt (60_exceptions.md R207) and the end of a run (60_exceptions.md R218). -/

namespace Sys2Proof.Machine

/-! Which accesses get a BusError (60_exceptions.md R210). -/

/-- An access that fails a check of 20_memory.md R71 gets a BusError and changes nothing. -/
theorem engineAccess_of_fails {off : Nat} {w : Width} {op : AccessOp} {s : State}
    (h : accessFails off w op s = true) : engineAccess off w op s = (.busError, s) :=
  if_pos h

/-- And only such an access does. -/
theorem engineAccess_busError_iff (off : Nat) (w : Width) (op : AccessOp) (s : State) :
    (engineAccess off w op s).1 = .busError ↔ accessFails off w op s = true := by
  refine ⟨fun h => ?_, fun h => by rw [engineAccess_of_fails h]⟩
  unfold engineAccess at h
  split at h
  · assumption
  · cases op <;> cases h

/-! Busy protection by offsets (60_exceptions.md R203). -/

theorem permittedWhileBusy_read_iff (r : Reg) : permittedWhileBusy r.offset .read ↔ r.busyReadable = true := by
  refine ⟨busyReadable_of_permitted, fun h => ?_⟩
  cases r
  case id | param | cmd | status | irqEn | irqStatus => simp [permittedWhileBusy, Reg.offset]
  all_goals cases h

theorem permittedWhileBusy_write_iff (r : Reg) (v : Word) :
    permittedWhileBusy r.offset (.write v) ↔ r.busyWritable = true := by
  cases r
  case irqEn | irqStatus => simp [permittedWhileBusy, Reg.offset, Reg.busyWritable]
  all_goals
    simp only [permittedWhileBusy, Reg.offset, Reg.busyWritable, Bool.false_eq_true, iff_false]
    omega

/-- What is permitted while busy is at a register's offset. -/
theorem regAt_ne_none_of_permitted {off : Nat} {op : AccessOp} (h : permittedWhileBusy off op) :
    regAt off ≠ none := by
  cases op with
  | read => rcases h with rfl | rfl | rfl | rfl | rfl | rfl <;> decide
  | write v => rcases h with rfl | rfl <;> decide

/-- The check of busy protection, by offset and direction. -/
theorem busyForbidden_iff (off : Nat) (op : AccessOp) (s : State) :
    busyForbidden off op s = true ↔ s.status.busy = true ∧ ¬ permittedWhileBusy off op := by
  unfold busyForbidden
  rw [Bool.and_eq_true]
  refine and_congr_right fun _ => ?_
  cases hr : regAt off with
  | none => simp [mt regAt_ne_none_of_permitted (not_not.2 hr)]
  | some r =>
    obtain rfl := offset_of_regAt hr
    cases op with
    | read => simp [permittedWhileBusy_read_iff]
    | write v => simp [permittedWhileBusy_write_iff]

/-! Reserved and read-only offsets (10_state.md R24, R40; 20_memory.md R61). -/

/-- Nothing stands at the offset: no register and no buffer byte. -/
def Unmapped (off : Nat) : Prop := regionOf off = .reserved ∨ (regionOf off = .registers ∧ regAt off = none)

/-- The words of the register region without a register, by number. -/
theorem regAt_word_eq_none_iff :
    ∀ k < 64, regAt (4 * k) = none ↔ (9 ≤ k ∧ k ≤ 15) ∨ (27 ≤ k ∧ k ≤ 31) ∨ 54 ≤ k := by
  decide

/-- Apart from the inner bytes of a word of the register region, nothing stands exactly at the reserved offsets. -/
theorem unmapped_iff_reservedOffset {off : Nat} (hoff : off < 0x30000) (hword : off < 0x100 → off % 4 = 0) :
    Unmapped off ↔ reservedOffset off := by
  have := bufBytes_le
  unfold Unmapped reservedOffset
  rcases regionOf_cases off with ⟨h, e⟩ | ⟨h, e⟩ | ⟨h, e⟩ | ⟨h, hin, hout, e⟩
  · obtain ⟨k, rfl⟩ := Nat.dvd_of_mod_eq_zero (hword h)
    simp only [e, regAt_word_eq_none_iff k (by omega), reduceCtorEq, false_or, true_and]
    omega
  · simp only [inIn_iff, inBase] at h
    simp only [e, reduceCtorEq, false_and, or_self, false_iff]
    omega
  · simp only [inOut_iff, outBase] at h
    simp only [e, reduceCtorEq, false_and, or_self, false_iff]
    omega
  · simp only [← Bool.not_eq_true, inIn_iff, inBase] at hin
    simp only [← Bool.not_eq_true, inOut_iff, outBase] at hout
    simp only [e, true_or, true_iff]
    omega

theorem readOnlyOffset_reg_iff (r : Reg) : readOnlyOffset r.offset ↔ r.writable = false := by
  cases r <;> simp [readOnlyOffset, Reg.offset, Reg.writable] <;> omega

/-- Where something stands, a host may write unless the location is read-only. -/
theorem writableAt_eq_false_iff {off : Nat} (hmap : ¬ Unmapped off) :
    writableAt off = false ↔ readOnlyOffset off := by
  have := bufBytes_le
  obtain ⟨hres, hreg⟩ := not_or.1 hmap
  rcases regionOf_cases off with ⟨_, e⟩ | ⟨h, e⟩ | ⟨h, e⟩ | ⟨_, _, _, e⟩
  · obtain ⟨r, hr⟩ := Option.ne_none_iff_exists'.1 fun hr => hreg ⟨e, hr⟩
    obtain rfl := offset_of_regAt hr
    simp [writableAt, e, hr, readOnlyOffset_reg_iff]
  · simp only [inIn_iff, inBase] at h
    simp only [writableAt, e, readOnlyOffset, Bool.true_eq_false, false_iff]
    omega
  · simp only [inOut_iff, outBase] at h
    simp only [writableAt, e, readOnlyOffset, true_iff]
    omega
  · exact absurd e hres

/-! The causes together (60_exceptions.md R211). -/

/-- A non-word access to the register region or a misaligned access: its form alone is a cause. -/
def IllFormed (off : Nat) (w : Width) : Prop := (off < 0x100 ∧ w ≠ .w32) ∨ off % w.bytes ≠ 0

theorem regionOf_eq_registers_iff (off : Nat) : regionOf off = .registers ↔ off < 0x100 := by
  rcases regionOf_cases off with ⟨h, e⟩ | ⟨h, e⟩ | ⟨h, e⟩ | ⟨h, _, _, e⟩
  · simp [h, e]
  · simp [inIn_ge h, e]
  · simp [inOut_ge h, e]
  · simp [h, e]

theorem isWrite_iff (op : AccessOp) : op.isWrite = true ↔ op ≠ .read := by cases op <;> simp [AccessOp.isWrite]

/-- The checks of 20_memory.md R71: the form of the access, the map, the access rights and busy protection. -/
theorem accessFails_iff (off : Nat) (w : Width) (op : AccessOp) (s : State) :
    accessFails off w op s = true ↔
      IllFormed off w ∨ Unmapped off ∨ (op ≠ .read ∧ writableAt off = false) ∨ busyForbidden off op s = true := by
  simp only [accessFails, IllFormed, Unmapped, Bool.or_eq_true, Bool.and_eq_true, beq_iff_eq, bne_iff_ne,
    Option.isNone_iff_eq_none, Bool.not_eq_true', isWrite_iff, regionOf_eq_registers_iff]
  tauto

/-- Settles O41: an access whose form is no cause is at the start of a word in the register region, and there the map's
table and the listed offsets agree. -/
theorem busErrorsAreExactlyTheListedCauses : Obligations.BusErrorsAreExactlyTheListedCauses := by
  intro off w op s hoff
  rw [engineAccess_busError_iff]
  refine ⟨?_, fun h => by rw [engineAccess_of_fails h]⟩
  rw [accessFails_iff, busyForbidden_iff, ← or_assoc (a := _ ∧ _) (b := _ ≠ _), ← IllFormed]
  by_cases hform : IllFormed off w
  · simp only [hform, true_or, or_true]
  have hword : off < 0x100 → off % 4 = 0 := fun hlt => by
    obtain ⟨hw, ha⟩ := not_or.1 hform
    obtain rfl : w = .w32 := not_not.1 fun hne => hw ⟨hlt, hne⟩
    exact not_not.1 ha
  rw [← unmapped_iff_reservedOffset hoff hword]
  by_cases hmap : Unmapped off
  · simp only [hmap, true_or, or_true]
  · simp only [hform, hmap, writableAt_eq_false_iff hmap, false_or]

/-! Acceptance (60_exceptions.md R201). -/

/-- Settles O8: while idle a CMD write is an acceptance, and while busy CMD is no register that a host may write. -/
theorem acceptanceTakesAnyWordWhenIdle : Obligations.AcceptanceTakesAnyWordWhenIdle := by
  refine fun s w => ⟨fun hidle => engineAccess_writeReg (r := .cmd) rfl w (.inl hidle), fun hbusy => ?_⟩
  have hforbidden : busyForbidden 0x008 (.write w) s = true := busyForbidden_write hbusy (regAt_offset .cmd) w
  exact engineAccess_of_fails ((accessFails_iff ..).2 (.inr (.inr (.inr hforbidden))))

/-! The interrupt (60_exceptions.md R207). -/

/-- A completion sets DONE_IP and leaves DONE_IE, error or not. -/
theorem completion_interrupt {s t : State} (h : completion s = .next t) : t.doneIe = s.doneIe ∧ t.doneIp = true := by
  rcases completion_results h with ⟨i, _, _, rfl⟩ | ⟨b, e, _, _, rfl⟩
  · exact ⟨perform_doneIe s i, rfl⟩
  · exact ⟨completeError_doneIe s b e, rfl⟩

/-- Settles O48: the writes of the two interrupt registers (O47) and the completion, each by what it leaves of the two
bits. -/
theorem interruptLevelFollowsEnableAndPending : Obligations.InterruptLevelFollowsEnableAndPending := by
  refine ⟨fun _ => rfl, fun s t hn hb h => ?_, fun s => ?_, fun s => ?_, rfl⟩
  · rw [step_engine_turn_busy hn hb] at h
    obtain ⟨hie, hip⟩ := completion_interrupt h
    exact ⟨by rw [State.irq, hie, hip, Bool.and_true, popTurn_doneIe], hip⟩
  · rw [(interruptRegisterWrites 1 s).2]
    exact Bool.and_false s.doneIe
  · rw [(interruptRegisterWrites 0 s).1, (interruptRegisterWrites 1 _).1]
    exact ⟨rfl, rfl, rfl⟩

/-! The end of a run (60_exceptions.md R218). -/

theorem popTurn_of_turns_nil {s : State} (h : s.turns = []) : popTurn s = s := by
  rw [popTurn, h, List.tail_nil, ← h, State.setTurns]

/-- Settles O12: the script has the turn and nothing left to run (log 13). -/
theorem finishedRunStaysAsItIs : Obligations.FinishedRunStaysAsItIs := by
  intro s h
  simp only [State.finished, Bool.and_eq_true, Bool.not_eq_true', List.isEmpty_iff, Option.isNone_iff_eq_none] at h
  obtain ⟨⟨hidle, hturns⟩, hstmt⟩ := h
  have hn : nextTurn s = .script := by simp [nextTurn, hturns, defaultTurn, hidle]
  rw [step, hn, popTurn_of_turns_nil hturns, runTurn, scriptTurn, hstmt]

end Sys2Proof.Machine
end

section
/-! PROOFS. The family of 70_reset_and_hazards.md: the state after a reset (70_reset_and_hazards.md R230 to R232). -/

namespace Sys2Proof.Machine

/-- BUF_BYTES fits PARAM[15:0] (10_state.md R26). -/
theorem bufBytes_lt_two_pow_16 : Config.bufBytes < 2 ^ 16 := Nat.lt_of_le_of_lt bufBytes_le (by decide)

theorem status_reset_word : Status.reset.word = 0 := by decide

/-- The table speaks of the engine alone, so a reset meets it whatever the engine was doing: each register is the
constant it is reset to, and no buffer byte is listed. -/
theorem resetTable_resetEngine (s : State) : ResetTable (resetEngine s) where
  id := rfl
  paramLow := by rw [readReg_param_toNat, Nat.mod_eq_of_lt bufBytes_lt_two_pow_16]
  paramHigh := by rw [readReg_param_toNat, Nat.div_eq_of_lt bufBytes_lt_two_pow_16]
  cmd := rfl
  status := status_reset_word
  busy := rfl
  irqEn := rfl
  irqStatus := rfl
  irq := rfl
  len := rfl
  outLen := rfl
  ctr := rfl
  key i := Vector.getElem_replicate i.isLt
  nonce i := Vector.getElem_replicate i.isLt
  w i := Vector.getElem_replicate i.isLt
  scr i := Vector.getElem_replicate i.isLt
  blk i := Vector.getElem_replicate i.isLt
  buffers a _ := peek_nil a

/-- The reset input always acts (70_reset_and_hazards.md R230). -/
theorem step_reset {s : State} (h : nextTurn s = .reset) : step s = .next (resetEngine (popTurn s)) := by
  rw [step, h, runTurn]

/-- Settles O1: the reset state is itself what a reset leaves, so one lemma on the reset event gives both parts. -/
theorem resetGivesTheTabledState : Obligations.ResetGivesTheTabledState :=
  ⟨resetTable_resetEngine State.reset, fun s h => ⟨_, step_reset h, resetTable_resetEngine (popTurn s)⟩⟩

end Sys2Proof.Machine
end
